-- ==== Sys2Proof/Word.lean ====
section
/-!
DEFINITION. The word type and the one container the rest of the model is written over.

Every transfer between host and hardware is one whole 32-bit word, and a `num` travels as its binary32 bit
pattern (20_memory.md R88): sign in bit 31, biased exponent in bits 30 to 23, fraction in bits 22 to 0.
-/

namespace Sys2Proof

/-- A whole 32-bit word: CMD, `A[i]`, `Q[i]`, STATUS, the `u32` sample rates (R88). -/
abbrev Word := BitVec 32

/-- A value of the format NUM, held as its binary32 bit pattern (R88; NUM at its default, 92 D2). -/
abbrev Num32 := Word

/-- Four like things, numbered 0 to 3: the FDN branches, the taps, the stages of one diffuser cascade. -/
structure Four (α : Type) where
  i0 : α
  i1 : α
  i2 : α
  i3 : α
  deriving DecidableEq, Repr

namespace Four

variable {α β γ : Type}

/-- The same value four times. -/
def const (x : α) : Four α := ⟨x, x, x, x⟩

/-- `f` of each of the four. -/
def map (f : α → β) (x : Four α) : Four β := ⟨f x.i0, f x.i1, f x.i2, f x.i3⟩

/-- `f` of each pair of equal number. -/
def zipWith (f : α → β → γ) (x : Four α) (y : Four β) : Four γ :=
  ⟨f x.i0 y.i0, f x.i1 y.i1, f x.i2 y.i2, f x.i3 y.i3⟩

/-- The element numbered `k`. -/
def get (x : Four α) (k : Fin 4) : α :=
  match k with
  | 0 => x.i0
  | 1 => x.i1
  | 2 => x.i2
  | 3 => x.i3

/-- Every one of the four satisfies `p`. -/
def all (p : α → Bool) (x : Four α) : Bool := p x.i0 && p x.i1 && p x.i2 && p x.i3

end Four

end Sys2Proof
end

