-- ==== Sys2Proof/Config.lean ====
section
/-!
DEFINITION. What an implementation fixes, and the free values.

`Params` is the list of arguments the spec says a model takes (00_scope.md section 3; 92 D3, D16, D20, D24, D25,
D28). The engines' procedures take a `Params`; the hardware's own instance is `Sys2Proof.Machine.params`
(Machine/Params.lean). The `opaque` constants are values the spec leaves open: nothing in Lean can evaluate them.
-/

namespace Sys2Proof

/-- The ten parameter registers of the reverberator (10_state.md R57), also used for the raw values `P`, the
clamped values `C` (42_rev_params.md R190, R191) and the defaults (R192). -/
structure RevParams where
  maxsize : Num32
  size    : Num32
  spread  : Num32
  bw      : Num32
  decay   : Num32
  damp    : Num32
  dry     : Num32
  early   : Num32
  late    : Num32
  wet     : Num32
  deriving DecidableEq, Repr

/-- DIFF_R, the diffuser spread constants (rL1, rL2, rR1, rR2) (42_rev_params.md R197). -/
structure DiffR where
  rL1 : Num32
  rL2 : Num32
  rR1 : Num32
  rR2 : Num32
  deriving DecidableEq, Repr

/-- The geometry of the VariableSaw: the corner VSAW_CORNER gives and the two slopes that go with it
(41_osc_step.md R170). The spec writes the slopes out for its default corner only, so one parameter gives all
three (log entry 5). -/
structure SawGeometry where
  cHi : Num32
  mUp : Num32
  mDn : Num32
  deriving DecidableEq, Repr

/-- The implementation parameters a model takes (00_scope.md section 3). -/
structure Params where
  /-- POW(b, e) (R18). -/
  pow : Num32 → Num32 → Num32
  /-- BLEP(t, dt) (R160, R161). -/
  blep : Num32 → Num32 → Num32
  /-- BLAMP(t, dt) (R162, R163). -/
  blamp : Num32 → Num32 → Num32
  /-- VSAW_CORNER with its slopes, a function of the clamped pulse width (R170). -/
  vsaw : Num32 → SawGeometry
  /-- FDN_CAP, the largest FDN line in words (R193). -/
  fdnCap : Nat
  /-- REV_DEFAULTS (R192). -/
  revDefaults : RevParams
  /-- DIFF_R (R197). -/
  diffR : DiffR

/-- The NUM operations whose invalid operations give a NaN (R9). -/
inductive NumOp where
  | add | sub | mul | div | fmod
  deriving DecidableEq, Repr

namespace Config

/-- FREE VALUE (log entry 2). The power function where R18 says nothing of it. -/
opaque powFree : Num32 → Num32 → Num32

/-- FREE VALUE (log entry 3). Which NaN pattern an invalid operation, or one with a NaN operand, gives. -/
opaque nanFree : NumOp → Num32 → Num32 → Word

/-- FREE VALUE (log entry 4). What a conversion to `int` or an integral value gives for a non-finite operand. -/
opaque intFree : Num32 → Int

/-- FREE VALUE (log entry 8). What the n-th read of CMD delivers to the host (10_state.md R31, 93 I13). -/
opaque cmdReadFree : Nat → Word

end Config

end Sys2Proof
end

