-- ==== Sys2Proof/Machine/Binary32.lean ====
section
/-!
DEFINITION. NUM at its default, IEEE 754 binary32 with round to nearest even (00_scope.md R7 to R17, R19; 92 D2).

Every finite binary32 value is a whole multiple of 2^-149, the least subnormal. `mag` and `fix` read a value in
that unit exactly, the arithmetic is exact on `Nat` and `Int`, and `roundMag` narrows once at the end (R8).
Subnormals are kept, overflow gives an infinity, an invalid operation a NaN, and nothing is recorded (R9).
-/

namespace Sys2Proof.Machine.F32

open Sys2Proof

/-- The units of 2^-149 in 1.0. -/
def oneUnits : Nat := 2 ^ 149

/-- The sign bit, bit 31 (R88). -/
def sign (x : Num32) : Bool := x.getLsbD 31

/-- The biased exponent, bits 30 to 23 (R88). -/
def expo (x : Num32) : Nat := x.toNat / 2 ^ 23 % 2 ^ 8

/-- The fraction, bits 22 to 0 (R88). -/
def frac (x : Num32) : Nat := x.toNat % 2 ^ 23

/-- Neither an infinity nor a NaN (R11). -/
def isFinite (x : Num32) : Bool := expo x != 255

/-- A NaN. -/
def isNaN (x : Num32) : Bool := expo x == 255 && frac x != 0

/-- An infinity of either sign. -/
def isInf (x : Num32) : Bool := expo x == 255 && frac x == 0

/-- A zero of either sign. -/
def isZero (x : Num32) : Bool := expo x == 0 && frac x == 0

/-- The pattern of magnitude `p` (bits 30 to 0) and sign `s`. -/
def pack (s : Bool) (p : Nat) : Num32 := BitVec.ofNat 32 (p + if s then 2 ^ 31 else 0)

/-- The magnitude pattern of an infinity. -/
def infMag : Nat := 0x7F800000

def infinity (s : Bool) : Num32 := pack s infMag

/-- The magnitude of a finite value, in units of 2^-149. -/
def mag (x : Num32) : Nat := if expo x = 0 then frac x else (2 ^ 23 + frac x) * 2 ^ (expo x - 1)

/-- A finite value, in units of 2^-149. -/
def fix (x : Num32) : Int := if sign x then -(mag x : Int) else (mag x : Int)

/-- The magnitude pattern nearest to `n / d` units of 2^-149, ties to even, overflow to the infinity (R8, R9).
`k` is how many low bits of the quotient a 24-bit significand has no room for; the pattern of a significand `q`
with `k` dropped bits is `k * 2^23 + q`, for subnormals (`k = 0`) and after a carry into bit 24 as well. -/
def roundMag (n d : Nat) : Nat :=
  let k := Nat.log2 (n / d) - 23
  let dk := d * 2 ^ k
  let q := n / dk
  let r := n % dk
  let up := if dk < 2 * r ∨ (2 * r = dk ∧ q % 2 = 1) then 1 else 0
  min (k * 2 ^ 23 + (q + up)) infMag

/-- The value of sign `s` nearest to `n / d` units of 2^-149. -/
def round (s : Bool) (n d : Nat) : Num32 := pack s (roundMag n d)

/-- A NaN, whichever the free value picks: its exponent is all ones and its fraction is not zero. Every NaN
pattern is a possible answer (log entry 3). -/
def nan (op : NumOp) (x y : Num32) : Num32 :=
  let free := Config.nanFree op x y
  let f := if frac free = 0 then 1 else frac free
  pack (sign free) (infMag + f)

/-- Unary minus flips the sign bit exactly (R8). -/
def neg (x : Num32) : Num32 := x ^^^ 0x80000000#32

/-- `abs` clears the sign bit exactly (R11). -/
def abs (x : Num32) : Num32 := x &&& 0x7FFFFFFF#32

/-- A sum of two values that are no NaN: infinities absorb, opposite infinities are invalid, an exact zero is -0
only when both addends are negative (round to nearest). -/
def addValues (op : NumOp) (x y : Num32) : Num32 :=
  if isInf x then (if isInf y && sign x != sign y then nan op x y else x)
  else if isInf y then y
  else
    let v := fix x + fix y
    if v = 0 then pack (sign x && sign y) 0 else round (decide (v < 0)) v.natAbs 1

/-- `+` (R8, R9). -/
def add (x y : Num32) : Num32 := if isNaN x || isNaN y then nan .add x y else addValues .add x y

/-- `-` (R8, R9). -/
def sub (x y : Num32) : Num32 := if isNaN x || isNaN y then nan .sub x y else addValues .sub x (neg y)

/-- `*` (R8, R9). -/
def mul (x y : Num32) : Num32 :=
  let s := sign x != sign y
  if isNaN x || isNaN y then nan .mul x y
  else if isInf x || isInf y then
    (if isZero x || isZero y then nan .mul x y else infinity s)
  else round s (mag x * mag y) oneUnits

/-- `/` (R8, R9). A finite nonzero value over a zero is an infinity. -/
def div (x y : Num32) : Num32 :=
  let s := sign x != sign y
  if isNaN x || isNaN y then nan .div x y
  else if isInf x then (if isInf y then nan .div x y else infinity s)
  else if isInf y then pack s 0
  else if isZero y then (if isZero x then nan .div x y else infinity s)
  else round s (mag x * oneUnits) (mag y)

/-- The order of the values that are no NaN, infinities included: the magnitude pattern with the sign, so that
+0 and -0 are equal. -/
def key (x : Num32) : Int :=
  if sign x then -((x.toNat % 2 ^ 31 : Nat) : Int) else ((x.toNat % 2 ^ 31 : Nat) : Int)

/-- `x < y`, false for a NaN (R7). -/
def lt (x y : Num32) : Bool := !isNaN x && !isNaN y && decide (key x < key y)

/-- `x <= y`, false for a NaN (R7). -/
def le (x y : Num32) : Bool := !isNaN x && !isNaN y && decide (key x ≤ key y)

/-- `x == y` of NUM, false for a NaN; +0 and -0 are equal (R7). -/
def eq (x y : Num32) : Bool := !isNaN x && !isNaN y && decide (key x = key y)

/-- `num(k)` of an `int`: nearest, ties to even (R10). -/
def ofInt (k : Int) : Num32 := round (decide (k < 0)) (k.natAbs * oneUnits) 1

/-- `num(k)` of a `u32` or of a length: nearest, ties to even (R10). -/
def ofNat (k : Nat) : Num32 := round false (k * oneUnits) 1

/-- The NUM value nearest to the decimal literal `n / d` (R10). -/
def literal (n d : Nat) : Num32 := round false (n * oneUnits) d

/-- `floor(x)`, exact (R11). A zero keeps its sign, which is what makes `wrap(-0.0)` the +0.0 that R16 states
(log entry 9). R11 says nothing of a non-finite x: there the value is free (log entry 4). -/
def floor (x : Num32) : Num32 :=
  if isFinite x then round (sign x) ((fix x / (oneUnits : Int)).natAbs * oneUnits) 1
  else ofInt (Config.intFree x)

/-- `fmod(x, 1)`: x less its integer part truncated toward zero, with the sign of x, exact (R15). -/
def fmodOne (x : Num32) : Num32 :=
  if isFinite x then round (sign x) (mag x % oneUnits) 1 else nan .fmod x (ofNat 1)

/-- `roundHalfAway(x)`: the nearest `int`, ties away from zero (R13). A non-finite x has no stated result: there
the value is free (log entry 4). -/
def roundHalfAway (x : Num32) : Int :=
  if isFinite x then
    let n : Nat := (2 * mag x + oneUnits) / (2 * oneUnits)
    if sign x then -(n : Int) else (n : Int)
  else Config.intFree x

/-- `trunc(x)`: the fraction discarded (R14). A non-finite x has no stated result: there the value is free
(log entry 4). -/
def trunc (x : Num32) : Int :=
  if isFinite x then
    let n : Nat := mag x / oneUnits
    if sign x then -(n : Int) else (n : Int)
  else Config.intFree x

/-- +0.0 -/
def zero : Num32 := 0x00000000#32

/-- 1.0 -/
def one : Num32 := 0x3F800000#32

/-- `clamp(x, lo, hi)`: `lo` for a NaN or below it, `hi` above it, else x (R12). -/
def clamp (x lo hi : Num32) : Num32 :=
  if isNaN x || lt x lo then lo else if lt hi x then hi else x

/-- `wrap(x)`, a phase into [0,1) (R16). -/
def wrap (x : Num32) : Num32 :=
  if isFinite x then
    let y := sub x (floor x)
    if le one y then zero else y
  else zero

/-- `sanitize(v)`: 0.0 for a non-finite v (R17). -/
def sanitize (v : Num32) : Num32 := if isFinite v then v else zero

end Sys2Proof.Machine.F32
end

