-- ==== Sys2Proof/Machine/Pow.lean ====
section
/-!
DEFINITION. What the spec requires of POW (00_scope.md R18; 43_rev_process.md R247, R255, R256), as a narrowing of any
function of the two operands to it (log entry 2).
-/

namespace Sys2Proof.Machine

open Sys2Proof F32

/-- The largest NUM value below 1.0. -/
def belowOne : Num32 := 0x3F7FFFFF#32

/-- The largest value POW may have for a base in [0, 1] and an exponent above 0: 1.0 (R18), and below 1.0 for a base
below 1 and an exponent of 1 or more, since a branch gain is strictly less than 1 in magnitude when alpha < 1
(R255). -/
def powBound (b e : Num32) : Num32 := if lt b one && le one e then belowOne else one

/-- POW narrowed to what the spec requires of it: 1.0 for exponent 0 and a finite base and a value in [0, 1] for
0 < b < 1 and e > 0 (R18); and, DEDUCED from R247, R255 and R256, in [0, 1] at the ends b = 0 and b = 1 as well, and
below 1.0 where a gain must be (log entry 2). Every function that meets these is `powAdmissible` of itself. -/
def powAdmissible (raw : Num32 → Num32 → Num32) (b e : Num32) : Num32 :=
  if isFinite b && isZero e then one
  else if le zero b && le b one && lt zero e then clamp (raw b e) zero (powBound b e)
  else raw b e

end Sys2Proof.Machine
end

