-- ==== Sys2Proof/Machine/PowReference.lean ====
section
/-!
DEFINITION. The reference instance of POW, the correctly rounded NUM value of the real power b^e (00_scope.md R18),
which the vectors of 95_test_vectors.md assume. The hardware's own parameters do not use it: their POW is free
(log entry 2).

b^e is enclosed between two numbers by exp(e ln b) in fixed point. If both round to one value, that is the answer;
else the power is compared exactly, on integers, with the midpoint of the two neighbours, which settles ties as
well. UNVERIFIED in Lean: that the enclosure encloses; the error bounds are argued at each definition (log entry 12).
-/

namespace Sys2Proof.Machine

open Sys2Proof F32

/-! ### Enclosures in fixed point -/

/-- The unit of the fixed point: 2^200 stands for 1. -/
def powUnit : Nat := 2 ^ 200

/-- More than the error of either sum below: every term is rounded down, by less than 4 units, there are 70 terms, and
the rest of either series is less than one unit. -/
def powSlack : Nat := 2 ^ 16

/-- An enclosure, the least and the greatest value, in units of 2^-200. -/
structure Enclosure where
  lo : Int
  hi : Int
  deriving DecidableEq, Repr

/-- The enclosure of c times the enclosed number. -/
def Enclosure.scale (c : Int) (x : Enclosure) : Enclosure :=
  if 0 ≤ c then ⟨c * x.lo, c * x.hi⟩ else ⟨c * x.hi, c * x.lo⟩

/-- `fuel` terms of the sum of z^(2j+1) / (2j+1) from the j-th, with `t` = z^(2j+1) and `z2` = z^2. -/
def atanhSum (fuel j t z2 : Nat) : Nat :=
  match fuel with
  | 0 => 0
  | n + 1 => t / (2 * j + 1) + atanhSum n (j + 1) (t * z2 / powUnit) z2

/-- The logarithm of n / d for 1 <= n / d <= 2, by 2 atanh((n - d) / (n + d)), whose argument is at most 1/3. -/
def lnRatio (n d : Nat) : Enclosure :=
  let z := (n - d) * powUnit / (n + d)
  let sum := 2 * atanhSum 70 0 z (z * z / powUnit)
  ⟨sum, sum + powSlack⟩

/-- ln 2. -/
def lnTwo : Enclosure := lnRatio 2 1

/-- ln of m units of 2^-149, for m > 0: with 2^l <= m < 2^(l+1), it is (l - 149) ln 2 + ln(m / 2^l). -/
def lnOf (m : Nat) : Enclosure :=
  let l := Nat.log2 m
  let whole := lnTwo.scale ((l : Int) - 149)
  let part := lnRatio m (2 ^ l)
  ⟨whole.lo + part.lo, whole.hi + part.hi⟩

/-- e ln b, for |b| of m units and a finite e. -/
def powExponent (m : Nat) (e : Num32) : Enclosure :=
  let y := (lnOf m).scale (fix e)
  ⟨y.lo / (oneUnits : Int), y.hi / (oneUnits : Int) + 1⟩

/-- `fuel` terms of the sum of r^j / j! from the j-th, which is `t`. -/
def expSum (fuel j t r : Nat) : Nat :=
  match fuel with
  | 0 => 0
  | n + 1 => t + expSum n (j + 1) (t * r / powUnit / (j + 1)) r

/-- The magnitude patterns the ends of the enclosure of exp(y) round to. Beyond e^100 the power overflows and below
e^-110 it underflows to 0. Between them exp(y) is 2^q exp(r) with 0 <= r = y - q ln 2 < 1.5. -/
def expPatterns (y : Enclosure) : Nat × Nat :=
  if 100 * (powUnit : Int) ≤ y.lo then (infMag, infMag)
  else if y.hi ≤ -110 * (powUnit : Int) then (0, 0)
  else
    let q := y.lo / lnTwo.lo - 1
    let whole := lnTwo.scale q
    let pattern (x : Nat) : Nat := roundMag (x * oneUnits * 2 ^ q.toNat) (powUnit * 2 ^ (-q).toNat)
    (pattern (expSum 70 0 powUnit (y.lo - whole.hi).toNat),
      pattern (expSum 70 0 powUnit (y.hi - whole.lo).toNat + powSlack))

/-! ### The exact comparison -/

/-- How |b|^e, for |b| of m units, compares with `twice` units of 2^-150. With |e| = n / d in lowest terms it
compares the d-th powers, which are integers after a common factor. -/
def powCompare (m : Nat) (e : Num32) (twice : Nat) : Ordering :=
  let g := Nat.gcd (mag e) oneUnits
  let n := mag e / g
  let d := oneUnits / g
  if sign e then compare (2 ^ (149 * n) * 2 ^ (150 * d)) (twice ^ d * m ^ n)
  else compare (m ^ n * 2 ^ (150 * d)) (twice ^ d * 2 ^ (149 * n))

/-- The magnitude pattern nearest to |b|^e, ties to even, for |b| of m > 0 units and a finite e. The midpoint of two
neighbours is half the sum of their magnitudes, the infinity standing for 2^128. -/
def powMag (m : Nat) (e : Num32) : Nat :=
  let (lo, hi) := expPatterns (powExponent m e)
  if lo = hi then lo
  else
    match powCompare m e (mag (pack false lo) + mag (pack false hi)) with
    | .lt => lo
    | .gt => hi
    | .eq => if lo % 2 = 0 then lo else hi

/-- The exponent is a whole number. -/
def isWhole (e : Num32) : Bool := isFinite e && mag e % oneUnits == 0

/-- The exponent is an odd whole number. -/
def isOddWhole (e : Num32) : Bool := isWhole e && mag e / oneUnits % 2 == 1

/-- The reference POW. The real power exists for a positive base, for a negative base and a whole exponent, and for
base 0 and a positive exponent; elsewhere there is nothing to round, and the value is free within R18. -/
def powReference (b e : Num32) : Num32 :=
  if isFinite b && isZero e then one
  else if isFinite b && isFinite e then
    if isZero b then (if sign e then powAdmissible Config.powFree b e else zero)
    else if sign b && !isWhole e then powAdmissible Config.powFree b e
    else pack (sign b && isOddWhole e) (powMag (mag b) e)
  else powAdmissible Config.powFree b e

end Sys2Proof.Machine
end

