-- ==== Sys2Proof/Machine/Wave.lean ====
section
/-!
DEFINITION. The anti-aliasing corrector's reference polynomials (41_osc_step.md R161, R163), the default VariableSaw
geometry (R170) and the waveform selector (R165 to R171). The selector takes BLEP, BLAMP and the geometry from
the `Params` it is given (R160, R162).
-/

namespace Sys2Proof.Machine

open Sys2Proof F32

/-- The waveforms; the codes 0 to 4 are in this order (30_encoding.md R108). -/
inductive Shape where
  | variableSaw | square | saw | sawAlt | triangle
  deriving DecidableEq, Repr

namespace Shape

/-- The shape a SHAPE field names; codes 5 to 15 name none (R108). -/
def ofCode (code : Nat) : Option Shape :=
  match code with
  | 0 => some .variableSaw
  | 1 => some .square
  | 2 => some .saw
  | 3 => some .sawAlt
  | 4 => some .triangle
  | _ => none

/-- The 3-bit code held in OSC.shape (10_state.md section 4, R108). -/
def code (shape : Shape) : Nat :=
  match shape with
  | .variableSaw => 0
  | .square => 1
  | .saw => 2
  | .sawAlt => 3
  | .triangle => 4

/-- Shapes 0 and 1 use a pulse width, the others do not (R108). -/
def usesPulseWidth (shape : Shape) : Bool :=
  match shape with
  | .variableSaw | .square => true
  | .saw | .sawAlt | .triangle => false

end Shape

/-! Literals of the pseudocode (R10); Tests/Slice0.lean checks each against its decimal. -/

/-- 0.25 -/
def num0_25 : Num32 := 0x3E800000#32
/-- 0.5 -/
def num0_5 : Num32 := 0x3F000000#32
/-- 0.75 -/
def num0_75 : Num32 := 0x3F400000#32
/-- 2.0 -/
def num2 : Num32 := 0x40000000#32
/-- 3.0 -/
def num3 : Num32 := 0x40400000#32
/-- 4.0 -/
def num4 : Num32 := 0x40800000#32

/-- The reference BLEP (R161). -/
def blepReference (t dt : Num32) : Num32 :=
  if lt t dt then
    let x := sub (div t dt) one
    mul x x
  else if lt (sub one dt) t then
    let x := add (div (sub t one) dt) one
    neg (mul x x)
  else zero

/-- The reference BLAMP (R163). -/
def blampReference (t dt : Num32) : Num32 :=
  if lt t dt then
    let x := sub (div t dt) one
    div (mul (mul x x) x) num3
  else if lt (sub one dt) t then
    let x := add (div (sub t one) dt) one
    neg (div (mul (mul x x) x) num3)
  else zero

/-- The default geometry of the VariableSaw: VSAW_CORNER(w) = w / 4, written 0.25 * w as R170 has it. -/
def sawGeometryDefault (w : Num32) : SawGeometry :=
  { cHi := mul num0_25 w, mUp := div num4 w, mDn := neg (div num4 (sub num2 w)) }

/-- Saw (R166). -/
def waveSaw (P : Params) (p dt : Num32) : Num32 :=
  sub (sub one (mul num2 p)) (P.blep p dt)

/-- SawAlt (R167). -/
def waveSawAlt (P : Params) (p dt : Num32) : Num32 :=
  let u := wrap (add p num0_5)
  add (sub (mul num2 u) one) (P.blep u dt)

/-- Square (R168). -/
def waveSquare (P : Params) (p dt w : Num32) : Num32 :=
  let n := if lt p w then one else neg one
  let y := sub n (P.blep p dt)
  add y (P.blep (wrap (sub p w)) dt)

/-- Triangle (R169). -/
def waveTriangle (P : Params) (p dt : Num32) : Num32 :=
  let n :=
    if lt p num0_25 then mul num4 p
    else if lt p num0_75 then sub num2 (mul num4 p)
    else sub (mul num4 p) num4
  let c := sub (P.blamp (wrap (sub p num0_25)) dt) (P.blamp (wrap (sub p num0_75)) dt)
  add n (mul (mul num4 dt) c)

/-- VariableSaw: the geometry of R170 with the correction of R171. -/
def waveVariableSaw (P : Params) (p dt w : Num32) : Num32 :=
  let g := P.vsaw w
  let cLo := sub one g.cHi
  let n :=
    if lt p g.cHi then mul g.mUp p
    else if lt p cLo then add one (mul g.mDn (sub p g.cHi))
    else mul g.mUp (sub p one)
  let k := mul num0_5 (sub g.mUp g.mDn)
  let c := sub (P.blamp (wrap (sub p g.cHi)) dt) (P.blamp (wrap (sub p cLo)) dt)
  add n (mul (mul k dt) c)

/-- `Wave(shape, p, dt, w)` (R165). -/
def wave (P : Params) (shape : Shape) (p dt w : Num32) : Num32 :=
  match shape with
  | .variableSaw => waveVariableSaw P p dt w
  | .square => waveSquare P p dt w
  | .saw => waveSaw P p dt
  | .sawAlt => waveSawAlt P p dt
  | .triangle => waveTriangle P p dt

end Sys2Proof.Machine
end

