-- ==== Sys2Proof/Machine/Params.lean ====
section
/-!
DEFINITION. The fixed values of 00_scope.md section 3 and the hardware's own `Params`: every parameter at the
default the spec gives it, and POW, for which the spec gives requirements only (00_scope.md R18), at the free value
of Config narrowed to those requirements.
-/

namespace Sys2Proof.Machine

open Sys2Proof F32

/-! Literals (R10); Tests/Slice0.lean checks each against its decimal. -/

/-- 0.001 -/
def num0_001 : Num32 := 0x3A83126F#32
/-- 0.01 -/
def num0_01 : Num32 := 0x3C23D70A#32
/-- 0.1 -/
def num0_1 : Num32 := 0x3DCCCCCD#32
/-- 0.15 -/
def num0_15 : Num32 := 0x3E19999A#32
/-- 0.155 -/
def num0_155 : Num32 := 0x3E1EB852#32
/-- 0.300 -/
def num0_3 : Num32 := 0x3E99999A#32
/-- 0.410 -/
def num0_41 : Num32 := 0x3ED1EB85#32
/-- 0.625 -/
def num0_625 : Num32 := 0x3F200000#32
/-- 0.63245 -/
def num0_63245 : Num32 := 0x3F21E83E#32
/-- 0.70710 -/
def num0_70710 : Num32 := 0x3F350481#32
/-- 0.81649 -/
def num0_81649 : Num32 := 0x3F51057D#32
/-- 0.99 -/
def num0_99 : Num32 := 0x3F7D70A4#32
/-- 7.0 -/
def num7 : Num32 := 0x40E00000#32
/-- 50.0 -/
def num50 : Num32 := 0x42480000#32
/-- 100.0 -/
def num100 : Num32 := 0x42C80000#32
/-- 300.0 -/
def num300 : Num32 := 0x43960000#32
/-- 340.0, the speed constant -/
def num340 : Num32 := 0x43AA0000#32
/-- 1341.0, the sum of the diffuser base parts -/
def num1341 : Num32 := 0x44A7A000#32
/-- 3600.0 -/
def num3600 : Num32 := 0x45610000#32
/-- 100000.0, the input reject magnitude -/
def num100000 : Num32 := 0x47C35000#32
/-- +inf -/
def numInf : Num32 := 0x7F800000#32

/-- TAP_SIZE, the words of the pre-delay line (00_scope.md section 3; 10_state.md R64). -/
def tapSize : Nat := 44000

/-- The FDN length ratios (00_scope.md section 3; 42_rev_params.md R195). -/
def lenRatio : Four Num32 := ⟨one, num0_81649, num0_70710, num0_63245⟩

/-- The tap ratios (00_scope.md section 3; R195). -/
def tapRatio : Four Num32 := ⟨num0_41, num0_3, num0_155, zero⟩

/-- REV.diffCoeff[0..3], the hard-wired allpass coefficients of both cascades: no command writes them
(10_state.md R62). -/
def diffCoeff : Four Num32 := ⟨num0_75, num0_75, num0_625, num0_625⟩

/-- REV_DEFAULTS (R192). -/
def revDefaults : RevParams :=
  { maxsize := num300, size := num50, spread := num0_15, bw := num0_5, decay := num7
    damp := num0_5, dry := one, early := num0_25, late := num0_25, wet := one }

/-- The default DIFF_R, (0.125541, 0.854046, -0.568366, -0.126815) (R197). -/
def diffRDefault : DiffR :=
  { rL1 := 0x3E008DD2#32, rL2 := 0x3F5AA2C2#32, rR1 := 0xBF11806F#32, rR2 := 0xBE01DBCB#32 }

/-- The hardware's parameters (log entry 1). POW is the free one (log entry 2). -/
def params : Params :=
  { pow := powAdmissible Config.powFree
    blep := blepReference
    blamp := blampReference
    vsaw := sawGeometryDefault
    fdnCap := 262144
    revDefaults := revDefaults
    diffR := diffRDefault }

/-- The parameters that 95_test_vectors.md assumes: the defaults, with the reference POW (R18). -/
def paramsReference : Params := { params with pow := powReference }

end Sys2Proof.Machine
end

