-- ==== Sys2Proof/Machine/State.lean ====
section
/-!
DEFINITION. The state of the hardware (10_state.md), the reasons a step can stop, and power-on reset
(70_reset_and_hazards.md R300).
-/

namespace Sys2Proof.Machine

open Sys2Proof

/-- The words of a delay RAM: pairs (position, word), positions strictly rising, no word equal to +0.0, which is
what a position that is not listed reads as. Construction, DLRealloc and DLClear set every word to +0.0
(20_memory.md R85, R86), so no word is ever read that nothing has set (log entry 13). -/
abbrev Memory := List (Nat × Num32)

/-- A delay line: `size` words, `idx` the next write position (10_state.md R64). -/
structure DelayLine where
  size : Nat
  idx  : Nat
  buf  : Memory
  deriving DecidableEq, Repr

/-- A one-pole damper: its coefficient and its state (10_state.md R63). -/
structure Damper where
  c : Num32
  s : Num32
  deriving DecidableEq, Repr

/-- The operand registers A[0] to A[10] (10_state.md R32). -/
structure Operands where
  a0  : Word
  a1  : Word
  a2  : Word
  a3  : Word
  a4  : Word
  a5  : Word
  a6  : Word
  a7  : Word
  a8  : Word
  a9  : Word
  a10 : Word
  deriving DecidableEq, Repr

/-- The oscillator engine's registers (10_state.md section 4, R40 to R51). -/
structure Osc where
  present         : Bool
  shape           : Shape
  sr              : Word
  phase           : Num32
  pulseWidth      : Num32
  dt              : Num32
  lastPhaseOffset : Num32
  freqHold        : Num32
  phoffHold       : Num32
  pwHold          : Num32
  spPending       : Bool
  spValue         : Num32
  deriving DecidableEq, Repr

/-- The reverberator engine's registers and delay lines (10_state.md section 5, R55 to R67). REV.diffCoeff is
hard-wired: `diffCoeff` of Machine/Params.lean (R62). -/
structure Rev where
  present      : Bool
  /-- The ten parameter registers (R57). -/
  par          : RevParams
  sr           : Word
  largestDelay : Num32
  alpha        : Num32
  len          : Four Nat
  tap          : Four Nat
  fdnGain      : Four Num32
  tapGain      : Four Num32
  diffSizeL    : Four Nat
  diffSizeR    : Four Nat
  inDamp       : Damper
  fdnDamp      : Four Damper
  tapLine      : DelayLine
  fdnLine      : Four DelayLine
  difL         : Four DelayLine
  difR         : Four DelayLine
  deriving DecidableEq, Repr

/-- What the outside world does to the hardware, one access of the host interface at a time (10_state.md
section 2), and power-on (70_reset_and_hazards.md R300, R301). CMD is write only, Q and STATUS are read only. -/
inductive HostAccess where
  /-- A write of CMD, which issues the command (R31). -/
  | writeCmd (w : Word)
  /-- A write of `A[i]` (R32). -/
  | writeA (i : Fin 11) (w : Word)
  /-- A read of `A[i]` (R32, R35). -/
  | readA (i : Fin 11)
  /-- A read of `Q[i]` (R33, R35). -/
  | readQ (i : Fin 2)
  /-- A read of STATUS (R34, R35). -/
  | readStatus
  /-- A read of CMD, which delivers no defined value (R31, 93 I13). -/
  | readCmd
  /-- Power-on reset (R300). -/
  | powerOn
  deriving DecidableEq, Repr

/-- The state. `a`, `q0`, `q1`, `status`, `osc` and `rev` are the spec's; the last three fields are the model's own:
the accesses the host has yet to make, the word its last read delivered, and the counter of the free values. -/
structure State where
  a         : Operands
  q0        : Word
  q1        : Word
  status    : Word
  osc       : Osc
  rev       : Rev
  host      : List HostAccess
  hostData  : Word
  freeCount : Nat
  deriving DecidableEq, Repr

/-- The reasons a step stops with a fault. There are none: the hardware takes no traps, and a rejected command ends
with a status (60_exceptions.md R277, R280). -/
inductive Fault where
  deriving DecidableEq, Repr

/-- The reasons a step is refused. -/
inductive Refusal where
  /-- Raised by an arm of `exec` whose command has no meaning in the model. Safe. No arm raises it: every command of
  the opcode table has its meaning. -/
  | notModelled (mnemonic : String)
  deriving DecidableEq, Repr

/-- The outcome of a command or of a step. -/
abbrev Result := Host.Outcome State Fault Refusal

/-! Reset values. R300 gives A, Q, STATUS and the present bits; it leaves every other register unspecified and
unreadable, and the model puts zero there (log entry 6). -/

/-- A delay line before its engine is constructed (log entry 6). -/
def DelayLine.blank : DelayLine := { size := 0, idx := 0, buf := [] }

/-- A damper before its engine is constructed (log entry 6). -/
def Damper.blank : Damper := { c := 0, s := 0 }

/-- Operand registers all zero (R300). -/
def Operands.zero : Operands :=
  { a0 := 0, a1 := 0, a2 := 0, a3 := 0, a4 := 0, a5 := 0, a6 := 0, a7 := 0, a8 := 0, a9 := 0, a10 := 0 }

/-- The empty OSC slot (R300; log entry 6 for all but `present`). -/
def Osc.blank : Osc :=
  { present := false, shape := .variableSaw, sr := 0, phase := 0, pulseWidth := 0, dt := 0
    lastPhaseOffset := 0, freqHold := 0, phoffHold := 0, pwHold := 0, spPending := false, spValue := 0 }

/-- The empty REV slot (R300; log entry 6 for all but `present`). -/
def Rev.blank : Rev :=
  { present := false
    par :=
      { maxsize := 0, size := 0, spread := 0, bw := 0, decay := 0, damp := 0
        dry := 0, early := 0, late := 0, wet := 0 }
    sr := 0, largestDelay := 0, alpha := 0
    len := .const 0, tap := .const 0, fdnGain := .const 0, tapGain := .const 0
    diffSizeL := .const 0, diffSizeR := .const 0
    inDamp := .blank, fdnDamp := .const .blank
    tapLine := .blank, fdnLine := .const .blank, difL := .const .blank, difR := .const .blank }

/-- Power-on reset (R300). The host has made no access yet. -/
def State.reset : State :=
  { a := .zero, q0 := 0, q1 := 0, status := 0, osc := .blank, rev := .blank
    host := [], hostData := 0, freeCount := 0 }

end Sys2Proof.Machine
end

