-- ==== Sys2Proof/Machine/Flags.lean ====
section
/-!
DEFINITION. The status codes, the only flags the hardware has besides the set-phase latch (10_state.md R34, R38;
60_exceptions.md R270), and the checks that decide them (R273).
-/

namespace Sys2Proof.Machine

open Sys2Proof F32

/-- The status codes (R270). Codes 7 to 15 are never written. -/
inductive StatusCode where
  | ok | illegal | noInstance | badShape | badParam | badArgs | alloc
  deriving DecidableEq, Repr

/-- The word a code writes into STATUS: the code in bits 3 to 0, zero above (R34, R270, R271). -/
def statusWord (c : StatusCode) : Word :=
  match c with
  | .ok => 0
  | .illegal => 1
  | .noInstance => 2
  | .badShape => 3
  | .badParam => 4
  | .badArgs => 5
  | .alloc => 6

/-- `ldMax`, the delay of the largest room the instance may be set to (R193). -/
def largestDelayOf (sr : Word) (size : Num32) : Num32 := div (mul (ofNat sr.toNat) size) num340

/-- CapacityOK(sr, maxsize) (R193). -/
def capacityOk (P : Params) (sr : Word) (maxsize : Num32) : Bool :=
  let ldMax := largestDelayOf sr maxsize
  isFinite ldMax && decide (roundHalfAway ldMax ≤ (P.fdnCap : Int))

end Sys2Proof.Machine
end

