-- ==== Sys2Proof/Machine/Operands.lean ====
section
/-!
DEFINITION. The operand forms: reading and writing the operand registers, a `num` operand, a `u32` operand, an
operand that a mask bit supplies (30_encoding.md R105, R106, R109; 10_state.md R32).
-/

namespace Sys2Proof.Machine

open Sys2Proof

/-- `A[k]` as 32 bits. -/
def readA (a : Operands) (k : Fin 11) : Word :=
  match k with
  | 0 => a.a0
  | 1 => a.a1
  | 2 => a.a2
  | 3 => a.a3
  | 4 => a.a4
  | 5 => a.a5
  | 6 => a.a6
  | 7 => a.a7
  | 8 => a.a8
  | 9 => a.a9
  | 10 => a.a10

/-- `A[k] <- w`, the host's write (R32, R35). -/
def writeA (a : Operands) (k : Fin 11) (w : Word) : Operands :=
  match k with
  | 0 => { a with a0 := w }
  | 1 => { a with a1 := w }
  | 2 => { a with a2 := w }
  | 3 => { a with a3 := w }
  | 4 => { a with a4 := w }
  | 5 => { a with a5 := w }
  | 6 => { a with a6 := w }
  | 7 => { a with a7 := w }
  | 8 => { a with a8 := w }
  | 9 => { a with a9 := w }
  | 10 => { a with a10 := w }

/-- `f(A[k])`: the bits are a binary32 value (00_scope.md section 4). -/
abbrev operandF (a : Operands) (k : Fin 11) : Num32 := readA a k

/-- `u(A[k])`: the bits are a `u32` (00_scope.md section 4). -/
abbrev operandU (a : Operands) (k : Fin 11) : Word := readA a k

/-- The operand if its mask bit supplies it, else the value kept for it (R105, R106). -/
def supplied (bit : Bool) (operand kept : Num32) : Num32 := if bit then operand else kept

/-- The raw parameters `P` of REV_INIT: operand k where PMASK bit k is set, else the default (42_rev_params.md
R190, R192). -/
def rawParams (P : Params) (pmask : BitVec 10) (a : Operands) : RevParams :=
  { maxsize := supplied (pmask.getLsbD 0) (operandF a 0) P.revDefaults.maxsize
    size := supplied (pmask.getLsbD 1) (operandF a 1) P.revDefaults.size
    spread := supplied (pmask.getLsbD 2) (operandF a 2) P.revDefaults.spread
    bw := supplied (pmask.getLsbD 3) (operandF a 3) P.revDefaults.bw
    decay := supplied (pmask.getLsbD 4) (operandF a 4) P.revDefaults.decay
    damp := supplied (pmask.getLsbD 5) (operandF a 5) P.revDefaults.damp
    dry := supplied (pmask.getLsbD 6) (operandF a 6) P.revDefaults.dry
    early := supplied (pmask.getLsbD 7) (operandF a 7) P.revDefaults.early
    late := supplied (pmask.getLsbD 8) (operandF a 8) P.revDefaults.late
    wet := supplied (pmask.getLsbD 9) (operandF a 9) P.revDefaults.wet }

/-- The SYNC input of a step: not held, 0.0 where the command does not supply it (41_osc_step.md R151, R152). -/
def syncInput (vmask : BitVec 4) (a : Operands) : Num32 :=
  supplied (vmask.getLsbD 3) (operandF a 3) F32.zero

/-- SelectInputs: each control stream from its operand or its hold register, and stored into the hold register
(R151). VMASK bit 2 is ignored by a shape without a pulse width (30_encoding.md R105). -/
def takeInputs (vmask : BitVec 4) (a : Operands) (o : Osc) : Osc :=
  { o with
    freqHold := supplied (vmask.getLsbD 0) (operandF a 0) o.freqHold
    phoffHold := supplied (vmask.getLsbD 1) (operandF a 1) o.phoffHold
    pwHold := supplied (vmask.getLsbD 2 && o.shape.usesPulseWidth) (operandF a 2) o.pwHold }

end Sys2Proof.Machine
end

