-- ==== Sys2Proof/Machine/Ops.lean ====
section
/-!
DEFINITION. The named operations over the delay RAMs (20_memory.md R83 to R87), the two filter primitives
(43_rev_process.md R240, R241), and how a command ends: with a status, either OK or the code of the first check that
fails (60_exceptions.md R271 to R273).

Ending with a status is this hardware's one way of taking an exception: nothing is saved, no mode changes and
control goes nowhere (R277). There is no return from it (R278).
-/

namespace Sys2Proof.Machine

open Sys2Proof F32

/-! ### The words of a delay RAM -/

namespace Memory

/-- The word at position `k`: +0.0 where none is listed. -/
def read (m : Memory) (k : Nat) : Num32 :=
  match m with
  | [] => zero
  | (j, v) :: t => if j = k then v else read t k

/-- `buf[k] <- v`, keeping the canonical form: writing +0.0 removes the entry. -/
def write (m : Memory) (k : Nat) (v : Num32) : Memory :=
  match m with
  | [] => if v = zero then [] else [(k, v)]
  | (j, u) :: t =>
    if k < j then (if v = zero then (j, u) :: t else (k, v) :: (j, u) :: t)
    else if j = k then (if v = zero then t else (k, v) :: t)
    else (j, u) :: write t k v

/-- The canonical form: positions strictly rising, no entry equal to +0.0. -/
def wf (m : Memory) : Bool :=
  match m with
  | [] => true
  | (j, v) :: t => v != zero && t.all (fun c => decide (j < c.1)) && wf t

end Memory

/-! ### Delay lines -/

/-- The line's form: a positive size, the index inside it, canonical words, all of them inside the size
(10_state.md R64). -/
def DelayLine.wf (L : DelayLine) : Bool :=
  decide (L.idx < L.size) && Memory.wf L.buf && L.buf.all (fun c => decide (c.1 < L.size))

/-- Every word of the line is finite, as every write leaves it (R84). -/
def DelayLine.finite (L : DelayLine) : Bool := L.buf.all (fun c => isFinite c.2)

/-- The position `DLRead(L, n)` reads: `(L.idx - n) mod L.size`, the mathematical modulus (R83, R19). A line of a
present engine has a positive size (10_state.md R64); what the expression gives for size 0 is log entry 13. -/
def readPosition (L : DelayLine) (n : Nat) : Nat := (((L.idx : Int) - (n : Int)) % (L.size : Int)).toNat

/-- `DLRead(L, n)` (R83). -/
def dlRead (L : DelayLine) (n : Nat) : Num32 := Memory.read L.buf (readPosition L n)

/-- `DLWrite(L, v)`: store the sanitized word at the index and advance it (R84). -/
def dlWrite (L : DelayLine) (v : Num32) : DelayLine :=
  { L with buf := Memory.write L.buf L.idx (sanitize v), idx := (L.idx + 1) % L.size }

/-- `DLRealloc(L, n)`: `n` words of +0.0, index 0; nothing of the old line survives (R85). -/
def dlRealloc (_L : DelayLine) (n : Nat) : DelayLine := { size := n, idx := 0, buf := [] }

/-- `DLClear(L)`: every word +0.0, index 0, the size kept (R86). -/
def dlClear (L : DelayLine) : DelayLine := { L with idx := 0, buf := [] }

/-! ### Filter primitives -/

/-- `Damp(D, x)`: the damper with its new state, and the output, which is that state (R240). -/
def damp (D : Damper) (x : Num32) : Damper × Num32 :=
  let y := add (mul x (sub one D.c)) (mul D.s D.c)
  ({ D with s := y }, y)

/-- `Diffuse(L, c, x)`: the allpass stage, with the sanitized word in its output (R241). -/
def diffuse (L : DelayLine) (c x : Num32) : DelayLine × Num32 :=
  let b := dlRead L L.size
  let w := sanitize (sub x (mul b c))
  let y := add b (mul w c)
  (dlWrite L w, y)

/-! ### How a command ends -/

/-- `raise Status(code)`: STATUS and nothing else changes (R271, R272). -/
def raiseStatus (c : StatusCode) (s : State) : Result := .next { s with status := statusWord c }

/-- The end of a command that completes: its state, and STATUS <- OK (R271). -/
def complete (s : State) : Result := .next { s with status := statusWord .ok }

/-- A command that needs an oscillator instance (R273 check 2, 10_state.md R40). -/
def requireOsc (s : State) (k : Result) : Result := if s.osc.present then k else raiseStatus .noInstance s

/-- A command that needs a reverberator instance (R273 check 2, 10_state.md R55). -/
def requireRev (s : State) (k : Result) : Result := if s.rev.present then k else raiseStatus .noInstance s

/-- A command of the reverberator that changes its state and completes. -/
def updateRev (s : State) (f : Rev → Rev) : Result := requireRev s (complete { s with rev := f s.rev })

end Sys2Proof.Machine
end

