-- ==== Sys2Proof/Machine/OscControl.lean ====
section
/-!
DEFINITION. The oscillator's control commands: OSC_INIT, OSC_SETPHASE, OSC_SETSR, OSC_DESTROY (40_osc_control.md R130
to R137).
-/

namespace Sys2Proof.Machine

open Sys2Proof F32

/-- The construction state of the oscillator (R131). -/
def oscConstruct (shape : Shape) (a : Operands) : Osc :=
  { present := true
    shape := shape
    sr := operandU a 3
    phase := wrap (operandF a 2)
    pulseWidth := if shape.usesPulseWidth then clamp (operandF a 1) num0_01 num0_99 else num0_5
    dt := zero
    lastPhaseOffset := zero
    freqHold := operandF a 0
    phoffHold := zero
    pwHold := if shape.usesPulseWidth then operandF a 1 else num0_5
    spPending := false
    spValue := zero }

/-- OSC_INIT (R130, R132; the checks in the order of R273). -/
def execOscInit (shape : Nat) (s : State) : Result :=
  match Shape.ofCode shape with
  | none => raiseStatus .badShape s
  | some sh =>
    if operandU s.a 3 = 0 then raiseStatus .badArgs s
    else complete { s with osc := oscConstruct sh s.a }

/-- OSC_SETPHASE: arm the latch; the phase is not written here (R134, R135). -/
def execOscSetPhase (s : State) : Result :=
  requireOsc s (complete { s with osc := { s.osc with spValue := operandF s.a 0, spPending := true } })

/-- OSC_SETSR (R136). -/
def execOscSetSr (s : State) : Result :=
  requireOsc s
    (if operandU s.a 0 = 0 then raiseStatus .badArgs s
     else complete { s with osc := { s.osc with sr := operandU s.a 0 } })

/-- OSC_DESTROY (R137). The other registers then have no value; the model leaves them as they were, and nothing
reads them (10_state.md R51; log entry 7). -/
def execOscDestroy (s : State) : Result :=
  requireOsc s (complete { s with osc := { s.osc with present := false } })

end Sys2Proof.Machine
end

