-- ==== Sys2Proof/Machine/OscStep.lean ====
section
/-!
DEFINITION. The oscillator's step (41_osc_step.md R150 to R159), one definition for each stage of its pseudocode.
-/

namespace Sys2Proof.Machine

open Sys2Proof F32

/-- The one-shot phase set, consumed once and then cleared (R153). -/
def consumeLatch (o : Osc) : Osc :=
  if o.spPending then { o with phase := wrap o.spValue, spPending := false } else o

/-- The pulse width of this step, clamped; not written for a shape without one (R154). `pwIn` is what SelectInputs
stored into the hold register. -/
def clampPulse (o : Osc) : Osc :=
  if o.shape.usesPulseWidth then { o with pulseWidth := clamp o.pwHold num0_01 num0_99 } else o

/-- PhaseIncrement (R155). -/
def phaseIncrement (freq : Num32) (sr : Word) : Num32 :=
  let dt := div (F32.abs freq) (ofNat sr.toNat)
  if isFinite dt then dt else zero

/-- The sync test, false for a NaN (R156). -/
def syncActive (sync : Num32) : Bool := lt zero sync && le sync one

/-- The modulation delta of steps 2 and 3 (R157). -/
def phaseDelta (phoff last : Num32) : Num32 :=
  let delta := sub phoff last
  if isFinite delta then (if le one (F32.abs delta) then fmodOne delta else delta) else zero

/-- Steps 1 to 3: a hard sync, or the phase modulation (R156, R157). -/
def movePhase (sync : Num32) (o : Osc) : Osc :=
  { o with
    phase :=
      if syncActive sync then wrap sync
      else wrap (add o.phase (phaseDelta o.phoffHold o.lastPhaseOffset)) }

/-- The step up to the point where the output is taken (R150, R158): inputs, latch, pulse width, increment, steps 1
to 3. -/
def beforeOutput (vmask : BitVec 4) (a : Operands) (o : Osc) : Osc :=
  let o := clampPulse (consumeLatch (takeInputs vmask a o))
  movePhase (syncInput vmask a) { o with dt := phaseIncrement o.freqHold o.sr }

/-- Steps 4 and 5: the increment and the stored offset (R159). -/
def afterOutput (o : Osc) : Osc :=
  { o with phase := wrap (add o.phase o.dt), lastPhaseOffset := o.phoffHold }

/-- The output sample, from the phase after steps 1 to 3 (R158). -/
def outputSample (P : Params) (o : Osc) : Num32 := wave P o.shape o.phase o.dt o.pulseWidth

/-- OSC_STEP with the parameters `P` (R150). -/
def oscStepWith (P : Params) (vmask : BitVec 4) (s : State) : Result :=
  let o := beforeOutput vmask s.a s.osc
  requireOsc s (complete { s with osc := afterOutput o, q0 := outputSample P o })

/-- OSC_STEP (R150). -/
def execOscStep (vmask : BitVec 4) (s : State) : Result := oscStepWith params vmask s

end Sys2Proof.Machine
end

