-- ==== Sys2Proof/Machine/RevDerive.lean ====
section
/-!
DEFINITION. The reverberator's derivations and construction (42_rev_params.md R191, R194 to R199). A derivation
reads the parameter registers and writes the registers derived from them; which command runs which is R198.
-/

namespace Sys2Proof.Machine

open Sys2Proof F32

/-- `clamp(x, 0.0, 1.0)`, the clamp of eight of the parameters (R191). -/
def clampUnit (x : Num32) : Num32 := clamp x zero one

/-- The clamp of size against a maxsize (R191). -/
def clampSize (x maxsize : Num32) : Num32 := clamp x num0_1 maxsize

/-- The clamp of decay (R191). -/
def clampDecay (x : Num32) : Num32 := clamp x num0_001 num3600

/-- ClampAll: each parameter by itself, size against the clamped maxsize of the same command (R191). -/
def clampAll (p : RevParams) : RevParams :=
  let maxsize := clamp p.maxsize num0_1 numInf
  { maxsize := maxsize
    size := clampSize p.size maxsize
    spread := clampUnit p.spread
    bw := clampUnit p.bw
    decay := clampDecay p.decay
    damp := clampUnit p.damp
    dry := clampUnit p.dry
    early := clampUnit p.early
    late := clampUnit p.late
    wet := clampUnit p.wet }

/-- The decay base for a sample rate and decay time (R194). -/
def alphaOf (P : Params) (sr : Word) (decay : Num32) : Num32 :=
  P.pow num0_001 (div one (mul (ofNat sr.toNat) decay))

/-- The length of a branch (R195), held as a natural number (log entry 14). -/
def lenOf (largestDelay ratio : Num32) : Nat := (max 1 (roundHalfAway (mul largestDelay ratio))).toNat

/-- The offset of a tap (R195), held as a natural number (log entry 14). -/
def tapOf (largestDelay ratio : Num32) : Nat := (5 + roundHalfAway (mul largestDelay ratio)).toNat

/-- The gain of a branch (R196). -/
def fdnGainOf (P : Params) (alpha : Num32) (len : Nat) : Num32 := neg (P.pow alpha (ofNat len))

/-- The gain of a tap (R196). -/
def tapGainOf (P : Params) (alpha : Num32) (tap : Nat) : Num32 := P.pow alpha (ofNat tap)

/-- The parts of one side's diffusers: `[210, 159 + a1, 562 + a2 - a1, 410 - a2]` (R197). -/
def diffParts (spread r1 r2 : Num32) : Four Int :=
  let a1 := trunc (mul (mul num100 spread) r1)
  let a2 := trunc (mul (mul num300 spread) r2)
  ⟨210, 159 + a1, 562 + a2 - a1, 410 - a2⟩

/-- The sizes of one side's diffusers, for the length of branch 3 (R197). -/
def diffSizes (len3 : Nat) (spread r1 r2 : Num32) : Four Nat :=
  let ds := div (ofNat len3) num1341
  (diffParts spread r1 r2).map (fun part => (max 1 (trunc (mul ds (ofInt part)))).toNat)

/-- DeriveAlpha (R194). -/
def deriveAlpha (P : Params) (r : Rev) : Rev := { r with alpha := alphaOf P r.sr r.par.decay }

/-- DeriveGains (R196). -/
def deriveGains (P : Params) (r : Rev) : Rev :=
  { r with fdnGain := r.len.map (fdnGainOf P r.alpha), tapGain := r.tap.map (tapGainOf P r.alpha) }

/-- DeriveDiffusers (R197). -/
def deriveDiffusers (P : Params) (r : Rev) : Rev :=
  let sizeL := diffSizes r.len.i3 r.par.spread P.diffR.rL1 P.diffR.rL2
  let sizeR := diffSizes r.len.i3 r.par.spread P.diffR.rR1 P.diffR.rR2
  { r with
    diffSizeL := sizeL
    difL := r.difL.zipWith dlRealloc sizeL
    diffSizeR := sizeR
    difR := r.difR.zipWith dlRealloc sizeR }

/-- DeriveSize: the room geometry, the gains, the FDN lines, the diffusers (R195). -/
def deriveSize (P : Params) (r : Rev) : Rev :=
  let ld := largestDelayOf r.sr r.par.size
  let r := { r with largestDelay := ld, len := lenRatio.map (lenOf ld), tap := tapRatio.map (tapOf ld) }
  let r := deriveGains P r
  let r := { r with fdnLine := r.fdnLine.zipWith dlRealloc r.len }
  deriveDiffusers P r

/-- The construction state of the reverberator (R199). It is built from the empty slot: every register is written,
nothing of a previous instance survives. -/
def revConstruct (P : Params) (c : RevParams) (sr : Word) : Rev :=
  let r : Rev :=
    { Rev.blank with
      present := true
      sr := sr
      par := c
      inDamp := { c := sub one c.bw, s := zero }
      fdnDamp := .const { c := c.damp, s := zero }
      tapLine := { size := tapSize, idx := 0, buf := [] } }
  deriveSize P (deriveAlpha P r)

end Sys2Proof.Machine
end

