-- ==== Sys2Proof/Machine/RevParams.lean ====
section
/-!
DEFINITION. The reverberator's construction and parameter commands (42_rev_params.md R190, R200 to R212). A
command that depends on the implementation parameters is its `…With` form, which takes any, at the hardware's
`params`.
-/

namespace Sys2Proof.Machine

open Sys2Proof F32

/-- REV_INIT with the parameters `P` (R190; the checks in the order of R273). -/
def revInitWith (P : Params) (pmask : BitVec 10) (xmask : Nat) (s : State) : Result :=
  if xmask ≠ 0 then raiseStatus .badParam s
  else if operandU s.a 10 = 0 then raiseStatus .badArgs s
  else
    let c := clampAll (rawParams P pmask s.a)
    if capacityOk P (operandU s.a 10) c.maxsize then
      complete { s with rev := revConstruct P c (operandU s.a 10) }
    else raiseStatus .alloc s

/-- REV_INIT (R190). -/
def execRevInit (pmask : BitVec 10) (xmask : Nat) (s : State) : Result := revInitWith params pmask xmask s

/-- REV_SETSR with the parameters `P` (R209; the checks in the order of R273). -/
def revSetSrWith (P : Params) (s : State) : Result :=
  requireRev s
    (if operandU s.a 0 = 0 then raiseStatus .badArgs s
     else if capacityOk P (operandU s.a 0) s.rev.par.maxsize then
       complete { s with rev := deriveSize P (deriveAlpha P { s.rev with sr := operandU s.a 0 }) }
     else raiseStatus .alloc s)

/-- REV_SETSR (R209). -/
def execRevSetSr (s : State) : Result := revSetSrWith params s

/-- REV_DESTROY (R210). The other registers then have no value; the model leaves them as they were, and nothing
reads them (10_state.md R69; log entry 7). -/
def execRevDestroy (s : State) : Result := updateRev s (fun r => { r with present := false })

/-- A setter: change the parameter registers with f(A[0]) (42_rev_params.md section 3). -/
def setParam (f : RevParams → Num32 → RevParams) (s : State) (r : Rev) : Rev :=
  { r with par := f r.par (operandF s.a 0) }

/-- REV_SPREAD with the parameters `P`: the diffuser lines are reallocated, changed value or not (R208, R211). -/
def revSpreadWith (P : Params) (s : State) : Result :=
  updateRev s (fun r => deriveDiffusers P (setParam (fun p x => { p with spread := clampUnit x }) s r))

/-- REV_SPREAD (R208). -/
def execRevSpread (s : State) : Result := revSpreadWith params s

/-- REV_SIZE with the parameters `P`: the FDN and diffuser lines are reallocated, changed value or not (R200, R211). -/
def revSizeWith (P : Params) (s : State) : Result :=
  updateRev s (fun r => deriveSize P (setParam (fun p x => { p with size := clampSize x p.maxsize }) s r))

/-- REV_SIZE (R200). -/
def execRevSize (s : State) : Result := revSizeWith params s

/-- REV_DECAY with the parameters `P` (R201). -/
def revDecayWith (P : Params) (s : State) : Result :=
  updateRev s (fun r => deriveGains P (deriveAlpha P (setParam (fun p x => { p with decay := clampDecay x }) s r)))

/-- REV_DECAY (R201). -/
def execRevDecay (s : State) : Result := revDecayWith params s

/-- Every branch damper's coefficient becomes `damp`; the states are kept (R202). -/
def setFdnDamp (r : Rev) : Rev := { r with fdnDamp := r.fdnDamp.map (fun D => { D with c := r.par.damp }) }

/-- REV_DAMP (R202). -/
def execRevDamp (s : State) : Result :=
  updateRev s (fun r => setFdnDamp (setParam (fun p x => { p with damp := clampUnit x }) s r))

/-- The input damper's coefficient becomes `1 - bw`; the state is kept (R203). -/
def setInDamp (r : Rev) : Rev := { r with inDamp := { r.inDamp with c := sub one r.par.bw } }

/-- REV_BW (R203). -/
def execRevBw (s : State) : Result :=
  updateRev s (fun r => setInDamp (setParam (fun p x => { p with bw := clampUnit x }) s r))

/-- REV_DRY (R204). -/
def execRevDry (s : State) : Result := updateRev s (setParam (fun p x => { p with dry := clampUnit x }) s)

/-- REV_WET (R205). -/
def execRevWet (s : State) : Result := updateRev s (setParam (fun p x => { p with wet := clampUnit x }) s)

/-- REV_EARLY (R206). -/
def execRevEarly (s : State) : Result := updateRev s (setParam (fun p x => { p with early := clampUnit x }) s)

/-- REV_LATE (R207). -/
def execRevLate (s : State) : Result := updateRev s (setParam (fun p x => { p with late := clampUnit x }) s)

end Sys2Proof.Machine
end

