-- ==== Sys2Proof/Machine/RevProcess.lean ====
section
/-!
DEFINITION. The reverberator's signal path and its two maintenance commands (43_rev_process.md R242 to R254), one
definition for each of the source's nine steps. The per-sample vectors are temporaries, not state (10_state.md
R66).
-/

namespace Sys2Proof.Machine

open Sys2Proof F32

/-- Step 1: a non-finite input, or one beyond 100000 in magnitude, is zeroed (R243). -/
def gateInput (x : Num32) : Num32 := if !isFinite x || lt num100000 (F32.abs x) then zero else x

/-- Step 4: the four tap values, all read before the write (R246). -/
def tapValues (r : Rev) : Four Num32 :=
  r.tapGain.zipWith mul (r.tap.map (dlRead r.tapLine))

/-- What step 5 reads from the FDN lines: each at its branch length (R247). -/
def fdnReads (r : Rev) : Four Num32 := r.fdnLine.zipWith dlRead r.len

/-- Step 5: the dampers after it, and the vector d (R247). -/
def branchOutputs (r : Rev) : Four (Damper × Num32) :=
  r.fdnDamp.zipWith damp (r.fdnGain.zipWith mul (fdnReads r))

/-- Step 6: the alternating sum with the direct early term (R248). -/
def mixSum (late early x : Num32) (d u : Four Num32) : Num32 :=
  let t := d.zipWith (fun di ui => add (mul late di) (mul early ui)) u
  let sum := add zero t.i0
  let sum := sub sum t.i1
  let sum := add sum t.i2
  let sum := sub sum t.i3
  add sum (mul x early)

/-- Step 7: the feedback vector f (R249). -/
def feedback (d : Four Num32) : Four Num32 :=
  { i0 := mul num0_5 (sub (sub (add d.i0 d.i1) d.i2) d.i3)
    i1 := mul num0_5 (add (sub (sub d.i0 d.i1) d.i2) d.i3)
    i2 := mul num0_5 (add (sub (add (neg d.i0) d.i1) d.i2) d.i3)
    i3 := mul num0_5 (add (add (add d.i0 d.i1) d.i2) d.i3) }

/-- Step 8: stages 1, 2 and 3 of one cascade, in that order (R250). -/
def cascade (dif : Four DelayLine) (x : Num32) : Four DelayLine × Num32 :=
  let s1 := diffuse dif.i1 diffCoeff.i1 x
  let s2 := diffuse dif.i2 diffCoeff.i2 s1.2
  let s3 := diffuse dif.i3 diffCoeff.i3 s2.2
  ({ dif with i1 := s1.1, i2 := s2.1, i3 := s3.1 }, s3.2)

/-- The whole signal path for one input sample: the engine after it and the left and right outputs (R242). -/
def processSample (r : Rev) (input : Num32) : Rev × Num32 × Num32 :=
  let x := gateInput input
  let z := damp r.inDamp x
  let stage0 := diffuse r.difL.i0 diffCoeff.i0 z.2
  let u := tapValues r
  let branches := branchOutputs r
  let d := branches.map (fun b => b.2)
  let sum := mixSum r.par.late r.par.early x d u
  let left := cascade { r.difL with i0 := stage0.1 } sum
  let right := cascade r.difR sum
  let rev' : Rev :=
    { r with
      inDamp := z.1
      tapLine := dlWrite r.tapLine stage0.2
      fdnDamp := branches.map (fun b => b.1)
      fdnLine := r.fdnLine.zipWith dlWrite (u.zipWith add (feedback d))
      difL := left.1
      difR := right.1 }
  (rev', add (mul x r.par.dry) (mul left.2 r.par.wet), add (mul x r.par.dry) (mul right.2 r.par.wet))

/-- REV_PROCESS (R242): Q[0] is the left output, Q[1] the right one (R251, 30_encoding.md R110). -/
def execRevProcess (s : State) : Result :=
  let out := processSample s.rev (operandF s.a 0)
  requireRev s (complete { s with rev := out.1, q0 := out.2.1, q1 := out.2.2 })

/-- The signal state zeroed, the parameters kept (R253). -/
def clearSignal (r : Rev) : Rev :=
  { r with
    tapLine := dlClear r.tapLine
    fdnLine := r.fdnLine.map dlClear
    difL := r.difL.map dlClear
    difR := r.difR.map dlClear
    inDamp := { r.inDamp with s := zero }
    fdnDamp := r.fdnDamp.map (fun D => { D with s := zero }) }

/-- REV_CLEAR (R253). -/
def execRevClear (s : State) : Result := updateRev s clearSignal

/-- REV_PRINT: its only architectural effect is STATUS (R254; log entry 10). -/
def execRevPrint (s : State) : Result := updateRev s id

end Sys2Proof.Machine
end

