-- ==== Sys2Proof/Syntax.lean ====
section
/-!
DEFINITION. The twenty commands of spec/opcode_table.json, one constructor a row, with the fields that
30_encoding.md R104 to R106 give three of them. Operands are no part of a command: they stand in the operand
registers (R100, R109).
-/

namespace Sys2Proof

/-- A decoded command. SHAPE and XMASK are codes, so they are numbers that `WellFormed` bounds; VMASK and PMASK
are sets of bits. -/
inductive Instr where
  /-- OSC_INIT with SHAPE = CMD[11:8] (R104, R130). -/
  | oscInit (shape : Nat)
  /-- OSC_STEP with VMASK = CMD[11:8] (R105, R150). -/
  | oscStep (vmask : BitVec 4)
  /-- OSC_SETPHASE (R134). -/
  | oscSetPhase
  /-- OSC_SETSR (R136). -/
  | oscSetSr
  /-- OSC_DESTROY (R137). -/
  | oscDestroy
  /-- REV_INIT with PMASK = CMD[17:8] and XMASK = CMD[19:18] (R106, R190). -/
  | revInit (pmask : BitVec 10) (xmask : Nat)
  /-- REV_PROCESS (R242). -/
  | revProcess
  /-- REV_SETSR (R209). -/
  | revSetSr
  /-- REV_DESTROY (R210). -/
  | revDestroy
  /-- REV_SPREAD (R208). -/
  | revSpread
  /-- REV_SIZE (R200). -/
  | revSize
  /-- REV_DECAY (R201). -/
  | revDecay
  /-- REV_DAMP (R202). -/
  | revDamp
  /-- REV_BW (R203). -/
  | revBw
  /-- REV_DRY (R204). -/
  | revDry
  /-- REV_WET (R205). -/
  | revWet
  /-- REV_EARLY (R206). -/
  | revEarly
  /-- REV_LATE (R207). -/
  | revLate
  /-- REV_CLEAR (R253). -/
  | revClear
  /-- REV_PRINT (R254). -/
  | revPrint
  deriving DecidableEq, Repr

end Sys2Proof
end

