-- ==== Sys2Proof/Machine/Dispatch.lean ====
section
/-! DEFINITION. What each command does, one arm per constructor of Instr. -/

namespace Sys2Proof.Machine

open Sys2Proof

def exec (i : Instr) (s : State) : Host.Outcome State Fault Refusal :=
  match i with
  | .oscInit shape => Sys2Proof.Machine.execOscInit shape s
  | .oscStep vmask => Sys2Proof.Machine.execOscStep vmask s
  | .oscSetPhase => Sys2Proof.Machine.execOscSetPhase s
  | .oscSetSr => Sys2Proof.Machine.execOscSetSr s
  | .oscDestroy => Sys2Proof.Machine.execOscDestroy s
  | .revInit pmask xmask => Sys2Proof.Machine.execRevInit pmask xmask s
  | .revProcess => Sys2Proof.Machine.execRevProcess s
  | .revSetSr => Sys2Proof.Machine.execRevSetSr s
  | .revDestroy => Sys2Proof.Machine.execRevDestroy s
  | .revSpread => Sys2Proof.Machine.execRevSpread s
  | .revSize => Sys2Proof.Machine.execRevSize s
  | .revDecay => Sys2Proof.Machine.execRevDecay s
  | .revDamp => Sys2Proof.Machine.execRevDamp s
  | .revBw => Sys2Proof.Machine.execRevBw s
  | .revDry => Sys2Proof.Machine.execRevDry s
  | .revWet => Sys2Proof.Machine.execRevWet s
  | .revEarly => Sys2Proof.Machine.execRevEarly s
  | .revLate => Sys2Proof.Machine.execRevLate s
  | .revClear => Sys2Proof.Machine.execRevClear s
  | .revPrint => Sys2Proof.Machine.execRevPrint s

end Sys2Proof.Machine
end

