-- ==== Sys2Proof/WellFormed.lean ====
section
/-!
DEFINITION. Which commands have an encoding: the codes fit their fields (30_encoding.md R104, R106). SHAPE 5 to 15
and XMASK 1 to 3 are legal encodings (R113), so they are well formed here and rejected by the command's meaning.
-/

namespace Sys2Proof

/-- The command's fields fit the command word. -/
def Instr.wellFormed : Instr → Bool
  | .oscInit shape => decide (shape < 16)
  | .revInit _ xmask => decide (xmask < 4)
  | .oscStep _ | .oscSetPhase | .oscSetSr | .oscDestroy
  | .revProcess | .revSetSr | .revDestroy | .revSpread | .revSize | .revDecay | .revDamp | .revBw
  | .revDry | .revWet | .revEarly | .revLate | .revClear | .revPrint => true

end Sys2Proof
end

