-- ==== Sys2Proof/Decode.lean ====
section
/-!
DEFINITION. The decoder of 30_encoding.md R111, total on every 32-bit word, and the encoder of the opcode map
(30_encoding.md section 3). Decoding depends on the word alone (R115). An illegal word is rejected by name; the
hardware answers every one of them with status ILLEGAL (R112).
-/

namespace Sys2Proof

/-- UNIT = CMD[31:28] (R101). -/
def fieldUnit (w : Word) : BitVec 4 := w.extractLsb' 28 4

/-- RSV = CMD[27:20] (R102). -/
def fieldRsv (w : Word) : BitVec 8 := w.extractLsb' 20 8

/-- FIELD = CMD[19:8]. -/
def fieldField (w : Word) : BitVec 12 := w.extractLsb' 8 12

/-- OP = CMD[7:0] (R103). -/
def fieldOp (w : Word) : BitVec 8 := w.extractLsb' 0 8

/-- CMD[19:12], zero in OSC_INIT and OSC_STEP (R104, R105). -/
def fieldZero (w : Word) : BitVec 8 := w.extractLsb' 12 8

/-- CMD[11:8], SHAPE of OSC_INIT and VMASK of OSC_STEP (R104, R105). -/
def fieldNibble (w : Word) : BitVec 4 := w.extractLsb' 8 4

/-- PMASK = CMD[17:8] (R106). -/
def fieldPmask (w : Word) : BitVec 10 := w.extractLsb' 8 10

/-- XMASK = CMD[19:18] (R106). -/
def fieldXmask (w : Word) : BitVec 2 := w.extractLsb' 18 2

/-- Why a word is an illegal encoding (R112). -/
inductive Illegal where
  /-- UNIT selects no engine. -/
  | unit
  /-- RSV is not zero. -/
  | rsv
  /-- OP is not in the opcode map of the unit. -/
  | op
  /-- CMD[19:12] is not zero in OSC_INIT or OSC_STEP. -/
  | zero
  /-- FIELD is not zero in a command that has none. -/
  | field
  deriving DecidableEq, Repr

/-- The commands of the opcode map that have no field (R107), by unit and operation; the three that have one are
not here. -/
def plainOp (unit : BitVec 4) (op : BitVec 8) : Option Instr :=
  match unit.toNat, op.toNat with
  | 0x1, 0x03 => some .oscSetPhase
  | 0x1, 0x04 => some .oscSetSr
  | 0x1, 0x0F => some .oscDestroy
  | 0x2, 0x02 => some .revProcess
  | 0x2, 0x04 => some .revSetSr
  | 0x2, 0x0F => some .revDestroy
  | 0x2, 0x10 => some .revSpread
  | 0x2, 0x11 => some .revSize
  | 0x2, 0x12 => some .revDecay
  | 0x2, 0x13 => some .revDamp
  | 0x2, 0x14 => some .revBw
  | 0x2, 0x15 => some .revDry
  | 0x2, 0x16 => some .revWet
  | 0x2, 0x17 => some .revEarly
  | 0x2, 0x18 => some .revLate
  | 0x2, 0x20 => some .revClear
  | 0x2, 0x21 => some .revPrint
  | _, _ => none

/-- The decoder of R111. -/
def decode (w : Word) : Except Illegal Instr :=
  if fieldUnit w ≠ 0x1 ∧ fieldUnit w ≠ 0x2 then .error .unit
  else if fieldRsv w ≠ 0 then .error .rsv
  else if fieldUnit w = 0x1 ∧ fieldOp w = 0x01 then
    if fieldZero w ≠ 0 then .error .zero else .ok (.oscInit (fieldNibble w).toNat)
  else if fieldUnit w = 0x1 ∧ fieldOp w = 0x02 then
    if fieldZero w ≠ 0 then .error .zero else .ok (.oscStep (fieldNibble w))
  else if fieldUnit w = 0x2 ∧ fieldOp w = 0x01 then
    .ok (.revInit (fieldPmask w) (fieldXmask w).toNat)
  else
    match plainOp (fieldUnit w) (fieldOp w) with
    | none => .error .op
    | some i => if fieldField w ≠ 0 then .error .field else .ok i

/-- A command word from its parts: UNIT, RSV = 0, FIELD, OP (30_encoding.md section 1). -/
def commandWord (unit : BitVec 4) (field : BitVec 12) (op : BitVec 8) : Word :=
  unit ++ (0 : BitVec 8) ++ field ++ op

/-- The word of a command, by the opcode map (30_encoding.md section 3) and R104 to R107. -/
def encode : Instr → Word
  | .oscInit shape => commandWord 0x1 ((0 : BitVec 8) ++ BitVec.ofNat 4 shape) 0x01
  | .oscStep vmask => commandWord 0x1 ((0 : BitVec 8) ++ vmask) 0x02
  | .oscSetPhase => commandWord 0x1 0 0x03
  | .oscSetSr => commandWord 0x1 0 0x04
  | .oscDestroy => commandWord 0x1 0 0x0F
  | .revInit pmask xmask => commandWord 0x2 (BitVec.ofNat 2 xmask ++ pmask) 0x01
  | .revProcess => commandWord 0x2 0 0x02
  | .revSetSr => commandWord 0x2 0 0x04
  | .revDestroy => commandWord 0x2 0 0x0F
  | .revSpread => commandWord 0x2 0 0x10
  | .revSize => commandWord 0x2 0 0x11
  | .revDecay => commandWord 0x2 0 0x12
  | .revDamp => commandWord 0x2 0 0x13
  | .revBw => commandWord 0x2 0 0x14
  | .revDry => commandWord 0x2 0 0x15
  | .revWet => commandWord 0x2 0 0x16
  | .revEarly => commandWord 0x2 0 0x17
  | .revLate => commandWord 0x2 0 0x18
  | .revClear => commandWord 0x2 0 0x20
  | .revPrint => commandWord 0x2 0 0x21

/-- The command word the table's numbering gives: `w` of `nbits` bits, every higher bit 0. The hardware has one
word of 32 bits and no byte access (R88, R100), so bit 0 of the table is bit 0 of CMD. -/
def tableWord (nbits w : Nat) : Word := BitVec.ofNat 32 (w % 2 ^ nbits)

/-- What the decoder reads from a word numbered as spec/opcode_table.json numbers it. -/
def decodeTableWord (nbits w : Nat) : Option Instr :=
  match decode (tableWord nbits w) with
  | .ok i => some i
  | .error _ => none

end Sys2Proof
end

