-- ==== Sys2Proof/Machine/HostPort.lean ====
section
/-!
DEFINITION. The host interface: what one access of the host does (10_state.md R31 to R35; 60_exceptions.md R273;
70_reset_and_hazards.md R300). The hardware has no program counter and fetches nothing (R37, R96): a write of CMD is
what issues a command. `run` is what a command does, so that one port serves the hardware's own parameters (Step.lean)
and any others (AnyParams.lean).
-/

namespace Sys2Proof.Machine

open Sys2Proof

/-- A write of CMD: decode the word, and run the command or end with ILLEGAL (R31, R273 check 1, 30_encoding.md
R111). -/
def issue (run : Instr → State → Result) (w : Word) (s : State) : Result :=
  match decode w with
  | .ok i => run i s
  | .error _ => raiseStatus .illegal s

/-- The host's read delivers a word and changes nothing of the hardware (R35). -/
def deliver (w : Word) (s : State) : State := { s with hostData := w }

/-- Power-on: every field of the hardware at its reset value (R300). It leaves the model's own fields, which are the
host's side and no state of the hardware (log entry 15). -/
def powerOn (s : State) : State :=
  { State.reset with host := s.host, hostData := s.hostData, freeCount := s.freeCount }

/-- One access of the host, already taken off the list of those to come (log entry 8). -/
def access (run : Instr → State → Result) (h : HostAccess) (s : State) : Result :=
  match h with
  | .writeCmd w => issue run w s
  | .writeA i w => .next { s with a := writeA s.a i w }
  | .readA i => .next (deliver (readA s.a i) s)
  | .readQ i => .next (deliver (if i = 0 then s.q0 else s.q1) s)
  | .readStatus => .next (deliver s.status s)
  | .readCmd => .next { deliver (Config.cmdReadFree s.freeCount) s with freeCount := s.freeCount + 1 }
  | .powerOn => .next (powerOn s)

/-- The host's next access (20_memory.md R89, R93), or nothing when the host makes none: between accesses the
hardware holds its state (60_exceptions.md R286). -/
def nextAccess (run : Instr → State → Result) (s : State) : Result :=
  match s.host with
  | [] => .next s
  | h :: rest => access run h { s with host := rest }

end Sys2Proof.Machine
end

