-- ==== Sys2Proof/Machine/Step.lean ====
section
/-!
DEFINITION. One step: the host's next access, with the meanings of the hardware's commands (20_memory.md R89, R93;
70_reset_and_hazards.md R310).
-/

namespace Sys2Proof.Machine

open Sys2Proof

/-- The host's accesses take effect one at a time in their order (R93). -/
def step (s : State) : Host.Outcome State Fault Refusal := nextAccess exec s

/-- The state in which the host's next access writes the table's word to CMD (log entry 11). -/
def State.withFetchWord (s : State) (nbits w : Nat) : State :=
  { s with host := .writeCmd (tableWord nbits w) :: s.host }

end Sys2Proof.Machine
end

