-- ==== Sys2Proof/Machine/AnyParams.lean ====
section
/-!
DEFINITION. The hardware with any implementation parameters, which a model takes as an argument (00_scope.md
section 3, R18; 41_osc_step.md R160, R162, R170; 42_rev_params.md R192, R193, R197). The hardware's own `exec` and
`step` are these at `params` (Laws/Exec.lean).
-/

namespace Sys2Proof.Machine

open Sys2Proof F32

/-- Every spread constant has magnitude at most 1, as R197 asks of a DIFF_R. -/
def diffRAdmissible (d : DiffR) : Prop :=
  le (F32.abs d.rL1) one = true ∧ le (F32.abs d.rL2) one = true ∧ le (F32.abs d.rR1) one = true ∧
  le (F32.abs d.rR2) one = true

/-- A command's meaning with the parameters `P`. A command without them is its one meaning. -/
def execWith (P : Params) (i : Instr) (s : State) : Result :=
  match i with
  | .oscStep vmask => oscStepWith P vmask s
  | .revInit pmask xmask => revInitWith P pmask xmask s
  | .revSetSr => revSetSrWith P s
  | .revSpread => revSpreadWith P s
  | .revSize => revSizeWith P s
  | .revDecay => revDecayWith P s
  | .oscInit _ | .oscSetPhase | .oscSetSr | .oscDestroy | .revProcess | .revDestroy | .revDamp | .revBw | .revDry
  | .revWet | .revEarly | .revLate | .revClear | .revPrint => exec i s

/-- A step with the parameters `P`. -/
def stepWith (P : Params) (s : State) : Result := nextAccess (execWith P) s

end Sys2Proof.Machine
end

