-- ==== Sys2Proof/Safety.lean ====
section
/-!
DEFINITION. The terms the statements use: how a result is changed, the legal ranges of the registers (10_state.md
sections 4 and 5), the consistency of the derived registers with their parameters (42_rev_params.md R194 to R199),
the form of the delay lines (10_state.md R64, R65), and the invariant made of them.
-/

namespace Sys2Proof.Machine

open Sys2Proof F32

/-- A change applied to the next state, where there is one. -/
def onNext (f : State → State) (r : Result) : Result :=
  match r with
  | .next s => .next (f s)
  | .fault e => .fault e
  | .refused e => .refused e

/-- The command goes to the oscillator engine (UNIT 0x1). -/
def isOscCommand (i : Instr) : Bool :=
  match i with
  | .oscInit _ | .oscStep _ | .oscSetPhase | .oscSetSr | .oscDestroy => true
  | .revInit _ _ | .revProcess | .revSetSr | .revDestroy | .revSpread | .revSize | .revDecay | .revDamp
  | .revBw | .revDry | .revWet | .revEarly | .revLate | .revClear | .revPrint => false

/-- The command constructs an instance: OSC_INIT, REV_INIT. -/
def isInit (i : Instr) : Bool :=
  match i with
  | .oscInit _ | .revInit _ _ => true
  | .oscStep _ | .oscSetPhase | .oscSetSr | .oscDestroy
  | .revProcess | .revSetSr | .revDestroy | .revSpread | .revSize | .revDecay | .revDamp
  | .revBw | .revDry | .revWet | .revEarly | .revLate | .revClear | .revPrint => false

/-- The engine a command addresses holds an instance (R40, R55). -/
def addresseePresent (i : Instr) (s : State) : Bool :=
  if isOscCommand i then s.osc.present else s.rev.present

/-- A phase in [0,1) (10_state.md R43). -/
abbrev InPhaseRange (x : Num32) : Prop := le zero x = true ∧ lt x one = true

/-- What lies at or above this many units of 2^-149 in magnitude rounds to an infinity: the midpoint of the greatest
finite value and 2^128 (00_scope.md R9). -/
def overflowUnits : Nat := (2 ^ 25 - 1) * 2 ^ 252

/-- `y` is the finite NUM value nearest to n / d units of 2^-149, the even one of two that are equally near
(00_scope.md R8). -/
abbrev NearestEven (y : Num32) (n : Int) (d : Nat) : Prop :=
  isFinite y = true ∧ ∀ z : Num32, isFinite z = true →
    (fix y * d - n).natAbs ≤ (fix z * d - n).natAbs ∧
    ((fix y * d - n).natAbs = (fix z * d - n).natAbs → fix z ≠ fix y → y.toNat % 2 = 0)

/-- `y` is n / d units of 2^-149 rounded to NUM: the nearest value, or an infinity on overflow (R8, R9). -/
abbrev RoundedTo (y : Num32) (n : Int) (d : Nat) : Prop :=
  (n.natAbs < overflowUnits * d → NearestEven y n d) ∧
  (overflowUnits * d ≤ n.natAbs → y = infinity (decide (n < 0)))

/-- A value in the closed range [lo, hi]. -/
abbrev InRange (x lo hi : Num32) : Prop := le lo x = true ∧ le x hi = true

/-- The legal values of a present oscillator's registers (10_state.md section 4, R43, R44, R49). -/
abbrev OscInv (o : Osc) : Prop :=
  o.sr ≠ 0 ∧ InPhaseRange o.phase ∧ InRange o.pulseWidth num0_01 num0_99 ∧
  (isFinite o.dt = true ∧ le zero o.dt = true) ∧
  (o.shape.usesPulseWidth = false → o.pulseWidth = num0_5 ∧ o.pwHold = num0_5)

/-- The parameter registers hold clamped values (10_state.md R57; 42_rev_params.md R191). -/
abbrev ParamsInv (p : RevParams) : Prop :=
  InRange p.maxsize num0_1 numInf ∧ InRange p.size num0_1 p.maxsize ∧ InRange p.spread zero one ∧
  InRange p.bw zero one ∧ InRange p.decay num0_001 num3600 ∧ InRange p.damp zero one ∧
  InRange p.dry zero one ∧ InRange p.early zero one ∧ InRange p.late zero one ∧ InRange p.wet zero one

/-- The derived registers and damper coefficients are those of the parameters (10_state.md section 5.2, R63;
R194 to R199). -/
abbrev DerivedInv (P : Params) (r : Rev) : Prop :=
  r.largestDelay = largestDelayOf r.sr r.par.size ∧
  r.alpha = alphaOf P r.sr r.par.decay ∧
  r.len = lenRatio.map (lenOf r.largestDelay) ∧
  r.tap = tapRatio.map (tapOf r.largestDelay) ∧
  r.fdnGain = r.len.map (fdnGainOf P r.alpha) ∧
  r.tapGain = r.tap.map (tapGainOf P r.alpha) ∧
  r.diffSizeL = diffSizes r.len.i3 r.par.spread P.diffR.rL1 P.diffR.rL2 ∧
  r.diffSizeR = diffSizes r.len.i3 r.par.spread P.diffR.rR1 P.diffR.rR2 ∧
  r.inDamp.c = sub one r.par.bw ∧
  r.fdnDamp.map (fun D => D.c) = .const r.par.damp

/-- A delay line of the given size, well formed, with finite words only (R64, 20_memory.md R84). -/
abbrev LineInv (L : DelayLine) (size : Nat) : Prop :=
  L.size = size ∧ L.wf = true ∧ L.finite = true

/-- `LineInv` of four lines. -/
abbrev LinesInv (L : Four DelayLine) (size : Four Nat) : Prop :=
  LineInv L.i0 size.i0 ∧ LineInv L.i1 size.i1 ∧ LineInv L.i2 size.i2 ∧ LineInv L.i3 size.i3

/-- The thirteen delay lines (R64, R65); the right cascade's stage 0 holds zeros only (R67). -/
abbrev DelayInv (r : Rev) : Prop :=
  LineInv r.tapLine tapSize ∧ LinesInv r.fdnLine r.len ∧ LinesInv r.difL r.diffSizeL ∧
  LinesInv r.difR r.diffSizeR ∧ r.difR.i0 = { size := r.diffSizeR.i0, idx := 0, buf := [] }

/-- A present reverberator (10_state.md section 5). -/
abbrev RevInv (P : Params) (r : Rev) : Prop :=
  r.sr ≠ 0 ∧ capacityOk P r.sr r.par.maxsize = true ∧ ParamsInv r.par ∧ DerivedInv P r ∧ DelayInv r

/-- The invariant: STATUS holds one of the codes 0 to 6 (60_exceptions.md R270), and a present engine is as above.
An absent engine's registers have no value (R51, R69), so nothing is said of them. -/
abbrev Inv (s : State) : Prop :=
  s.status.toNat ≤ 6 ∧ (s.osc.present = true → OscInv s.osc) ∧ (s.rev.present = true → RevInv params s.rev)

/-- Every word of the line is a zero. -/
def DelayLine.silent (L : DelayLine) : Bool := L.buf.all (fun c => isZero c.2)

/-- No signal is left in the reverberator: every word and every damper state is a zero. -/
abbrev Silent (r : Rev) : Prop :=
  r.tapLine.silent = true ∧ r.fdnLine.all DelayLine.silent = true ∧ r.difL.all DelayLine.silent = true ∧
  r.difR.all DelayLine.silent = true ∧ isZero r.inDamp.s = true ∧
  r.fdnDamp.all (fun D => isZero D.s) = true

end Sys2Proof.Machine
end

