-- ==== Sys2Proof/Certificates/Slice0/Obligations.lean ====
section
/-!
DEFINITION. The statements for the provers, each with the rules of spec/ it formalises. A result is written with the
rule's own formula over NUM and the delay-line primitives; an equation for `exec` is a result, a completion
and a frame at once, since what the next state does not mention is the state before.
-/

open Sys2Proof Sys2Proof.Machine Sys2Proof.Machine.F32

/-! ### Encoding (30_encoding.md) -/

/-- Decoding the word of any well-formed command gives the command back, every field at every value (R100 to R111). -/
def Obligations.DecodeEncodeEveryCommand : Prop :=
  ∀ i : Instr, i.wellFormed = true → decode (encode i) = .ok i

/-- A word that decodes is the word of what it decodes to, and that is well formed: no bit of a legal word is
ignored (R111, R112). -/
def Obligations.LegalWordIsItsCommandsWord : Prop :=
  ∀ (w : Word) (i : Instr), decode w = .ok i → i.wellFormed = true ∧ encode i = w

namespace Sys2Proof.Machine.Spec

/-- OP is in the opcode map of its unit (30_encoding.md section 3). -/
def opInMap (unit op : Nat) : Bool :=
  (unit == 1 && [0x01, 0x02, 0x03, 0x04, 0x0F].elem op) ||
  (unit == 2 && [0x01, 0x02, 0x04, 0x0F, 0x10, 0x11, 0x12, 0x13, 0x14, 0x15, 0x16, 0x17, 0x18, 0x20, 0x21].elem op)

/-- The illegal encodings as R112 lists them, on the word read as a number. -/
def illegalEncoding (w : Word) : Bool :=
  let unit := w.toNat / 2 ^ 28
  let rsv := w.toNat / 2 ^ 20 % 2 ^ 8
  let field := w.toNat / 2 ^ 8 % 2 ^ 12
  let op := w.toNat % 2 ^ 8
  let initOrStep := unit == 1 && (op == 1 || op == 2)
  let revInit := unit == 2 && op == 1
  (unit != 1 && unit != 2) || rsv != 0 || !opInMap unit op ||
  (initOrStep && w.toNat / 2 ^ 12 % 2 ^ 8 != 0) || (!initOrStep && !revInit && field != 0)

end Sys2Proof.Machine.Spec

/-- R112: exactly the listed encodings are illegal, and each ends with status ILLEGAL. -/
def Obligations.IllegalEncodingsExactly : Prop :=
  ∀ w : Word,
    ((∃ e, decode w = .error e) ↔ Spec.illegalEncoding w = true) ∧
    (Spec.illegalEncoding w = true → ∀ (s : State) (rest : List HostAccess), s.host = .writeCmd w :: rest →
      step s = .next { s with host := rest, status := 1 })

/-- A few words of 95_test_vectors.md section 4, one of every family. -/
def Obligations.KnownWordsDecode : Prop :=
  decode 0x10000401#32 = .ok (.oscInit 4) ∧ decode 0x10000F02#32 = .ok (.oscStep 0xF) ∧
  decode 0x10000003#32 = .ok .oscSetPhase ∧ decode 0x2003FF01#32 = .ok (.revInit 0x3FF 0) ∧
  decode 0x200FFF01#32 = .ok (.revInit 0x3FF 3) ∧ decode 0x20000002#32 = .ok .revProcess ∧
  decode 0x20000011#32 = .ok .revSize ∧ decode 0x20000020#32 = .ok .revClear ∧
  decode 0x10100002#32 = .error .rsv ∧ decode 0x10001002#32 = .error .zero ∧
  decode 0x20000102#32 = .error .field ∧ decode 0x20000003#32 = .error .op

/-! ### The step (10_state.md section 2, 20_memory.md section 4) -/

/-- When the host's next access writes the word of a command to CMD, the step is that command's meaning at the state
with the access taken off the list; and `withFetchWord` places such a write (R31, R93). -/
def Obligations.StepRunsDecodedCommand : Prop :=
  (∀ (s : State) (w : Word) (rest : List HostAccess) (i : Instr), s.host = .writeCmd w :: rest →
    decode w = .ok i → step s = exec i { s with host := rest }) ∧
  (∀ (s : State) (w : Nat) (i : Instr), decode (BitVec.ofNat 32 w) = .ok i →
    step (s.withFetchWord 32 w) = exec i s)

/-- R35: a read of `A[i]`, `Q[i]` or STATUS delivers the register and has no side effect; a write of `A[i]` stores the
word and does nothing else. `hostData` is what the read delivers, a field of the model's own (log entry 8). -/
def Obligations.RegisterAccessHasNoSideEffect : Prop :=
  ∀ (s : State) (rest : List HostAccess),
    (∀ i, s.host = .readA i :: rest → step s = .next { s with host := rest, hostData := readA s.a i }) ∧
    (s.host = .readQ 0 :: rest → step s = .next { s with host := rest, hostData := s.q0 }) ∧
    (s.host = .readQ 1 :: rest → step s = .next { s with host := rest, hostData := s.q1 }) ∧
    (s.host = .readStatus :: rest → step s = .next { s with host := rest, hostData := s.status }) ∧
    (∀ i w, s.host = .writeA i w :: rest → ∃ a', step s = .next { s with host := rest, a := a' } ∧
      readA a' i = w ∧ ∀ j, j ≠ i → readA a' j = readA s.a j)

/-- Between accesses the hardware holds its state (R286). -/
def Obligations.NoAccessHoldsState : Prop := ∀ s : State, s.host = [] → step s = .next s

/-! ### Reset and the invariant (70_reset_and_hazards.md) -/

/-- R300: the values power-on reset gives, whether it is the state a run starts from or an access that resets a running
machine; and nothing executes until the host writes CMD. -/
def Obligations.PowerOnResetState : Prop :=
  (∀ k, readA State.reset.a k = 0) ∧ State.reset.q0 = 0 ∧ State.reset.q1 = 0 ∧ State.reset.status = 0 ∧
  State.reset.osc.present = false ∧ State.reset.rev.present = false ∧ step State.reset = .next State.reset ∧
  ∀ (s : State) (rest : List HostAccess), s.host = .powerOn :: rest →
    ∃ t, step s = .next t ∧ (∀ k, readA t.a k = 0) ∧ t.q0 = 0 ∧ t.q1 = 0 ∧ t.status = 0 ∧
      t.osc.present = false ∧ t.rev.present = false

/-- The invariant holds at reset. -/
def Obligations.ResetMeetsInvariant : Prop := Inv State.reset

/-- Every step keeps the invariant: legal register values, derived registers consistent with their parameters,
delay lines well formed with finite words (10_state.md sections 4 and 5). -/
def Obligations.StepKeepsInvariant : Prop :=
  ∀ s s' : State, Inv s → step s = .next s' → Inv s'

/-! ### Status and what a command may change (60_exceptions.md) -/

/-- Every command ends with a next state: no trap is taken and nothing blocks (R277, R319). -/
def Obligations.EveryCommandEnds : Prop := ∀ (i : Instr) (s : State), ∃ t, exec i s = .next t

/-- R272: a command that ends with a code other than OK changes nothing but STATUS. -/
def Obligations.RejectedCommandChangesOnlyStatus : Prop :=
  ∀ (i : Instr) (s t : State), exec i s = .next t → t.status ≠ 0 → t = { s with status := t.status }

namespace Sys2Proof.Machine.Spec

/-- The code the checks of R273 decide, in their order, for a word written to CMD: the operation is read from the
word's own bits. -/
def statusOfChecks (w : Word) (s : State) : Word :=
  let unit := w.toNat / 2 ^ 28
  let op := w.toNat % 2 ^ 8
  let shape := w.toNat / 2 ^ 8 % 2 ^ 4
  let xmask := w.toNat / 2 ^ 18 % 2 ^ 2
  let pmask := BitVec.ofNat 10 (w.toNat / 2 ^ 8)
  let present := if unit = 1 then s.osc.present else s.rev.present
  let rate := if op = 1 then (if unit = 1 then readA s.a 3 else readA s.a 10) else readA s.a 0
  let maxsize :=
    if op = 1 then clamp (if pmask.getLsbD 0 then readA s.a 0 else num300) num0_1 numInf else s.rev.par.maxsize
  let ldMax := div (mul (ofNat rate.toNat) maxsize) num340
  if illegalEncoding w then 1
  else if op ≠ 1 ∧ present = false then 2
  else if unit = 1 ∧ op = 1 ∧ 4 < shape then 3
  else if unit = 2 ∧ op = 1 ∧ xmask ≠ 0 then 4
  else if (op = 1 ∨ op = 4) ∧ rate = 0 then 5
  else if unit = 2 ∧ (op = 1 ∨ op = 4) ∧ ¬ (isFinite ldMax = true ∧ roundHalfAway ldMax ≤ 262144) then 6
  else 0

end Sys2Proof.Machine.Spec

/-- R273: the first failing check decides STATUS, and OK is written when none fails. The default FDN_CAP and maxsize
are the model's choice (log entry 1). -/
def Obligations.StatusFollowsCheckOrder : Prop :=
  ∀ (s : State) (w : Word) (rest : List HostAccess), s.host = .writeCmd w :: rest →
    ∃ t, step s = .next t ∧ t.status = Spec.statusOfChecks w s

/-- A command other than INIT to an engine without an instance ends with NO_INSTANCE and changes nothing else (R40,
R55, R273). -/
def Obligations.AbsentEngineAnswersNoInstance : Prop :=
  ∀ (i : Instr) (s : State), isInit i = false → addresseePresent i s = false →
    exec i s = .next { s with status := 2 }

/-- R4: a command to one engine neither reads nor writes the other's state. Replacing the other engine's state before
the command and after it comes to the same. -/
def Obligations.EnginesAreIndependent : Prop :=
  ∀ (i : Instr) (s : State),
    (isOscCommand i = true → ∀ r : Rev,
      exec i { s with rev := r } = onNext (fun t => { t with rev := r }) (exec i s)) ∧
    (isOscCommand i = false → ∀ o : Osc,
      exec i { s with osc := o } = onNext (fun t => { t with osc := o }) (exec i s))

namespace Sys2Proof.Machine.Spec

/-- The operand registers a command reads (30_encoding.md R109). -/
def reads (i : Instr) (s : State) (k : Fin 11) : Prop :=
  match i with
  | .oscInit shape => k = 0 ∨ (k = 1 ∧ shape ≤ 1) ∨ k = 2 ∨ k = 3
  | .oscStep vmask =>
    (k = 0 ∧ vmask.getLsbD 0 = true) ∨ (k = 1 ∧ vmask.getLsbD 1 = true) ∨
    (k = 2 ∧ vmask.getLsbD 2 = true ∧ s.osc.shape.code ≤ 1) ∨ (k = 3 ∧ vmask.getLsbD 3 = true)
  | .oscSetPhase | .oscSetSr | .revSetSr | .revProcess => k = 0
  | .oscDestroy | .revDestroy | .revClear | .revPrint => False
  | .revInit pmask _ => k = 10 ∨ pmask.getLsbD k.val = true
  | .revSpread | .revSize | .revDecay | .revDamp | .revBw | .revDry | .revWet | .revEarly | .revLate => k = 0

end Sys2Proof.Machine.Spec

/-- A command reads no operand register but those R109 names for it, and writes none (R32): exchanging the others
before the command or after it comes to the same. -/
def Obligations.OnlyNamedOperandsAreRead : Prop :=
  ∀ (i : Instr) (s : State) (a' : Operands), (∀ k, Spec.reads i s k → readA a' k = readA s.a k) →
    exec i { s with a := a' } = onNext (fun t => { t with a := a' }) (exec i s)

/-- No command but OSC_STEP and REV_PROCESS writes a result register, and OSC_STEP leaves Q[1] (R33, R110). -/
def Obligations.ResultRegistersHaveTwoWriters : Prop :=
  ∀ (i : Instr) (s t : State), exec i s = .next t →
    ((∀ v, i ≠ .oscStep v) → i ≠ .revProcess → t.q0 = s.q0) ∧ (i ≠ .revProcess → t.q1 = s.q1)

/-- No command but OSC_INIT writes OSC.shape (R133). That OSC_DESTROY leaves the shape of the slot it empties, a
register which then has no value, is the model's choice (log entry 7). -/
def Obligations.ShapeIsFixedAtConstruction : Prop :=
  ∀ (i : Instr) (s t : State), (∀ n, i ≠ .oscInit n) → exec i s = .next t → t.osc.shape = s.osc.shape

/-- No command but REV_INIT changes REV.maxsize (R58, R212). That REV_DESTROY leaves the maxsize of the slot it
empties, a register which then has no value, is the model's choice (log entry 7). -/
def Obligations.MaxsizeIsFixedAtConstruction : Prop :=
  ∀ (i : Instr) (s t : State), (∀ p x, i ≠ .revInit p x) → exec i s = .next t →
    t.rev.par.maxsize = s.rev.par.maxsize

/-- The registers of an absent engine have no observable value (R51, R69, R302): whatever they hold, a command ends
with the same A, Q, STATUS and present bits, and with the same engine wherever one is then present. -/
def Obligations.AbsentEngineRegistersAreUnobservable : Prop :=
  ∀ (i : Instr) (s t : State) (o : Osc) (r : Rev),
    (o.present = s.osc.present ∧ (s.osc.present = true → o = s.osc)) →
    (r.present = s.rev.present ∧ (s.rev.present = true → r = s.rev)) →
    exec i s = .next t →
    ∃ t', exec i { s with osc := o, rev := r } = .next t' ∧
      t'.a = t.a ∧ t'.q0 = t.q0 ∧ t'.q1 = t.q1 ∧ t'.status = t.status ∧
      (t'.osc.present = t.osc.present ∧ (t.osc.present = true → t'.osc = t.osc)) ∧
      (t'.rev.present = t.rev.present ∧ (t.rev.present = true → t'.rev = t.rev))

/-! ### Oscillator commands (40_osc_control.md) -/

/-- The shape codes of R108. -/
def Sys2Proof.Machine.Spec.shapeCode (shape : Shape) : Nat :=
  match shape with
  | .variableSaw => 0
  | .square => 1
  | .saw => 2
  | .sawAlt => 3
  | .triangle => 4

/-- R130, R131, R132: OSC_INIT with the code of a shape (R108) and a sample rate other than 0 writes the whole
construction state, whatever stood before. -/
def Obligations.OscInitWritesConstructionState : Prop :=
  ∀ (s : State) (shape : Shape), readA s.a 3 ≠ 0 →
    exec (.oscInit (Spec.shapeCode shape)) s = .next { s with
      status := 0
      osc :=
        { present := true
          shape := shape
          sr := readA s.a 3
          phase := wrap (readA s.a 2)
          pwHold := if shape = .variableSaw ∨ shape = .square then readA s.a 1 else num0_5
          pulseWidth :=
            if shape = .variableSaw ∨ shape = .square then clamp (readA s.a 1) num0_01 num0_99 else num0_5
          freqHold := readA s.a 0
          phoffHold := zero
          lastPhaseOffset := zero
          dt := zero
          spPending := false
          spValue := zero } }

/-- R130, R273: OSC_INIT is rejected with BAD_SHAPE for SHAPE 5 to 15, whatever the sample rate, and with BAD_ARGS for
a sample rate of 0; the previous instance is kept. -/
def Obligations.OscInitRejections : Prop :=
  ∀ (s : State) (code : Nat),
    (4 < code → exec (.oscInit code) s = .next { s with status := 3 }) ∧
    (code ≤ 4 → readA s.a 3 = 0 → exec (.oscInit code) s = .next { s with status := 5 })

/-- R134: OSC_SETPHASE arms the latch and writes nothing else; without an instance it ends with NO_INSTANCE. The next
OSC_STEP sets the phase from the latch and clears it before it does anything else. -/
def Obligations.OscSetPhaseArmsLatch : Prop :=
  ∀ s : State,
    (s.osc.present = true →
      exec .oscSetPhase s = .next { s with
        status := 0
        osc := { s.osc with spValue := readA s.a 0, spPending := true } }) ∧
    (s.osc.present = false → exec .oscSetPhase s = .next { s with status := 2 }) ∧
    (∀ v : BitVec 4, s.osc.present = true → s.osc.spPending = true →
      exec (.oscStep v) s =
        exec (.oscStep v) { s with osc := { s.osc with phase := wrap s.osc.spValue, spPending := false } })

/-- R135: of two OSC_SETPHASE commands with no OSC_STEP between them only the last leaves a trace, whatever value the
host writes for it, and the next OSC_STEP consumes it once: the latch is clear after the step. -/
def Obligations.LastSetPhaseWins : Prop :=
  (∀ (s t : State) (a' : Operands), exec .oscSetPhase s = .next t →
    exec .oscSetPhase { t with a := a' } = exec .oscSetPhase { s with a := a' }) ∧
  (∀ (s t : State) (v : BitVec 4), s.osc.present = true → exec (.oscStep v) s = .next t →
    t.osc.spPending = false)

/-- R136: OSC_SETSR writes the rate and nothing else; its two rejections change nothing but STATUS. -/
def Obligations.OscSetSrWritesRate : Prop :=
  ∀ s : State,
    (s.osc.present = true → readA s.a 0 ≠ 0 →
      exec .oscSetSr s = .next { s with status := 0, osc := { s.osc with sr := readA s.a 0 } }) ∧
    (s.osc.present = false → exec .oscSetSr s = .next { s with status := 2 }) ∧
    (s.osc.present = true → readA s.a 0 = 0 → exec .oscSetSr s = .next { s with status := 5 })

/-- R137: OSC_DESTROY clears the present bit and nothing else that is observable; without an instance it ends with
NO_INSTANCE. The other registers then have no value; that the model leaves them as they were is its own choice (log
entry 7), and this statement says nothing of them. -/
def Obligations.OscDestroyEmptiesSlot : Prop :=
  ∀ s : State,
    (s.osc.present = true →
      ∃ o : Osc, o.present = false ∧ exec .oscDestroy s = .next { s with status := 0, osc := o }) ∧
    (s.osc.present = false → exec .oscDestroy s = .next { s with status := 2 })

/-! ### The oscillator's step (41_osc_step.md) -/

namespace Sys2Proof.Machine.Spec

/-- The pseudocode of OSC_STEP (R150 with R151 to R159), read top to bottom: the oscillator after it, and Q[0]. -/
def oscStep (vmask : BitVec 4) (a : Operands) (o : Osc) : Osc × Num32 :=
  let hasPw := o.shape = .variableSaw ∨ o.shape = .square
  let freq := if vmask.getLsbD 0 then readA a 0 else o.freqHold
  let phoff := if vmask.getLsbD 1 then readA a 1 else o.phoffHold
  let pwHold := if hasPw then (if vmask.getLsbD 2 then readA a 2 else o.pwHold) else o.pwHold
  let sync := if vmask.getLsbD 3 then readA a 3 else zero
  let phase0 := if o.spPending then wrap o.spValue else o.phase
  let w := if hasPw then clamp pwHold num0_01 num0_99 else o.pulseWidth
  let dt := if isFinite (div (F32.abs freq) (ofNat o.sr.toNat)) then div (F32.abs freq) (ofNat o.sr.toNat) else zero
  let delta := if isFinite (sub phoff o.lastPhaseOffset) then sub phoff o.lastPhaseOffset else zero
  let delta := if le one (F32.abs delta) then fmodOne delta else delta
  let phase1 := if lt zero sync && le sync one then wrap sync else wrap (add phase0 delta)
  let y := wave params o.shape phase1 dt w
  ({ o with
      freqHold := freq
      phoffHold := phoff
      pwHold := pwHold
      spPending := false
      pulseWidth := w
      dt := dt
      phase := wrap (add phase1 dt)
      lastPhaseOffset := phoff }, y)

/-- The waveforms without their corrections: the naive parts of R166 to R170. -/
def naiveWave (shape : Shape) (p w : Num32) : Num32 :=
  match shape with
  | .saw => sub one (mul num2 p)
  | .sawAlt => sub (mul num2 (wrap (add p num0_5))) one
  | .square => if lt p w then one else neg one
  | .triangle =>
    if lt p num0_25 then mul num4 p
    else if lt p num0_75 then sub num2 (mul num4 p)
    else sub (mul num4 p) num4
  | .variableSaw =>
    let mUp := div num4 w
    let mDn := neg (div num4 (sub num2 w))
    let cHi := mul num0_25 w
    if lt p cHi then mul mUp p
    else if lt p (sub one cHi) then add one (mul mDn (sub p cHi))
    else mul mUp (sub p one)

/-- The reference BLEP, as R161 writes it. -/
def blep (t dt : Num32) : Num32 :=
  if lt t dt then
    mul (sub (div t dt) one) (sub (div t dt) one)
  else if lt (sub one dt) t then
    neg (mul (add (div (sub t one) dt) one) (add (div (sub t one) dt) one))
  else zero

/-- The reference BLAMP, as R163 writes it: `x * x * x` is `(x * x) * x`. -/
def blamp (t dt : Num32) : Num32 :=
  let forward := sub (div t dt) one
  let backward := add (div (sub t one) dt) one
  if lt t dt then div (mul (mul forward forward) forward) num3
  else if lt (sub one dt) t then neg (div (mul (mul backward backward) backward) num3)
  else zero

/-- The waveforms with their corrections, as R166 to R171 write them, over these. -/
def wave (shape : Shape) (p dt w : Num32) : Num32 :=
  let n := naiveWave shape p w
  match shape with
  | .saw => sub n (blep p dt)
  | .sawAlt => add n (blep (wrap (add p num0_5)) dt)
  | .square => add (sub n (blep p dt)) (blep (wrap (sub p w)) dt)
  | .triangle =>
    add n (mul (mul num4 dt)
      (sub (blamp (wrap (sub p num0_25)) dt) (blamp (wrap (sub p num0_75)) dt)))
  | .variableSaw =>
    let mUp := div num4 w
    let mDn := neg (div num4 (sub num2 w))
    let cHi := mul num0_25 w
    add n (mul (mul (mul num0_5 (sub mUp mDn)) dt)
      (sub (blamp (wrap (sub p cHi)) dt) (blamp (wrap (sub p (sub one cHi))) dt)))

end Sys2Proof.Machine.Spec

/-- R150: OSC_STEP writes Q[0], the oscillator and STATUS as its pseudocode says, and nothing else; without an
instance it ends with NO_INSTANCE. -/
def Obligations.OscStepFollowsPseudocode : Prop :=
  ∀ (s : State) (v : BitVec 4),
    (s.osc.present = true →
      exec (.oscStep v) s = .next { s with
        status := 0, osc := (Spec.oscStep v s.a s.osc).1, q0 := (Spec.oscStep v s.a s.osc).2 }) ∧
    (s.osc.present = false → exec (.oscStep v) s = .next { s with status := 2 })

/-- The waveform of each shape is the formula of its rule (R165 to R171) over the polynomials of R161 and R163, and the
operations on finite operands round the exact result to the nearest value, ties to even, or to an infinity (R8, R9).
That the hardware has the default BLEP, BLAMP, VSAW_CORNER and NUM is the model's choice (log entry 1). -/
def Obligations.WaveformsFollowTheirRules : Prop :=
  (∀ t dt : Num32, params.blep t dt = Spec.blep t dt ∧ params.blamp t dt = Spec.blamp t dt) ∧
  (∀ (shape : Shape) (p dt w : Num32), wave params shape p dt w = Spec.wave shape p dt w) ∧
  (∀ x y : Num32, isFinite x = true → isFinite y = true →
    RoundedTo (add x y) (fix x + fix y) 1 ∧ RoundedTo (sub x y) (fix x - fix y) 1 ∧
    RoundedTo (mul x y) (fix x * fix y) oneUnits ∧
    (isZero y = false → RoundedTo (div x y) (fix x * (fix y).sign * oneUnits) (mag y)))

namespace Sys2Proof.Machine.Spec

/-- `n` is the whole number nearest to x units of 2^-149, of two that are equally near the one farther from 0
(R13). -/
def nearestAway (x n : Int) : Prop :=
  2 * (n * oneUnits - x).natAbs ≤ oneUnits ∧
  (2 * (n * oneUnits - x).natAbs = oneUnits → x.natAbs < (n * oneUnits).natAbs)

/-- `n` is x units of 2^-149 with the fraction discarded, toward 0 (R14). -/
def towardZero (x n : Int) : Prop :=
  (n * oneUnits).natAbs ≤ x.natAbs ∧ x.natAbs < (n * oneUnits).natAbs + oneUnits ∧ 0 ≤ n * x

end Sys2Proof.Machine.Spec

/-- R172: after every OSC_STEP the phase is in [0,1), for every frequency, phase offset, sync and set-phase value,
finite or not. R16: `wrap` of a finite value is its distance above its floor, rounded, or 0.0 where that rounds to
1.0; of any other 0.0; never -0.0. R13 to R15: the values of `roundHalfAway`, `trunc` and `fmod(x, 1)` of a finite
value. -/
def Obligations.PhaseStaysInUnitInterval : Prop :=
  (∀ (s : State) (v : BitVec 4), s.osc.present = true →
    ∃ t, exec (.oscStep v) s = .next t ∧ le zero t.osc.phase = true ∧ lt t.osc.phase one = true) ∧
  (∀ x : Num32, le zero (wrap x) = true ∧ lt (wrap x) one = true ∧ (isZero (wrap x) = true → wrap x = zero) ∧
    (isFinite x = false → wrap x = zero)) ∧
  (∀ x : Num32, isFinite x = true →
    (∃ y, sign y = false ∧ NearestEven y (fix x % (oneUnits : Int)) 1 ∧ wrap x = if y = one then zero else y) ∧
    Spec.nearestAway (fix x) (roundHalfAway x) ∧ Spec.towardZero (fix x) (trunc x) ∧
    (isFinite (fmodOne x) = true ∧ sign (fmodOne x) = sign x ∧
      fix (fmodOne x) = fix x - trunc x * (oneUnits : Int)))

/-- A negative frequency behaves as its absolute value (R175): flipping the sign of the frequency that a step takes
changes nothing but the hold register that stores it. -/
def Obligations.FrequencySignIsIgnored : Prop :=
  ∀ (s : State) (v : BitVec 4), s.osc.present = true → v.getLsbD 0 = true →
    exec (.oscStep v) { s with a := writeA s.a 0 (neg (readA s.a 0)) } =
      onNext (fun t => { t with
        a := writeA s.a 0 (neg (readA s.a 0)), osc := { t.osc with freqHold := neg (readA s.a 0) } })
        (exec (.oscStep v) s)

/-- A sync outside (0,1], or a NaN, is no sync (R156): the step is the one of the same command without the SYNC
stream, whose sync input is 0.0 and not held (R152). -/
def Obligations.SyncOutsideRangeIsNoSync : Prop :=
  ∀ (s : State) (v : BitVec 4), v.getLsbD 3 = true →
    (le (readA s.a 3) zero = true ∨ lt one (readA s.a 3) = true ∨ isNaN (readA s.a 3) = true) →
    exec (.oscStep v) s = exec (.oscStep (v &&& 0x7#4)) s

/-- Frequency 0 gives dt = 0 (R174), and there both corrections vanish at every distance in [0,1) (R161, R163). -/
def Obligations.ZeroFrequencyHasNoCorrection : Prop :=
  (∀ (s t : State) (v : BitVec 4), s.osc.present = true → s.osc.sr ≠ 0 → v.getLsbD 0 = false →
    isZero s.osc.freqHold = true → exec (.oscStep v) s = .next t → t.osc.dt = zero) ∧
  (∀ x : Num32, InPhaseRange x → params.blep x zero = zero ∧ params.blamp x zero = zero)

/-- BLEP and BLAMP are 0 outside the window around the discontinuity (R160 a, R162 a). -/
def Obligations.CorrectionsVanishOutsideWindow : Prop :=
  ∀ t dt : Num32, le dt t = true → le t (sub one dt) = true → params.blep t dt = zero ∧ params.blamp t dt = zero

/-- At phase 0 the Saw is 0, the midpoint of its jump, for every finite dt above 0 (R166, corner case). R166 says so of
the reference BLEP; that the hardware has it is the model's choice (log entry 1). -/
def Obligations.SawIsZeroAtItsJump : Prop :=
  ∀ dt w : Num32, isFinite dt = true → lt zero dt = true → wave params .saw zero dt w = zero

/-! ### Delay lines (20_memory.md) -/

/-- The lines after a list of writes, the first one first. -/
def Sys2Proof.Machine.Spec.writeAll (L : DelayLine) (vs : List Num32) : DelayLine := vs.foldl dlWrite L

/-- R83: within its size a line returns the word written n writes earlier, and what stood there before the writes
when there were fewer; beyond its size the offset wraps. `Memory.read` at `(idx - n) mod size` is the read. -/
def Obligations.DelayLineReadsEarlierWrites : Prop :=
  ∀ (L : DelayLine) (vs : List Num32) (n : Nat), L.wf = true → 1 ≤ n →
    (n ≤ L.size → n ≤ vs.length →
      dlRead (Spec.writeAll L vs) n = sanitize (vs.getD (vs.length - n) zero)) ∧
    (n ≤ L.size → vs.length < n → dlRead (Spec.writeAll L vs) n = dlRead L (n - vs.length)) ∧
    (L.size < n → dlRead L n = dlRead L ((n - 1) % L.size + 1)) ∧
    dlRead (dlClear L) n = zero

/-- R84: a write stores the sanitized word at the index, leaves every other word, advances the index modulo the size
and keeps the size and the line's form; the stored word is finite. -/
def Obligations.DelayLineWriteStoresSanitized : Prop :=
  ∀ (L : DelayLine) (v : Num32), L.wf = true →
    Memory.read (dlWrite L v).buf L.idx = (if isFinite v then v else zero) ∧
    (∀ k, k ≠ L.idx → Memory.read (dlWrite L v).buf k = Memory.read L.buf k) ∧
    (dlWrite L v).idx = (L.idx + 1) % L.size ∧ (dlWrite L v).size = L.size ∧ (dlWrite L v).wf = true ∧
    (L.finite = true → (dlWrite L v).finite = true)

/-- R85, R86: DLRealloc and DLClear zero every word and reset the index; only DLRealloc changes the size. -/
def Obligations.ReallocAndClearZeroTheLine : Prop :=
  ∀ (L : DelayLine) (n k : Nat),
    (dlRealloc L n).size = n ∧ (dlRealloc L n).idx = 0 ∧ Memory.read (dlRealloc L n).buf k = zero ∧
    (dlClear L).size = L.size ∧ (dlClear L).idx = 0 ∧ Memory.read (dlClear L).buf k = zero

/-! ### Reverberator construction and parameters (42_rev_params.md) -/

/-- POW gives 1.0 for exponent 0 and a finite base, and a value in [0,1] for 0 < b < 1 and e > 0 (R18). It depends on
its operands alone, being a function of them. So every gain of a legal reverberator has magnitude at most 1, and a
branch gain is strictly less when alpha is below 1 (R247, R255): that R18 leaves room for another POW, which the model
narrows away, is its own choice (log entry 2). -/
def Obligations.PowMeetsItsRequirements : Prop :=
  (∀ b e : Num32,
    (isFinite b = true → isZero e = true → params.pow b e = one) ∧
    (lt zero b = true → lt b one = true → lt zero e = true → InRange (params.pow b e) zero one)) ∧
  (∀ (r : Rev) (j : Fin 4), RevInv params r →
    InRange (neg (r.fdnGain.get j)) zero one ∧ InRange (r.tapGain.get j) zero one ∧
    (lt r.alpha one = true → lt (neg (r.fdnGain.get j)) one = true))

/-- `y` is x clamped to [lo, hi], as R12 says. -/
def Sys2Proof.Machine.Spec.clamped (x lo hi y : Num32) : Prop :=
  (isNaN x = true → y = lo) ∧ (lt x lo = true → y = lo) ∧ (lt hi x = true → y = hi) ∧
  (le lo x = true → le x hi = true → y = x)

/-- ClampAll puts every parameter into its range (R191) by the clamp of R12: a NaN or a value below the range becomes
the lower bound, a value above it the upper bound, and a value in it is kept. -/
def Obligations.ClampAllGivesLegalParameters : Prop :=
  ∀ p : RevParams, ParamsInv (clampAll p) ∧
    Spec.clamped p.maxsize num0_1 numInf (clampAll p).maxsize ∧
    Spec.clamped p.size num0_1 (clampAll p).maxsize (clampAll p).size ∧
    Spec.clamped p.decay num0_001 num3600 (clampAll p).decay ∧
    Spec.clamped p.spread zero one (clampAll p).spread ∧ Spec.clamped p.bw zero one (clampAll p).bw ∧
    Spec.clamped p.damp zero one (clampAll p).damp ∧ Spec.clamped p.dry zero one (clampAll p).dry ∧
    Spec.clamped p.early zero one (clampAll p).early ∧ Spec.clamped p.late zero one (clampAll p).late ∧
    Spec.clamped p.wet zero one (clampAll p).wet

namespace Sys2Proof.Machine.Spec

/-- A line of `n` zero words, as DLRealloc leaves it. -/
def zeroLine (n : Nat) : DelayLine := { size := n, idx := 0, buf := [] }

/-- The four lengths of R195. -/
def lens (ld : Num32) : Four Nat :=
  let len (ratio : Num32) : Nat := (max 1 (roundHalfAway (mul ld ratio))).toNat
  ⟨len one, len num0_81649, len num0_70710, len num0_63245⟩

/-- The four tap offsets of R195. -/
def taps (ld : Num32) : Four Nat :=
  let tap (ratio : Num32) : Nat := (5 + roundHalfAway (mul ld ratio)).toNat
  ⟨tap num0_41, tap num0_3, tap num0_155, tap zero⟩

/-- One side's parts (R197). -/
def parts (spread r1 r2 : Num32) : Four Int :=
  let a1 := trunc (mul (mul num100 spread) r1)
  let a2 := trunc (mul (mul num300 spread) r2)
  ⟨210, 159 + a1, 562 + a2 - a1, 410 - a2⟩

/-- One side's diffuser sizes (R197). -/
def sizes (len3 : Nat) (spread r1 r2 : Num32) : Four Nat :=
  (parts spread r1 r2).map (fun part => (max 1 (trunc (mul (div (ofNat len3) num1341) (ofInt part)))).toNat)

/-- DeriveDiffusers with any DIFF_R (R197). -/
def deriveDiffusersWith (d : DiffR) (r : Rev) : Rev :=
  let sizeL := sizes r.len.i3 r.par.spread d.rL1 d.rL2
  let sizeR := sizes r.len.i3 r.par.spread d.rR1 d.rR2
  { r with
    diffSizeL := sizeL, difL := sizeL.map zeroLine
    diffSizeR := sizeR, difR := sizeR.map zeroLine }

/-- DeriveDiffusers (R197), with the default DIFF_R (log entry 1). -/
def deriveDiffusers (r : Rev) : Rev :=
  deriveDiffusersWith { rL1 := 0x3E008DD2#32, rL2 := 0x3F5AA2C2#32, rR1 := 0xBF11806F#32, rR2 := 0xBE01DBCB#32 } r

/-- DeriveGains (R196). -/
def deriveGains (r : Rev) : Rev :=
  { r with
    fdnGain := r.len.map (fun n => neg (params.pow r.alpha (ofNat n)))
    tapGain := r.tap.map (fun n => params.pow r.alpha (ofNat n)) }

/-- DeriveAlpha (R194). -/
def deriveAlpha (r : Rev) : Rev :=
  { r with alpha := params.pow num0_001 (div one (mul (ofNat r.sr.toNat) r.par.decay)) }

/-- DeriveSize (R195). -/
def deriveSize (r : Rev) : Rev :=
  let ld := div (mul (ofNat r.sr.toNat) r.par.size) num340
  let r := deriveGains { r with largestDelay := ld, len := lens ld, tap := taps ld }
  deriveDiffusers { r with fdnLine := r.len.map zeroLine }

/-- The raw parameters of REV_INIT, with the default REV_DEFAULTS (R190, R192; log entry 1). -/
def rawParams (pmask : BitVec 10) (a : Operands) : RevParams :=
  { maxsize := if pmask.getLsbD 0 then readA a 0 else num300
    size := if pmask.getLsbD 1 then readA a 1 else num50
    spread := if pmask.getLsbD 2 then readA a 2 else num0_15
    bw := if pmask.getLsbD 3 then readA a 3 else num0_5
    decay := if pmask.getLsbD 4 then readA a 4 else num7
    damp := if pmask.getLsbD 5 then readA a 5 else num0_5
    dry := if pmask.getLsbD 6 then readA a 6 else one
    early := if pmask.getLsbD 7 then readA a 7 else num0_25
    late := if pmask.getLsbD 8 then readA a 8 else num0_25
    wet := if pmask.getLsbD 9 then readA a 9 else one }

/-- The clamps of R191. -/
def clampAll (p : RevParams) : RevParams :=
  { maxsize := clamp p.maxsize num0_1 numInf
    size := clamp p.size num0_1 (clamp p.maxsize num0_1 numInf)
    spread := clamp p.spread zero one
    bw := clamp p.bw zero one
    decay := clamp p.decay num0_001 num3600
    damp := clamp p.damp zero one
    dry := clamp p.dry zero one
    early := clamp p.early zero one
    late := clamp p.late zero one
    wet := clamp p.wet zero one }

/-- CapacityOK, with the default FDN_CAP (R193; log entry 1). -/
def capacityOk (sr : Word) (maxsize : Num32) : Prop :=
  isFinite (div (mul (ofNat sr.toNat) maxsize) num340) = true ∧
  roundHalfAway (div (mul (ofNat sr.toNat) maxsize) num340) ≤ 262144

end Sys2Proof.Machine.Spec

/-- R190, R199: REV_INIT with no unrecognised parameter, a sample rate other than 0 and the capacity for the largest
room writes the construction state. `r0` is any engine whose parameters, rate, dampers and tap line stand as R199
writes them: what else it holds does not matter, so every register is written and nothing of a previous instance
survives. -/
def Obligations.RevInitWritesConstructionState : Prop :=
  ∀ (s : State) (pmask : BitVec 10) (c : RevParams) (r0 : Rev),
    c = Spec.clampAll (Spec.rawParams pmask s.a) → readA s.a 10 ≠ 0 → Spec.capacityOk (readA s.a 10) c.maxsize →
    r0.present = true → r0.sr = readA s.a 10 → r0.par = c →
    r0.inDamp = { c := sub one c.bw, s := zero } → r0.fdnDamp = .const { c := c.damp, s := zero } →
    r0.tapLine = Spec.zeroLine 44000 →
    exec (.revInit pmask 0) s = .next { s with status := 0, rev := Spec.deriveSize (Spec.deriveAlpha r0) }

/-- R190, R273: the rejections of REV_INIT, in the order of the checks; the previous instance is kept. The third rests
on the default FDN_CAP and the default maxsize, which are the model's choice (log entry 1). -/
def Obligations.RevInitRejections : Prop :=
  ∀ (s : State) (pmask : BitVec 10) (xmask : Nat),
    (xmask ≠ 0 → exec (.revInit pmask xmask) s = .next { s with status := 4 }) ∧
    (readA s.a 10 = 0 → exec (.revInit pmask 0) s = .next { s with status := 5 }) ∧
    (readA s.a 10 ≠ 0 →
      ¬ Spec.capacityOk (readA s.a 10) (Spec.clampAll (Spec.rawParams pmask s.a)).maxsize →
      exec (.revInit pmask 0) s = .next { s with status := 6 })

/-- R200: REV_SIZE clamps the size and derives the geometry; without an instance it ends with NO_INSTANCE. -/
def Obligations.RevSizeDerivesGeometry : Prop :=
  ∀ s : State,
    (s.rev.present = true →
      exec .revSize s = .next { s with
        status := 0
        rev := Spec.deriveSize { s.rev with
          par := { s.rev.par with size := clamp (readA s.a 0) num0_1 s.rev.par.maxsize } } }) ∧
    (s.rev.present = false → exec .revSize s = .next { s with status := 2 })

/-- R201: REV_DECAY clamps the decay time and derives alpha and the gains, and no line or damper changes; without an
instance it ends with NO_INSTANCE. -/
def Obligations.RevDecayDerivesGains : Prop :=
  ∀ s : State,
    (s.rev.present = true →
      exec .revDecay s = .next { s with
        status := 0
        rev := Spec.deriveGains (Spec.deriveAlpha { s.rev with
          par := { s.rev.par with decay := clamp (readA s.a 0) num0_001 num3600 } }) }) ∧
    (s.rev.present = false → exec .revDecay s = .next { s with status := 2 })

/-- R202: REV_DAMP sets every branch coefficient and keeps the damper states; without an instance it ends with
NO_INSTANCE. -/
def Obligations.RevDampSetsBranchCoefficients : Prop :=
  ∀ s : State,
    (s.rev.present = true →
      exec .revDamp s = .next { s with
        status := 0
        rev := { s.rev with
          par := { s.rev.par with damp := clamp (readA s.a 0) zero one }
          fdnDamp := s.rev.fdnDamp.map (fun D => { c := clamp (readA s.a 0) zero one, s := D.s }) } }) ∧
    (s.rev.present = false → exec .revDamp s = .next { s with status := 2 })

/-- R203: REV_BW sets the input coefficient to 1 - bw and keeps the damper state; without an instance it ends with
NO_INSTANCE. -/
def Obligations.RevBwSetsInputCoefficient : Prop :=
  ∀ s : State,
    (s.rev.present = true →
      exec .revBw s = .next { s with
        status := 0
        rev := { s.rev with
          par := { s.rev.par with bw := clamp (readA s.a 0) zero one }
          inDamp := { c := sub one (clamp (readA s.a 0) zero one), s := s.rev.inDamp.s } } }) ∧
    (s.rev.present = false → exec .revBw s = .next { s with status := 2 })

/-- R204 to R207: the four mix levels, each clamped into its own register and nowhere else; without an instance each
ends with NO_INSTANCE. -/
def Obligations.RevMixLevelSetters : Prop :=
  ∀ s : State,
    (s.rev.present = true →
      exec .revDry s = .next { s with
        status := 0, rev := { s.rev with par := { s.rev.par with dry := clamp (readA s.a 0) zero one } } } ∧
      exec .revWet s = .next { s with
        status := 0, rev := { s.rev with par := { s.rev.par with wet := clamp (readA s.a 0) zero one } } } ∧
      exec .revEarly s = .next { s with
        status := 0, rev := { s.rev with par := { s.rev.par with early := clamp (readA s.a 0) zero one } } } ∧
      exec .revLate s = .next { s with
        status := 0, rev := { s.rev with par := { s.rev.par with late := clamp (readA s.a 0) zero one } } }) ∧
    (s.rev.present = false →
      exec .revDry s = .next { s with status := 2 } ∧ exec .revWet s = .next { s with status := 2 } ∧
      exec .revEarly s = .next { s with status := 2 } ∧ exec .revLate s = .next { s with status := 2 })

/-- REV_SPREAD clamps the spread and derives the diffusers (R208); without an instance it ends with NO_INSTANCE. The
same with any DIFF_R in place of the default (log entry 1), and one whose constants have magnitude at most 1 keeps
every part in [59, 962] and a side's parts at the sum 1341 (R197). -/
def Obligations.RevSpreadDerivesDiffusers : Prop :=
  (∀ s : State,
    (s.rev.present = true →
      exec .revSpread s = .next { s with
        status := 0
        rev := Spec.deriveDiffusers { s.rev with
          par := { s.rev.par with spread := clamp (readA s.a 0) zero one } } }) ∧
    (s.rev.present = false → exec .revSpread s = .next { s with status := 2 })) ∧
  (∀ (P : Params) (s : State), s.rev.present = true →
    execWith P .revSpread s = .next { s with
      status := 0
      rev := Spec.deriveDiffusersWith P.diffR { s.rev with
        par := { s.rev.par with spread := clamp (readA s.a 0) zero one } } }) ∧
  (∀ spread r1 r2 : Num32, InRange spread zero one → le (F32.abs r1) one = true → le (F32.abs r2) one = true →
    (∀ j : Fin 4, 59 ≤ (Spec.parts spread r1 r2).get j ∧ (Spec.parts spread r1 r2).get j ≤ 962) ∧
    (Spec.parts spread r1 r2).i0 + (Spec.parts spread r1 r2).i1 + (Spec.parts spread r1 r2).i2 +
      (Spec.parts spread r1 r2).i3 = 1341)

/-- R209: REV_SETSR, with its three rejections. -/
def Obligations.RevSetSrRecomputesEverything : Prop :=
  ∀ s : State,
    (s.rev.present = true → readA s.a 0 ≠ 0 → Spec.capacityOk (readA s.a 0) s.rev.par.maxsize →
      exec .revSetSr s = .next { s with
        status := 0, rev := Spec.deriveSize (Spec.deriveAlpha { s.rev with sr := readA s.a 0 }) }) ∧
    (s.rev.present = false → exec .revSetSr s = .next { s with status := 2 }) ∧
    (s.rev.present = true → readA s.a 0 = 0 → exec .revSetSr s = .next { s with status := 5 }) ∧
    (s.rev.present = true → readA s.a 0 ≠ 0 → ¬ Spec.capacityOk (readA s.a 0) s.rev.par.maxsize →
      exec .revSetSr s = .next { s with status := 6 })

/-- R210: REV_DESTROY clears the present bit; without an instance it ends with NO_INSTANCE. The other registers then
have no value; this statement says nothing of them (log entry 7). -/
def Obligations.RevDestroyEmptiesSlot : Prop :=
  ∀ s : State,
    (s.rev.present = true →
      ∃ r : Rev, r.present = false ∧ exec .revDestroy s = .next { s with status := 0, rev := r }) ∧
    (s.rev.present = false → exec .revDestroy s = .next { s with status := 2 })

/-- R211: REV_SIZE and REV_SPREAD zero the lines they own every time they complete, whatever the operand. -/
def Obligations.ResizeAlwaysZeroesItsLines : Prop :=
  ∀ s : State, s.rev.present = true →
    (∃ t, exec .revSize s = .next t ∧ ∀ (j : Fin 4) (n : Nat),
      dlRead (t.rev.fdnLine.get j) n = zero ∧ dlRead (t.rev.difL.get j) n = zero ∧
      dlRead (t.rev.difR.get j) n = zero ∧ (t.rev.fdnLine.get j).idx = 0 ∧ (t.rev.difL.get j).idx = 0 ∧
      (t.rev.difR.get j).idx = 0) ∧
    (∃ t, exec .revSpread s = .next t ∧ ∀ (j : Fin 4) (n : Nat),
      dlRead (t.rev.difL.get j) n = zero ∧ dlRead (t.rev.difR.get j) n = zero ∧
      (t.rev.difL.get j).idx = 0 ∧ (t.rev.difR.get j).idx = 0)

/-- No runtime command needs more FDN capacity than there is (R193): in a present reverberator that meets the
invariant every branch is at most FDN_CAP words long, so REV_SIZE never has to end with ALLOC. -/
def Obligations.BranchesFitTheCapacity : Prop :=
  ∀ r : Rev, RevInv params r →
    r.len.i0 ≤ 262144 ∧ r.len.i1 ≤ 262144 ∧ r.len.i2 ≤ 262144 ∧ r.len.i3 ≤ 262144

/-- REV.tap[3] is always 5 (R195): the shortest tap does not depend on the room. -/
def Obligations.ShortestTapIsFive : Prop := ∀ r : Rev, RevInv params r → r.tap.i3 = 5

/-! ### The signal path (43_rev_process.md) -/

namespace Sys2Proof.Machine.Spec

/-- `Damp(D, x)`'s output (R240). -/
def dampOut (D : Damper) (x : Num32) : Num32 := add (mul x (sub one D.c)) (mul D.s D.c)

/-- The word `Diffuse(L, c, x)` stores (R241). -/
def diffuseStored (L : DelayLine) (c x : Num32) : Num32 :=
  let w := sub x (mul (Memory.read L.buf (readPosition L L.size)) c)
  if isFinite w then w else zero

/-- `Diffuse(L, c, x)`'s output (R241). -/
def diffuseOut (L : DelayLine) (c x : Num32) : Num32 :=
  add (Memory.read L.buf (readPosition L L.size)) (mul (diffuseStored L c x) c)

/-- The line `Diffuse(L, c, x)` leaves. -/
def diffuseLine (L : DelayLine) (c x : Num32) : DelayLine := dlWrite L (diffuseStored L c x)

/-- The pseudocode of REV_PROCESS (R242), read top to bottom: the engine after it, Q[0] and Q[1]. -/
def process (r : Rev) (input : Num32) : Rev × Num32 × Num32 :=
  let x := if isFinite input = false ∨ lt num100000 (F32.abs input) = true then zero else input
  let z0 := dampOut r.inDamp x
  let z := diffuseOut r.difL.i0 num0_75 z0
  let u0 := mul r.tapGain.i0 (dlRead r.tapLine r.tap.i0)
  let u1 := mul r.tapGain.i1 (dlRead r.tapLine r.tap.i1)
  let u2 := mul r.tapGain.i2 (dlRead r.tapLine r.tap.i2)
  let u3 := mul r.tapGain.i3 (dlRead r.tapLine r.tap.i3)
  let d0 := dampOut r.fdnDamp.i0 (mul r.fdnGain.i0 (dlRead r.fdnLine.i0 r.len.i0))
  let d1 := dampOut r.fdnDamp.i1 (mul r.fdnGain.i1 (dlRead r.fdnLine.i1 r.len.i1))
  let d2 := dampOut r.fdnDamp.i2 (mul r.fdnGain.i2 (dlRead r.fdnLine.i2 r.len.i2))
  let d3 := dampOut r.fdnDamp.i3 (mul r.fdnGain.i3 (dlRead r.fdnLine.i3 r.len.i3))
  let t (d u : Num32) : Num32 := add (mul r.par.late d) (mul r.par.early u)
  let sum :=
    add (sub (add (sub (add zero (t d0 u0)) (t d1 u1)) (t d2 u2)) (t d3 u3)) (mul x r.par.early)
  let f0 := mul num0_5 (sub (sub (add d0 d1) d2) d3)
  let f1 := mul num0_5 (add (sub (sub d0 d1) d2) d3)
  let f2 := mul num0_5 (add (sub (add (neg d0) d1) d2) d3)
  let f3 := mul num0_5 (add (add (add d0 d1) d2) d3)
  let l1 := diffuseOut r.difL.i1 num0_75 sum
  let l2 := diffuseOut r.difL.i2 num0_625 l1
  let r1 := diffuseOut r.difR.i1 num0_75 sum
  let r2 := diffuseOut r.difR.i2 num0_625 r1
  ({ r with
      inDamp := { r.inDamp with s := z0 }
      tapLine := dlWrite r.tapLine z
      fdnDamp :=
        { i0 := { r.fdnDamp.i0 with s := d0 }, i1 := { r.fdnDamp.i1 with s := d1 }
          i2 := { r.fdnDamp.i2 with s := d2 }, i3 := { r.fdnDamp.i3 with s := d3 } }
      fdnLine :=
        { i0 := dlWrite r.fdnLine.i0 (add u0 f0), i1 := dlWrite r.fdnLine.i1 (add u1 f1)
          i2 := dlWrite r.fdnLine.i2 (add u2 f2), i3 := dlWrite r.fdnLine.i3 (add u3 f3) }
      difL :=
        { i0 := diffuseLine r.difL.i0 num0_75 z0, i1 := diffuseLine r.difL.i1 num0_75 sum
          i2 := diffuseLine r.difL.i2 num0_625 l1, i3 := diffuseLine r.difL.i3 num0_625 l2 }
      difR :=
        { i0 := r.difR.i0, i1 := diffuseLine r.difR.i1 num0_75 sum
          i2 := diffuseLine r.difR.i2 num0_625 r1, i3 := diffuseLine r.difR.i3 num0_625 r2 } },
    add (mul x r.par.dry) (mul (diffuseOut r.difL.i3 num0_625 l2) r.par.wet),
    add (mul x r.par.dry) (mul (diffuseOut r.difR.i3 num0_625 r2) r.par.wet))

end Sys2Proof.Machine.Spec

/-- R242: REV_PROCESS writes Q[0], Q[1], the reverberator and STATUS as its pseudocode says, and nothing else; without
an instance it ends with NO_INSTANCE. -/
def Obligations.RevProcessFollowsPseudocode : Prop :=
  ∀ s : State,
    (s.rev.present = true →
      exec .revProcess s = .next { s with
        status := 0
        rev := (Spec.process s.rev (readA s.a 0)).1
        q0 := (Spec.process s.rev (readA s.a 0)).2.1
        q1 := (Spec.process s.rev (readA s.a 0)).2.2 }) ∧
    (s.rev.present = false → exec .revProcess s = .next { s with status := 2 })

/-- The frame of REV_PROCESS over the delay RAMs (R81, R84, R242): in each line it writes, only the word at the
line's index changes; stage 0 of the right cascade does not change; the parameters, the derived registers and the
damper coefficients do not change. -/
def Obligations.RevProcessStoresOneWordPerLine : Prop :=
  ∀ s : State, s.rev.present = true → RevInv params s.rev →
    ∃ t, exec .revProcess s = .next t ∧
      (∀ k, k ≠ s.rev.tapLine.idx → Memory.read t.rev.tapLine.buf k = Memory.read s.rev.tapLine.buf k) ∧
      (∀ (j : Fin 4) (k : Nat), k ≠ (s.rev.fdnLine.get j).idx →
        Memory.read (t.rev.fdnLine.get j).buf k = Memory.read (s.rev.fdnLine.get j).buf k) ∧
      (∀ (j : Fin 4) (k : Nat), k ≠ (s.rev.difL.get j).idx →
        Memory.read (t.rev.difL.get j).buf k = Memory.read (s.rev.difL.get j).buf k) ∧
      (∀ (j : Fin 4) (k : Nat), k ≠ (s.rev.difR.get j).idx →
        Memory.read (t.rev.difR.get j).buf k = Memory.read (s.rev.difR.get j).buf k) ∧
      t.rev.difR.i0 = s.rev.difR.i0 ∧ t.rev.par = s.rev.par ∧ t.rev.sr = s.rev.sr ∧
      t.rev.len = s.rev.len ∧ t.rev.tap = s.rev.tap ∧ t.rev.fdnGain = s.rev.fdnGain ∧
      t.rev.tapGain = s.rev.tapGain ∧ t.rev.largestDelay = s.rev.largestDelay ∧ t.rev.alpha = s.rev.alpha ∧
      t.rev.diffSizeL = s.rev.diffSizeL ∧ t.rev.diffSizeR = s.rev.diffSizeR ∧ t.rev.inDamp.c = s.rev.inDamp.c ∧
      t.rev.fdnDamp.map (fun D => D.c) = s.rev.fdnDamp.map (fun D => D.c) ∧
      t.osc = s.osc ∧ t.a = s.a

/-- R243: a non-finite input, or one of magnitude above 100000, is taken as 0.0 everywhere in the sample. -/
def Obligations.ExtremeInputActsAsZero : Prop :=
  ∀ (s : State) (x : Word), (isFinite x = false ∨ lt num100000 (F32.abs x) = true) →
    exec .revProcess { s with a := writeA s.a 0 x } =
      onNext (fun t => { t with a := writeA s.a 0 x }) (exec .revProcess { s with a := writeA s.a 0 zero })

/-- R67: the right cascade's stage 0 holds zeros for the life of the instance: what REV_INIT builds in an empty slot has
it, and no command changes a zero line into another kind. -/
def Obligations.RightStageZeroStaysZero : Prop :=
  ∀ (i : Instr) (s t : State), exec i s = .next t →
    (s.rev.present = true → s.rev.difR.i0.idx = 0 ∧ s.rev.difR.i0.buf = []) →
    t.rev.present = true → t.rev.difR.i0.idx = 0 ∧ t.rev.difR.i0.buf = []

/-- R253: REV_CLEAR zeroes the words, indices and damper states and keeps everything else; without an instance it
ends with NO_INSTANCE. -/
def Obligations.RevClearZeroesTheSignal : Prop :=
  ∀ s : State,
    (s.rev.present = true →
      exec .revClear s = .next { s with
        status := 0
        rev := { s.rev with
          tapLine := Spec.zeroLine s.rev.tapLine.size
          fdnLine := s.rev.fdnLine.map (fun L => Spec.zeroLine L.size)
          difL := s.rev.difL.map (fun L => Spec.zeroLine L.size)
          difR := s.rev.difR.map (fun L => Spec.zeroLine L.size)
          inDamp := { s.rev.inDamp with s := zero }
          fdnDamp := s.rev.fdnDamp.map (fun D => { D with s := zero }) } }) ∧
    (s.rev.present = false → exec .revClear s = .next { s with status := 2 })

/-- R253, corner case: after REV_CLEAR the instance is the one a REV_INIT with the same parameters and sample rate
builds. -/
def Obligations.ClearRestoresConstruction : Prop :=
  ∀ s : State, s.rev.present = true → RevInv params s.rev →
    exec .revClear s = .next { s with status := 0, rev := revConstruct params s.rev.par s.rev.sr }

/-- `n` REV_PROCESS commands, the operand registers standing as they are. -/
def Sys2Proof.Machine.Spec.processTimes (n : Nat) (s : State) : Result :=
  match n with
  | 0 => .next s
  | k + 1 =>
    match processTimes k s with
    | .next t => exec .revProcess t
    | .fault e => .fault e
    | .refused e => .refused e

/-- R256: after a REV_CLEAR or a REV_INIT that completes, every sample of a run of REV_PROCESS commands with input 0.0
is 0.0 on both channels, for a run of any length. REV_CLEAR starts from a reverberator that meets the invariant; of
REV_INIT nothing is asked. That the gains are finite at an alpha of 0 or 1 is the model's choice, deduced from R247 and
R255 (log entry 2). -/
def Obligations.SilenceStaysSilent : Prop :=
  ∀ (i : Instr) (s t : State) (a' : Operands) (n : Nat),
    (i = .revClear ∧ RevInv params s.rev ∨ ∃ pmask xmask, i = .revInit pmask xmask) →
    exec i s = .next t → t.status = 0 → isZero (readA a' 0) = true →
    ∃ u, Spec.processTimes (n + 1) { t with a := a' } = .next u ∧ isZero u.q0 = true ∧ isZero u.q1 = true

/-- R254: REV_PRINT changes no engine state and writes no result register: only STATUS is written; without an
instance it ends with NO_INSTANCE. -/
def Obligations.RevPrintOnlyWritesStatus : Prop :=
  ∀ s : State,
    (s.rev.present = true →
      exec .revPrint s = .next { s with status := 0 }) ∧
    (s.rev.present = false → exec .revPrint s = .next { s with status := 2 })
end

