-- ==== Sys2Proof/Laws/Binary32.lean ====
section
/-!
SUPPORT. What the binary32 operations can answer: the fields of a packed pattern, that rounding never gives a NaN,
the ranges of wrap and clamp, and the order on non-negative patterns.
-/

namespace Sys2Proof.Machine.F32

open Sys2Proof

/-! ### Packed patterns -/

theorem pack_toNat {s : Bool} {p : Nat} (h : p < 2 ^ 31) :
    (pack s p).toNat = p + if s then 2 ^ 31 else 0 := by
  unfold pack
  rw [BitVec.toNat_ofNat]
  apply Nat.mod_eq_of_lt
  split <;> omega

theorem sign_eq_decide (x : Num32) : sign x = decide (2 ^ 31 ≤ x.toNat) := by
  have h : sign x = x.msb := rfl
  rw [h, BitVec.msb_eq_decide]

theorem sign_pack {s : Bool} {p : Nat} (h : p < 2 ^ 31) : sign (pack s p) = s := by
  rw [sign_eq_decide, pack_toNat h]
  cases s
  · simp; omega
  · simp

theorem expo_pack {s : Bool} {p : Nat} (h : p < 2 ^ 31) : expo (pack s p) = p / 2 ^ 23 := by
  unfold expo
  rw [pack_toNat h]
  split <;> omega

theorem frac_pack {s : Bool} {p : Nat} (h : p < 2 ^ 31) : frac (pack s p) = p % 2 ^ 23 := by
  unfold frac
  rw [pack_toNat h]
  split <;> omega

/-- A pattern no greater than that of an infinity is no NaN. -/
theorem isNaN_pack {s : Bool} {p : Nat} (h : p ≤ infMag) : isNaN (pack s p) = false := by
  have h' : p < 2 ^ 31 := by unfold infMag at h; omega
  unfold infMag at h
  simp only [isNaN, expo_pack h', frac_pack h', Bool.and_eq_false_iff, beq_eq_false_iff_ne, bne_eq_false_iff_eq]
  omega

theorem key_pack {s : Bool} {p : Nat} (h : p < 2 ^ 31) :
    key (pack s p) = if s then -(p : Int) else (p : Int) := by
  unfold key
  rw [sign_pack h, pack_toNat h]
  cases s <;> simp <;> omega

/-! ### Rounding -/

theorem roundMag_le_infMag (n d : Nat) : roundMag n d ≤ infMag := Nat.min_le_right _ _

theorem isNaN_round (s : Bool) (n d : Nat) : isNaN (round s n d) = false := isNaN_pack (roundMag_le_infMag n d)

theorem roundMag_lt (n d : Nat) : roundMag n d < 2 ^ 31 :=
  Nat.lt_of_le_of_lt (roundMag_le_infMag n d) (by decide)

theorem sign_round (s : Bool) (n d : Nat) : sign (round s n d) = s := sign_pack (roundMag_lt n d)

/-- The significand the quotient leaves has at most 24 bits. -/
theorem significand_lt (n d : Nat) : n / (d * 2 ^ (Nat.log2 (n / d) - 23)) < 2 ^ 24 := by
  rw [← Nat.div_div_eq_div_mul]
  have h : n / d < 2 ^ (Nat.log2 (n / d) + 1) := Nat.lt_log2_self
  apply Nat.div_lt_of_lt_mul
  rw [← pow_add]
  exact Nat.lt_of_lt_of_le h (Nat.pow_le_pow_right (by decide) (by omega))

/-- A magnitude of at most 2^e units, e at least 23, rounds to a pattern no greater than that of 2^e. -/
theorem roundMag_le_of_lt {n d e : Nat} (he : 23 ≤ e) (h : n / d < 2 ^ e) :
    roundMag n d ≤ (e - 23) * 2 ^ 23 + 2 ^ 23 := by
  unfold roundMag
  simp only
  have hq := significand_lt n d
  generalize hk : Nat.log2 (n / d) - 23 = k at *
  have hke : k ≤ e - 24 ∨ n / d = 0 := by
    by_cases h0 : n / d = 0
    · exact .inr h0
    · refine .inl ?_
      have := (Nat.log2_lt h0).2 h
      omega
  have hup : ∀ c : Prop, [Decidable c] → (if c then 1 else 0) ≤ 1 := by
    intro c _; split <;> omega
  refine Nat.le_trans (Nat.min_le_left _ _) ?_
  rcases hke with hke | h0
  · by_cases h24 : e = 23
    · subst h24
      have hk0 : k = 0 := by omega
      subst hk0
      have : n / (d * 2 ^ 0) < 2 ^ 23 := by simpa using h
      have := hup (d * 2 ^ 0 < 2 * (n % (d * 2 ^ 0)) ∨ 2 * (n % (d * 2 ^ 0)) = d * 2 ^ 0 ∧ n / (d * 2 ^ 0) % 2 = 1)
      omega
    · have := hup (d * 2 ^ k < 2 * (n % (d * 2 ^ k)) ∨ 2 * (n % (d * 2 ^ k)) = d * 2 ^ k ∧ n / (d * 2 ^ k) % 2 = 1)
      omega
  · have hk0 : k = 0 := by rw [← hk, h0]; rfl
    subst hk0
    have : n / (d * 2 ^ 0) = 0 := by simpa using h0
    have := hup (d * 2 ^ 0 < 2 * (n % (d * 2 ^ 0)) ∨ 2 * (n % (d * 2 ^ 0)) = d * 2 ^ 0 ∧ n / (d * 2 ^ 0) % 2 = 1)
    omega

/-! ### NaN, sanitize, clamp -/

theorem nan_payload (op : NumOp) (x y : Num32) :
    ∃ s f, nan op x y = pack s (infMag + f) ∧ 0 < f ∧ f < 2 ^ 23 := by
  refine ⟨_, _, rfl, ?_, ?_⟩
  · show 0 < if frac (Config.nanFree op x y) = 0 then 1 else frac (Config.nanFree op x y)
    split <;> omega
  · show (if frac (Config.nanFree op x y) = 0 then 1 else frac (Config.nanFree op x y)) < 2 ^ 23
    have : frac (Config.nanFree op x y) < 2 ^ 23 := Nat.mod_lt _ (by decide)
    split <;> omega

/-- The free NaN is a NaN, whichever it is. -/
theorem isNaN_nan (op : NumOp) (x y : Num32) : isNaN (nan op x y) = true := by
  obtain ⟨s, f, he, h0, h1⟩ := nan_payload op x y
  have h' : infMag + f < 2 ^ 31 := by unfold infMag; omega
  rw [he, isNaN, expo_pack h', frac_pack h']
  simp only [Bool.and_eq_true, beq_iff_eq, bne_iff_ne]
  unfold infMag
  omega

theorem isFinite_of_isNaN {x : Num32} (h : isNaN x = true) : isFinite x = false := by
  simp only [isNaN, Bool.and_eq_true, beq_iff_eq] at h
  simp [isFinite, h.1]

theorem isNaN_of_isFinite {x : Num32} (h : isFinite x = true) : isNaN x = false := by
  by_contra hn
  rw [isFinite_of_isNaN (by simpa using hn)] at h
  exact absurd h (by decide)

theorem isInf_of_isFinite {x : Num32} (h : isFinite x = true) : isInf x = false := by
  simp only [isFinite, bne_iff_ne] at h
  simp [isInf, h]

@[simp] theorem isFinite_sanitize (v : Num32) : isFinite (sanitize v) = true := by
  unfold sanitize
  split
  · assumption
  · decide

theorem sanitize_of_isFinite {v : Num32} (h : isFinite v = true) : sanitize v = v := by simp [sanitize, h]

theorem le_iff {x y : Num32} : le x y = true ↔ isNaN x = false ∧ isNaN y = false ∧ key x ≤ key y := by
  simp [le, and_assoc]

theorem lt_iff {x y : Num32} : lt x y = true ↔ isNaN x = false ∧ isNaN y = false ∧ key x < key y := by
  simp [lt, and_assoc]

theorem le_of_lt {x y : Num32} (h : lt x y = true) : le x y = true := by
  rw [lt_iff] at h
  exact le_iff.2 ⟨h.1, h.2.1, by omega⟩

/-- A clamp between ordered bounds is between them, a NaN included (R12). -/
theorem clamp_range {x lo hi : Num32} (h : le lo hi = true) :
    le lo (clamp x lo hi) = true ∧ le (clamp x lo hi) hi = true := by
  obtain ⟨hlo, hhi, hk⟩ := le_iff.1 h
  have refl : ∀ {y : Num32}, isNaN y = false → le y y = true := fun hy => le_iff.2 ⟨hy, hy, le_refl _⟩
  unfold clamp
  split
  · exact ⟨refl hlo, h⟩
  · rename_i h1
    simp only [Bool.or_eq_true, not_or, Bool.not_eq_true] at h1
    split
    · exact ⟨h, refl hhi⟩
    · rename_i h2
      have hx := h1.1
      have a : ¬ key x < key lo := fun c => by
        have := lt_iff.2 ⟨hx, hlo, c⟩; simp [this] at h1
      have b : ¬ key hi < key x := fun c => h2 (lt_iff.2 ⟨hhi, hx, c⟩)
      exact ⟨le_iff.2 ⟨hlo, hx, by omega⟩, le_iff.2 ⟨hx, hhi, by omega⟩⟩

/-! ### Sign changes -/

theorem neg_toNat (x : Num32) :
    (neg x).toNat = if 2 ^ 31 ≤ x.toNat then x.toNat - 2 ^ 31 else x.toNat + 2 ^ 31 := by
  have hx := x.isLt
  have e : (neg x).toNat = x.toNat ^^^ 2 ^ 31 := by
    unfold neg; rw [BitVec.toNat_xor]; rfl
  have hm : (x.toNat ^^^ 2 ^ 31) % 2 ^ 31 = x.toNat % 2 ^ 31 := by
    rw [Nat.xor_mod_two_pow, Nat.mod_self, Nat.xor_zero]
  have hd : (x.toNat ^^^ 2 ^ 31) / 2 ^ 31 = (x.toNat / 2 ^ 31) ^^^ 1 := by
    rw [Nat.xor_div_two_pow, Nat.div_self (by decide)]
  rw [e]
  generalize x.toNat ^^^ 2 ^ 31 = z at *
  by_cases h : 2 ^ 31 ≤ x.toNat
  · have h1 : x.toNat / 2 ^ 31 = 1 := by omega
    rw [h1, Nat.xor_self] at hd
    rw [if_pos h]
    omega
  · have h1 : x.toNat / 2 ^ 31 = 0 := by omega
    rw [h1, Nat.zero_xor] at hd
    rw [if_neg h]
    omega

theorem sign_neg (x : Num32) : sign (neg x) = !sign x := by
  have hx := x.isLt
  rw [sign_eq_decide, sign_eq_decide, neg_toNat]
  by_cases h : 2 ^ 31 ≤ x.toNat
  · simp only [h, if_true, decide_true, Bool.not_true, decide_eq_false_iff_not]; omega
  · simp only [h, if_false, decide_false, Bool.not_false, decide_eq_true_eq]; omega

theorem expo_neg (x : Num32) : expo (neg x) = expo x := by
  have hx := x.isLt
  unfold expo
  rw [neg_toNat]
  split <;> omega

theorem frac_neg (x : Num32) : frac (neg x) = frac x := by
  have hx := x.isLt
  unfold frac
  rw [neg_toNat]
  split <;> omega

theorem mag_neg (x : Num32) : mag (neg x) = mag x := by simp [mag, expo_neg, frac_neg]

theorem fix_neg (x : Num32) : fix (neg x) = -fix x := by
  unfold fix
  rw [sign_neg, mag_neg]
  cases sign x <;> simp

theorem isFinite_neg (x : Num32) : isFinite (neg x) = isFinite x := by simp [isFinite, expo_neg]

theorem isNaN_neg (x : Num32) : isNaN (neg x) = isNaN x := by simp [isNaN, expo_neg, frac_neg]

/-! ### Exact values -/

theorem frac_lt (x : Num32) : frac x < 2 ^ 23 := Nat.mod_lt _ (by decide)

theorem expo_lt (x : Num32) : expo x < 2 ^ 8 := Nat.mod_lt _ (by decide)

/-- A value with a significand of at most 24 bits is packed exactly. -/
theorem mag_round {s : Bool} {q j : Nat} (hq : q < 2 ^ 24) (hn : q * 2 ^ j < 2 ^ 277) :
    mag (round s (q * 2 ^ j) 1) = q * 2 ^ j ∧ isFinite (round s (q * 2 ^ j) 1) = true := by
  generalize hN : q * 2 ^ j = n at *
  have hk := significand_lt n 1
  have key1 : roundMag n 1 = (Nat.log2 n - 23) * 2 ^ 23 + n / 2 ^ (Nat.log2 n - 23) ∧
      2 ^ (Nat.log2 n - 23) ∣ n ∧ (Nat.log2 n - 23 = 0 ∨ 2 ^ 23 ≤ n / 2 ^ (Nat.log2 n - 23)) ∧
      Nat.log2 n - 23 ≤ 253 := by
    have hlog : Nat.log2 n - 23 ≤ 253 := by
      by_cases h0 : n = 0
      · subst h0; decide
      · have := (Nat.log2_lt h0).2 hn
        omega
    have hdvd : 2 ^ (Nat.log2 n - 23) ∣ n := by
      by_cases hk0 : Nat.log2 n - 23 = 0
      · rw [hk0]; simp
      · have h0 : n ≠ 0 := by intro h; subst h; exact hk0 (by decide)
        have h1 : 2 ^ Nat.log2 n ≤ n := Nat.log2_self_le h0
        have hj : Nat.log2 n - 23 ≤ j := by
          by_contra hlt
          have h2 : n < 2 ^ 24 * 2 ^ j := by rw [← hN]; exact Nat.mul_lt_mul_of_pos_right hq (by positivity)
          rw [← pow_add] at h2
          have h3 : 2 ^ Nat.log2 n < 2 ^ (24 + j) := Nat.lt_of_le_of_lt h1 h2
          have := (Nat.pow_lt_pow_iff_right (by decide : 1 < 2)).1 h3
          omega
        have hd := Dvd.dvd.mul_left (Nat.pow_dvd_pow 2 hj) q
        rwa [hN] at hd
    have hbig : Nat.log2 n - 23 = 0 ∨ 2 ^ 23 ≤ n / 2 ^ (Nat.log2 n - 23) := by
      by_cases hk0 : Nat.log2 n - 23 = 0
      · exact .inl hk0
      · refine .inr ?_
        have h0 : n ≠ 0 := by intro h; subst h; exact hk0 (by decide)
        have h1 : 2 ^ Nat.log2 n ≤ n := Nat.log2_self_le h0
        rw [Nat.le_div_iff_mul_le (by positivity), ← pow_add]
        have : 23 + (Nat.log2 n - 23) = Nat.log2 n := by omega
        rw [this]; exact h1
    refine ⟨?_, hdvd, hbig, hlog⟩
    have hr : n % 2 ^ (Nat.log2 n - 23) = 0 := Nat.mod_eq_zero_of_dvd hdvd
    have hp : 0 < 2 ^ (Nat.log2 n - 23) := by positivity
    unfold roundMag
    simp only [Nat.div_one, one_mul, hr]
    rw [if_neg (by omega)]
    simp only [Nat.div_one, one_mul] at hk
    unfold infMag
    omega
  obtain ⟨hrm, hdvd, hbig, hlog⟩ := key1
  simp only [Nat.div_one, one_mul] at hk
  have hlt := roundMag_lt n 1
  have hmul : n / 2 ^ (Nat.log2 n - 23) * 2 ^ (Nat.log2 n - 23) = n := Nat.div_mul_cancel hdvd
  generalize Nat.log2 n - 23 = k at *
  generalize hQ : n / 2 ^ k = Q at *
  have hexpo := expo_pack (s := s) hlt
  have hfrac := frac_pack (s := s) hlt
  rw [hrm] at hexpo hfrac
  rcases hbig with hk0 | hbig
  · subst hk0
    simp only [pow_zero, mul_one, Nat.zero_mul, Nat.zero_add] at *
    unfold mag isFinite round
    rw [hrm, hexpo, hfrac]
    refine ⟨?_, ?_⟩
    · split
      · omega
      · have : Q / 2 ^ 23 = 1 := by omega
        rw [this]; simp; omega
    · simp only [bne_iff_ne]; omega
  · have he : expo (round s n 1) = k + 1 := by unfold round; rw [hrm, hexpo]; omega
    have hf : frac (round s n 1) = Q - 2 ^ 23 := by unfold round; rw [hrm, hfrac]; omega
    unfold mag isFinite
    rw [he, hf]
    refine ⟨?_, ?_⟩
    · rw [if_neg (by omega), Nat.add_sub_cancel, Nat.add_sub_cancel' hbig]
      exact hmul
    · simp only [bne_iff_ne]; omega

/-- Every finite value has a significand of at most 24 bits. -/
theorem mag_significand {x : Num32} (h : isFinite x = true) :
    ∃ q j, mag x = q * 2 ^ j ∧ q < 2 ^ 24 ∧ j ≤ 253 ∧ mag x < 2 ^ 277 := by
  have hf := frac_lt x
  have he := expo_lt x
  simp only [isFinite, bne_iff_ne] at h
  have hbound : ∀ {q j : Nat}, q < 2 ^ 24 → j ≤ 253 → q * 2 ^ j < 2 ^ 277 := by
    intro q j hq hj
    refine Nat.lt_of_lt_of_le (Nat.mul_lt_mul_of_pos_right hq (by positivity)) ?_
    rw [← Nat.pow_add]
    exact pow_le_pow_right₀ (by decide) (by omega)
  unfold mag
  split
  · exact ⟨frac x, 0, by simp, by omega, by omega, by
      have := hbound (q := frac x) (j := 0) (by omega) (by omega)
      rwa [pow_zero, mul_one] at this⟩
  · exact ⟨2 ^ 23 + frac x, expo x - 1, rfl, by omega, by omega, hbound (by omega) (by omega)⟩

theorem fix_natAbs (x : Num32) : (fix x).natAbs = mag x := by
  unfold fix; split <;> simp

/-! ### wrap -/

/-- `floor` of a finite value is exact: its multiple of 2^149 units, with the sign of x (R11). -/
theorem floor_exact {x : Num32} (h : isFinite x = true) :
    isFinite (floor x) = true ∧ sign (floor x) = sign x ∧
    fix (floor x) = fix x / (oneUnits : Int) * (oneUnits : Int) := by
  obtain ⟨q, j, hm, hq, hj, hlt⟩ := mag_significand h
  have hU : (oneUnits : Int) = 2 ^ 149 := by unfold oneUnits; norm_num
  have hU0 : (0 : Int) < 2 ^ 149 := by norm_num
  -- the rounding of floor's result is exact
  have hrep : ∃ q' j', (fix x / (oneUnits : Int)).natAbs * oneUnits = q' * 2 ^ j' ∧ q' < 2 ^ 24 ∧
      q' * 2 ^ j' < 2 ^ 277 := by
    by_cases hbig : 149 ≤ j
    · refine ⟨q, j, ?_, hq, by rw [← hm]; exact hlt⟩
      have hd : (2 : Int) ^ 149 ∣ fix x := by
        rw [← Int.dvd_natAbs, fix_natAbs, hm]
        exact_mod_cast Dvd.dvd.mul_left (Nat.pow_dvd_pow 2 hbig) q
      rw [hU]
      obtain ⟨c, hc⟩ := hd
      rw [hc, Int.mul_ediv_cancel_left _ (by norm_num)]
      have := fix_natAbs x
      rw [hc, Int.natAbs_mul, hm] at this
      rw [← this]
      unfold oneUnits
      rw [Nat.mul_comm]
      rfl
    · have hsmall : mag x < 2 ^ 172 := by
        rw [hm]
        calc q * 2 ^ j < 2 ^ 24 * 2 ^ j := Nat.mul_lt_mul_of_pos_right hq (by positivity)
          _ ≤ 2 ^ 24 * 2 ^ 148 := Nat.mul_le_mul_left _ (Nat.pow_le_pow_right (by decide) (by omega))
          _ = 2 ^ 172 := by rw [← pow_add]
      have hfix : -(2 ^ 172 : Int) < fix x ∧ fix x < 2 ^ 172 := by
        have := fix_natAbs x
        constructor <;> omega
      have hdiv : -(2 ^ 23 : Int) ≤ fix x / 2 ^ 149 ∧ fix x / 2 ^ 149 ≤ 2 ^ 23 := by
        constructor
        · exact (Int.le_ediv_iff_mul_le hU0).2 (by norm_num; omega)
        · exact Int.ediv_le_of_le_mul hU0 (by norm_num; omega)
      refine ⟨(fix x / (oneUnits : Int)).natAbs, 149, rfl, ?_, ?_⟩
      · rw [hU]; omega
      · rw [hU]
        have h1 : (fix x / 2 ^ 149).natAbs ≤ 2 ^ 23 := by omega
        refine Nat.lt_of_le_of_lt (Nat.mul_le_mul_right _ h1) ?_
        rw [← Nat.pow_add]
        exact pow_lt_pow_right₀ (by decide) (by decide)
  obtain ⟨q', j', he, hq', hlt'⟩ := hrep
  have hr := mag_round (s := sign x) hq' hlt'
  have hfl : floor x = round (sign x) (q' * 2 ^ j') 1 := by rw [← he]; simp [floor, h]
  refine ⟨by rw [hfl]; exact hr.2, by rw [hfl]; exact sign_round _ _ _, ?_⟩
  have hs : sign (floor x) = sign x := by rw [hfl]; exact sign_round _ _ _
  have hmag : mag (floor x) = (fix x / (oneUnits : Int)).natAbs * oneUnits := by rw [hfl, hr.1, he]
  have hcast : ((mag (floor x) : Nat) : Int) = ((fix x / (oneUnits : Int)).natAbs : Int) * (oneUnits : Int) := by
    rw [hmag]; push_cast; rfl
  rw [hU] at *
  have hfx : fix x = if sign x then -(mag x : Int) else (mag x : Int) := rfl
  unfold fix
  rw [hs, hcast]
  by_cases hsx : sign x = true
  · rw [if_pos hsx, ← Int.neg_mul]
    rw [if_pos hsx] at hfx
    have hnn : fix x / 2 ^ 149 ≤ 0 := by
      have : fix x / 2 ^ 149 ≤ 0 / 2 ^ 149 := Int.ediv_le_ediv hU0 (by omega)
      simpa using this
    have : -((fix x / 2 ^ 149).natAbs : Int) = fix x / 2 ^ 149 := by omega
    rw [this]; simp only [fix, hsx, if_true]
  · rw [if_neg hsx]
    rw [if_neg hsx] at hfx
    have hnn : 0 ≤ fix x / 2 ^ 149 := Int.ediv_nonneg (by omega) (by norm_num)
    have : ((fix x / 2 ^ 149).natAbs : Int) = fix x / 2 ^ 149 := by omega
    rw [this]; simp only [fix, hsx, if_false, Bool.false_eq_true]

theorem sub_of_finite {x y : Num32} (hx : isFinite x = true) (hy : isFinite y = true) :
    sub x y = if fix x - fix y = 0 then pack (sign x && !sign y) 0
      else round (decide (fix x - fix y < 0)) (fix x - fix y).natAbs 1 := by
  have hy' : isFinite (neg y) = true := by rw [isFinite_neg]; exact hy
  unfold sub addValues
  simp only [isNaN_of_isFinite hx, isNaN_of_isFinite hy, isInf_of_isFinite hx, isInf_of_isFinite hy', fix_neg,
    sign_neg, Bool.or_false, Bool.false_eq_true, if_false, ← sub_eq_add_neg]

theorem key_zero : key zero = 0 := by decide
theorem key_one : key one = 0x3F800000 := by decide

/-- The result of `wrap` is in [0,1), for every operand (R16, R43). -/
theorem wrap_range (x : Num32) : le zero (wrap x) = true ∧ lt (wrap x) one = true := by
  have hz : le zero zero = true ∧ lt zero one = true := by decide
  unfold wrap
  split
  · rename_i hx
    obtain ⟨hf, hs, hfix⟩ := floor_exact hx
    have hU : (oneUnits : Int) = 2 ^ 149 := by unfold oneUnits; norm_num
    have hmod : fix x - fix (floor x) = fix x % 2 ^ 149 := by
      rw [hfix, hU]; have := Int.emod_add_mul_ediv (fix x) (2 ^ 149); omega
    have h0 : 0 ≤ fix x % 2 ^ 149 := Int.emod_nonneg _ (by norm_num)
    have h1 : fix x % 2 ^ 149 < 2 ^ 149 := Int.emod_lt_of_pos _ (by norm_num)
    have hsub := sub_of_finite hx hf
    rw [hmod, hs] at hsub
    simp only
    split
    · exact hz
    · rename_i hle
      rw [hsub] at hle ⊢
      split
      · have : (sign x && !sign x) = false := by cases sign x <;> rfl
        rw [this]; exact by decide
      · rename_i hv
        rw [if_neg hv] at hle
        have hd : decide (fix x % 2 ^ 149 < 0) = false := by simp only [decide_eq_false_iff_not]; omega
        rw [hd] at hle ⊢
        have hlt := roundMag_lt (fix x % 2 ^ 149).natAbs 1
        have hkey : key (round false (fix x % 2 ^ 149).natAbs 1) = (roundMag (fix x % 2 ^ 149).natAbs 1 : Int) := by
          unfold round; rw [key_pack hlt]; simp
        have hn := isNaN_round false (fix x % 2 ^ 149).natAbs 1
        have hbound : roundMag (fix x % 2 ^ 149).natAbs 1 < 0x3F800000 := by
          by_contra hc
          exact hle (le_iff.2 ⟨by decide, hn, by rw [key_one, hkey]; omega⟩)
        exact ⟨le_iff.2 ⟨by decide, hn, by rw [key_zero, hkey]; omega⟩,
          lt_iff.2 ⟨hn, by decide, by rw [key_one, hkey]; omega⟩⟩
  · exact hz

/-! ### Rounding keeps the order -/

/-- Nearest integer, ties to even: `roundMag`'s last step. -/
theorem nearest_mono {n₁ d₁ n₂ d₂ : Nat} (h₁ : 0 < d₁) (h₂ : 0 < d₂) (h : n₁ * d₂ ≤ n₂ * d₁) :
    n₁ / d₁ + (if d₁ < 2 * (n₁ % d₁) ∨ (2 * (n₁ % d₁) = d₁ ∧ n₁ / d₁ % 2 = 1) then 1 else 0) ≤
    n₂ / d₂ + (if d₂ < 2 * (n₂ % d₂) ∨ (2 * (n₂ % d₂) = d₂ ∧ n₂ / d₂ % 2 = 1) then 1 else 0) := by
  have e₁ := Nat.div_add_mod n₁ d₁
  have e₂ := Nat.div_add_mod n₂ d₂
  have l₁ := Nat.mod_lt n₁ h₁
  have l₂ := Nat.mod_lt n₂ h₂
  generalize n₁ / d₁ = q₁ at *
  generalize n₁ % d₁ = r₁ at *
  generalize n₂ / d₂ = q₂ at *
  generalize n₂ % d₂ = r₂ at *
  subst e₁ e₂
  have hq : q₁ ≤ q₂ := by
    by_contra hc
    have : (q₂ + 1) * (d₁ * d₂) ≤ q₁ * (d₁ * d₂) := Nat.mul_le_mul_right _ (by omega)
    nlinarith [Nat.mul_pos h₁ h₂, Nat.mul_lt_mul_of_pos_right l₂ h₁]
  rcases Nat.lt_or_ge q₁ q₂ with hlt | hge
  · split <;> split <;> omega
  · have hqq : q₁ = q₂ := by omega
    subst hqq
    have hr : r₁ * d₂ ≤ r₂ * d₁ := by nlinarith
    split
    · rename_i hup
      rw [if_pos]
      rcases hup with hup | ⟨hup, hodd⟩
      · left
        by_contra hc
        have : d₁ * d₂ < 2 * r₁ * d₂ := Nat.mul_lt_mul_of_pos_right hup h₂
        nlinarith
      · have : d₂ ≤ 2 * r₂ := by
          by_contra hc
          have h3 : 2 * r₂ * d₁ < d₂ * d₁ := Nat.mul_lt_mul_of_pos_right (by omega) h₁
          nlinarith
        rcases Nat.lt_or_ge d₂ (2 * r₂) with hlt | hge
        · exact .inl hlt
        · exact .inr ⟨by omega, hodd⟩
    · omega

theorem log2_mono {a b : Nat} (h : a ≤ b) : Nat.log2 a ≤ Nat.log2 b := by
  rw [Nat.log2_eq_log_two, Nat.log2_eq_log_two]; exact Nat.log_mono_right h

/-- Rounding keeps the order of the exact values. -/
theorem roundMag_mono {n₁ d₁ n₂ d₂ : Nat} (h₁ : 0 < d₁) (h₂ : 0 < d₂) (h : n₁ * d₂ ≤ n₂ * d₁) :
    roundMag n₁ d₁ ≤ roundMag n₂ d₂ := by
  have hdiv : n₁ / d₁ ≤ n₂ / d₂ := by
    rw [Nat.le_div_iff_mul_le h₂]
    have h3 : n₁ / d₁ * d₂ * d₁ ≤ n₂ * d₁ := by
      calc n₁ / d₁ * d₂ * d₁ = n₁ / d₁ * d₁ * d₂ := by ring
        _ ≤ n₁ * d₂ := Nat.mul_le_mul_right _ (Nat.div_mul_le_self _ _)
        _ ≤ _ := h
    exact Nat.le_of_mul_le_mul_right h3 h₁
  have hk : Nat.log2 (n₁ / d₁) - 23 ≤ Nat.log2 (n₂ / d₂) - 23 := Nat.sub_le_sub_right (log2_mono hdiv) _
  have hs := significand_lt n₁ d₁
  have hbig : 0 < Nat.log2 (n₂ / d₂) - 23 → 2 ^ 23 ≤ n₂ / (d₂ * 2 ^ (Nat.log2 (n₂ / d₂) - 23)) := by
    intro hp
    rw [← Nat.div_div_eq_div_mul, Nat.le_div_iff_mul_le (by positivity), ← pow_add]
    have hne : n₂ / d₂ ≠ 0 := fun h0 => by rw [h0] at hp; simp at hp
    have := Nat.log2_self_le hne
    rwa [show 23 + (Nat.log2 (n₂ / d₂) - 23) = Nat.log2 (n₂ / d₂) by omega]
  unfold roundMag
  simp only
  generalize Nat.log2 (n₁ / d₁) - 23 = k₁ at *
  generalize Nat.log2 (n₂ / d₂) - 23 = k₂ at *
  refine min_le_min_right _ ?_
  rcases Nat.lt_or_ge k₁ k₂ with hlt | hge
  · have := hbig (by omega)
    generalize n₂ / (d₂ * 2 ^ k₂) = q₂ at *
    generalize n₁ / (d₁ * 2 ^ k₁) = q₁ at *
    have hup : ∀ p : Prop, [Decidable p] → (if p then 1 else 0) ≤ 1 := fun p _ => by split <;> omega
    split <;> split <;> omega
  · have hkk : k₁ = k₂ := by omega
    subst hkk
    refine Nat.add_le_add_left (nearest_mono (by positivity) (by positivity) ?_) _
    calc n₁ * (d₂ * 2 ^ k₁) = n₁ * d₂ * 2 ^ k₁ := by ring
      _ ≤ n₂ * d₁ * 2 ^ k₁ := Nat.mul_le_mul_right _ h
      _ = _ := by ring

/-- The magnitudes of two patterns are ordered as the patterns are. -/
theorem mag_mono {x y : Num32} (h : x.toNat % 2 ^ 31 ≤ y.toNat % 2 ^ 31) : mag x ≤ mag y := by
  have hx := frac_lt x
  have hy := frac_lt y
  have ex : x.toNat % 2 ^ 31 = expo x * 2 ^ 23 + frac x := by unfold expo frac; omega
  have ey : y.toNat % 2 ^ 31 = expo y * 2 ^ 23 + frac y := by unfold expo frac; omega
  rw [ex, ey] at h
  unfold mag
  generalize expo x = a at *
  generalize frac x = f at *
  generalize expo y = b at *
  generalize frac y = g at *
  split
  · split
    · omega
    · have : 1 ≤ 2 ^ (b - 1) := Nat.one_le_two_pow
      nlinarith
  · rw [if_neg (by omega)]
    rcases Nat.lt_or_ge a b with hlt | hge
    · calc (2 ^ 23 + f) * 2 ^ (a - 1) ≤ (2 ^ 24) * 2 ^ (a - 1) := Nat.mul_le_mul_right _ (by omega)
        _ = 2 ^ 23 * 2 ^ a := by rw [← pow_add, ← pow_add]; congr 1; omega
        _ ≤ 2 ^ 23 * 2 ^ (b - 1) := Nat.mul_le_mul_left _ (Nat.pow_le_pow_right (by decide) (by omega))
        _ ≤ _ := Nat.mul_le_mul_right _ (by omega)
    · have hab : a = b := by omega
      subst hab
      exact Nat.mul_le_mul_right _ (by omega)

/-- A finite magnitude is a pattern that rounding gives back. -/
theorem roundMag_mag {x : Num32} (h : isFinite x = true) : mag (round (sign x) (mag x) 1) = mag x := by
  obtain ⟨q, j, hm, hq, -, hlt⟩ := mag_significand h
  rw [hm] at hlt ⊢
  exact (mag_round hq hlt).1

/-! ### Finite operands -/

theorem isZero_iff {x : Num32} : isZero x = true ↔ mag x = 0 := by
  simp only [isZero, Bool.and_eq_true, beq_iff_eq, mag]
  constructor
  · rintro ⟨he, hf⟩; rw [if_pos he, hf]
  · split
    · rename_i he; exact fun h => ⟨he, h⟩
    · intro h
      have : 0 < (2 ^ 23 + frac x) * 2 ^ (expo x - 1) := by positivity
      omega

theorem isFinite_of_isZero {x : Num32} (h : isZero x = true) : isFinite x = true := by
  simp only [isZero, Bool.and_eq_true, beq_iff_eq] at h
  simp [isFinite, h.1]

theorem isFinite_round {s : Bool} {n d : Nat} : isFinite (round s n d) = true ↔ roundMag n d < infMag := by
  have h := roundMag_le_infMag n d
  unfold round isFinite
  rw [expo_pack (roundMag_lt n d), bne_iff_ne]
  unfold infMag at *
  omega

/-- A value is finite exactly when it is neither a NaN nor an infinity (R11). -/
theorem isFinite_iff {x : Num32} : isFinite x = true ↔ isNaN x = false ∧ isInf x = false := by
  simp only [isFinite, isNaN, isInf, bne_iff_ne, Bool.and_eq_false_iff, beq_eq_false_iff_ne, bne_eq_false_iff_eq]
  omega

theorem toNat_round (s : Bool) (n d : Nat) : (round s n d).toNat % 2 ^ 31 = roundMag n d := by
  have := roundMag_lt n d
  unfold round
  rw [pack_toNat this]
  split <;> omega

theorem key_of_sign {x : Num32} (h : sign x = false) : key x = (x.toNat % 2 ^ 31 : Nat) := by simp [key, h]

theorem sign_of_pos {x : Num32} (h : 0 < key x) : sign x = false := by
  unfold key at h
  by_contra hc
  simp only [Bool.not_eq_false] at hc
  rw [if_pos hc] at h
  omega

/-- A product of finite values (R8). -/
theorem mul_of_finite {x y : Num32} (hx : isFinite x = true) (hy : isFinite y = true) :
    mul x y = round (sign x != sign y) (mag x * mag y) oneUnits := by
  simp [mul, isNaN_of_isFinite hx, isNaN_of_isFinite hy, isInf_of_isFinite hx, isInf_of_isFinite hy]

/-- A quotient of finite values by one that is no zero (R8). -/
theorem div_of_finite {x y : Num32} (hx : isFinite x = true) (hy : isFinite y = true) (h0 : isZero y = false) :
    div x y = round (sign x != sign y) (mag x * oneUnits) (mag y) := by
  simp [div, isNaN_of_isFinite hx, isNaN_of_isFinite hy, isInf_of_isFinite hx, isInf_of_isFinite hy, h0]

theorem isFinite_nan (op : NumOp) (x y : Num32) : isFinite (nan op x y) = false :=
  isFinite_of_isNaN (isNaN_nan op x y)

theorem isFinite_infinity (s : Bool) : isFinite (infinity s) = false := by cases s <;> decide

/-- A finite product has finite factors. -/
theorem finite_of_mul {x y : Num32} (h : isFinite (mul x y) = true) : isFinite x = true ∧ isFinite y = true := by
  unfold mul at h
  simp only at h
  split at h
  · simp [isFinite_nan] at h
  · rename_i hn
    split at h
    · split at h
      · simp [isFinite_nan] at h
      · simp [isFinite_infinity] at h
    · rename_i hi
      simp only [Bool.or_eq_true, not_or, Bool.not_eq_true] at hn hi
      exact ⟨isFinite_iff.2 ⟨hn.1, hi.1⟩, isFinite_iff.2 ⟨hn.2, hi.2⟩⟩

/-- A finite quotient has a finite dividend. -/
theorem finite_of_div {x y : Num32} (h : isFinite (div x y) = true) : isFinite x = true := by
  unfold div at h
  simp only at h
  split at h
  · simp [isFinite_nan] at h
  · rename_i hn
    split at h
    · split at h
      · simp [isFinite_nan] at h
      · simp [isFinite_infinity] at h
    · rename_i hi
      simp only [Bool.or_eq_true, not_or, Bool.not_eq_true] at hn hi
      exact isFinite_iff.2 ⟨hn.1, hi⟩

/-- Rounding is monotone as far as the result is finite. -/
theorem round_mono {s : Bool} {n₁ d₁ n₂ d₂ : Nat} (h₁ : 0 < d₁) (h₂ : 0 < d₂) (h : n₁ * d₂ ≤ n₂ * d₁)
    (hf : isFinite (round s n₂ d₂) = true) :
    isFinite (round s n₁ d₁) = true ∧ mag (round s n₁ d₁) ≤ mag (round s n₂ d₂) := by
  have hm := roundMag_mono h₁ h₂ h
  rw [isFinite_round] at hf ⊢
  exact ⟨by omega, mag_mono (by rwa [toNat_round, toNat_round])⟩

theorem roundHalfAway_of_pos {x : Num32} (hf : isFinite x = true) (hs : sign x = false) :
    roundHalfAway x = ((2 * mag x + oneUnits) / (2 * oneUnits) : Nat) := by simp [roundHalfAway, hf, hs]

/-! ### Zeros -/

theorem roundMag_zero (d : Nat) : roundMag 0 d = 0 := by simp [roundMag]

theorem isZero_pack (s : Bool) : isZero (pack s 0) = true := by cases s <;> decide

theorem fix_of_isZero {x : Num32} (h : isZero x = true) : fix x = 0 := by
  have := fix_natAbs x
  rw [isZero_iff.1 h] at this
  omega

theorem isZero_neg {x : Num32} (h : isZero x = true) : isZero (neg x) = true := by
  rw [isZero_iff] at *; rw [mag_neg]; exact h

theorem isZero_sanitize {x : Num32} (h : isZero x = true) : isZero (sanitize x) = true := by
  rw [sanitize_of_isFinite (isFinite_of_isZero h)]; exact h

theorem isZero_mul_left {x y : Num32} (hx : isZero x = true) (hy : isFinite y = true) : isZero (mul x y) = true := by
  rw [mul_of_finite (isFinite_of_isZero hx) hy, isZero_iff.1 hx, Nat.zero_mul, F32.round, roundMag_zero]
  exact isZero_pack _

theorem isZero_mul_right {x y : Num32} (hx : isFinite x = true) (hy : isZero y = true) : isZero (mul x y) = true := by
  rw [mul_of_finite hx (isFinite_of_isZero hy), isZero_iff.1 hy, Nat.mul_zero, F32.round, roundMag_zero]
  exact isZero_pack _

theorem isZero_addValues {op : NumOp} {x y : Num32} (hx : isZero x = true) (hy : isZero y = true) :
    isZero (addValues op x y) = true := by
  simp only [addValues, isInf_of_isFinite (isFinite_of_isZero hx), isInf_of_isFinite (isFinite_of_isZero hy),
    fix_of_isZero hx, fix_of_isZero hy, Bool.false_eq_true, if_false, Int.add_zero, if_true]
  exact isZero_pack _

theorem isZero_add {x y : Num32} (hx : isZero x = true) (hy : isZero y = true) : isZero (add x y) = true := by
  simp only [add, isNaN_of_isFinite (isFinite_of_isZero hx), isNaN_of_isFinite (isFinite_of_isZero hy),
    Bool.or_self, Bool.false_eq_true, if_false]
  exact isZero_addValues hx hy

theorem isZero_sub {x y : Num32} (hx : isZero x = true) (hy : isZero y = true) : isZero (sub x y) = true := by
  simp only [sub, isNaN_of_isFinite (isFinite_of_isZero hx), isNaN_of_isFinite (isFinite_of_isZero hy),
    Bool.or_self, Bool.false_eq_true, if_false]
  exact isZero_addValues hx (isZero_neg hy)

/-! ### The unit interval -/

/-- A value in [0,1] is finite, and its units lie between those of 0 and of 1. -/
theorem unit_fix {c : Num32} (h0 : le zero c = true) (h1 : le c one = true) :
    isFinite c = true ∧ 0 ≤ fix c ∧ fix c ≤ oneUnits := by
  obtain ⟨-, hn, hk0⟩ := le_iff.1 h0
  obtain ⟨-, -, hk1⟩ := le_iff.1 h1
  rw [key_zero] at hk0
  rw [key_one] at hk1
  have hpat : c.toNat % 2 ^ 31 ≤ 0x3F800000 ∧ (sign c = true → c.toNat % 2 ^ 31 = 0) := by
    unfold key at hk0 hk1
    split at hk0 <;> rename_i hs
    · rw [if_pos hs] at hk1; exact ⟨by omega, fun _ => by omega⟩
    · rw [if_neg hs] at hk1; exact ⟨by omega, fun h => absurd h hs⟩
  have hm : mag c ≤ mag one := mag_mono (by
    have : one.toNat % 2 ^ 31 = 0x3F800000 := by decide
    omega)
  have hone : mag one = oneUnits := by decide
  have hf : isFinite c = true := by
    simp only [isFinite, bne_iff_ne, expo]; omega
  refine ⟨hf, ?_, ?_⟩
  · unfold fix
    split
    · rename_i hs
      have : mag c ≤ mag zero := mag_mono (by
        have h3 := hpat.2 hs
        omega)
      have hz : mag zero = 0 := by decide
      omega
    · omega
  · unfold fix; split <;> omega

/-- The complement of a value in [0,1] is in [0,1] (the damper's 1 - c, 43_rev_process.md R240). -/
theorem sub_one_range {c : Num32} (h0 : le zero c = true) (h1 : le c one = true) :
    isFinite (sub one c) = true ∧ le zero (sub one c) = true ∧ le (sub one c) one = true := by
  obtain ⟨hf, hc0, hc1⟩ := unit_fix h0 h1
  have hone : isFinite one = true ∧ sign one = false ∧ fix one = (oneUnits : Int) := by decide
  rw [sub_of_finite hone.1 hf, hone.2.1, hone.2.2]
  split
  · rw [Bool.false_and]; decide
  · have hd : decide ((oneUnits : Int) - fix c < 0) = false := by simp only [decide_eq_false_iff_not]; omega
    rw [hd]
    have hm : roundMag ((oneUnits : Int) - fix c).natAbs 1 ≤ 0x3F800000 := by
      refine Nat.le_trans (roundMag_mono (n₂ := oneUnits) Nat.one_pos Nat.one_pos (by omega)) ?_
      decide +kernel
    have hlt := roundMag_lt ((oneUnits : Int) - fix c).natAbs 1
    have hkey : key (round false ((oneUnits : Int) - fix c).natAbs 1) =
        (roundMag ((oneUnits : Int) - fix c).natAbs 1 : Int) := by
      unfold round; rw [key_pack hlt]; simp
    have hn := isNaN_round false ((oneUnits : Int) - fix c).natAbs 1
    refine ⟨?_, le_iff.2 ⟨by decide, hn, by rw [key_zero, hkey]; omega⟩,
      le_iff.2 ⟨hn, by decide, by rw [key_one, hkey]; omega⟩⟩
    rw [isFinite_round]
    have : infMag = 0x7F800000 := rfl
    omega

/-- `abs` does not see the sign (R11). -/
theorem abs_neg (x : Num32) : F32.abs (neg x) = F32.abs x := by
  have h : ∀ j : Fin 32, ((0x80000000#32)[j] && (0x7FFFFFFF#32)[j]) = false := by decide
  unfold F32.abs neg
  ext i hi
  have hm : ((0x80000000#32)[i] && (0x7FFFFFFF#32)[i]) = false := h ⟨i, hi⟩
  simp only [BitVec.getElem_and, BitVec.getElem_xor]
  revert hm
  cases x[i] <;> cases (0x80000000#32)[i] <;> cases (0x7FFFFFFF#32)[i] <;> decide

theorem sign_abs (x : Num32) : sign (F32.abs x) = false := by
  have h := BitVec.toNat_and x 0x7FFFFFFF#32
  have hle : x.toNat &&& 0x7FFFFFFF ≤ 0x7FFFFFFF := Nat.and_le_right
  rw [sign_eq_decide]
  unfold F32.abs
  rw [h]
  simp only [BitVec.reduceToNat, decide_eq_false_iff_not]
  omega

/-! ### Order -/

theorem le_trans_num {x y z : Num32} (h1 : le x y = true) (h2 : le y z = true) : le x z = true := by
  obtain ⟨hx, -, hk1⟩ := le_iff.1 h1
  obtain ⟨-, hz, hk2⟩ := le_iff.1 h2
  exact le_iff.2 ⟨hx, hz, Int.le_trans hk1 hk2⟩

/-- What is no less than 0 and is no zero is above 0. -/
theorem lt_zero_of_le {e : Num32} (he : le zero e = true) (hz : isZero e = false) : lt zero e = true := by
  obtain ⟨-, hn, hk⟩ := le_iff.1 he
  refine lt_iff.2 ⟨by decide, hn, ?_⟩
  rw [key_zero] at hk ⊢
  rcases Int.lt_or_eq_of_le hk with h | h
  · exact h
  · have hm : e.toNat % 2 ^ 31 = 0 := by
      unfold key at h
      split at h <;> omega
    simp only [isZero, Bool.and_eq_false_iff, beq_eq_false_iff_ne, expo, frac] at hz
    omega

theorem neg_neg_num (x : Num32) : neg (neg x) = x := by
  unfold neg
  rw [BitVec.xor_assoc, BitVec.xor_self, BitVec.xor_zero]

/-- `num(n)` of a positive n is 1.0 or more (R10). -/
theorem one_le_ofNat {n : Nat} (h : 0 < n) : le one (ofNat n) = true := by
  have h1 : roundMag oneUnits 1 ≤ roundMag (n * oneUnits) 1 :=
    roundMag_mono Nat.one_pos Nat.one_pos (by rw [Nat.mul_one, Nat.mul_one]; exact Nat.le_mul_of_pos_left _ h)
  have h2 : roundMag oneUnits 1 = 0x3F800000 := by decide +kernel
  refine le_iff.2 ⟨by decide, isNaN_round _ _ _, ?_⟩
  unfold ofNat round
  rw [key_one, key_pack (roundMag_lt _ _), if_neg Bool.false_ne_true]
  omega

/-! ### Magnitudes -/

/-- A product with a factor of magnitude at most 1 is no greater than the other factor. -/
theorem mag_mul_le {x y : Num32} (hx : isFinite x = true) (hy : isFinite y = true) (h1 : mag y ≤ oneUnits) :
    isFinite (mul x y) = true ∧ mag (mul x y) ≤ mag x := by
  obtain ⟨q, j, hm, hq, -, hlt⟩ := mag_significand hx
  have hself := mag_round (s := sign x != sign y) hq (by rw [← hm]; exact hlt)
  rw [← hm] at hself
  have hU : 0 < oneUnits := by unfold oneUnits; positivity
  have h := round_mono (s := sign x != sign y) (n₁ := mag x * mag y) (n₂ := mag x) hU Nat.one_pos
    (by rw [Nat.mul_one]; exact Nat.mul_le_mul_left _ h1) hself.2
  rw [mul_of_finite hx hy]
  rw [hself.1] at h
  exact h

/-- What is no greater than 1 in magnitude has at most the units of 1.0. -/
theorem mag_le_of_abs {x : Num32} (h : le (F32.abs x) one = true) : isFinite x = true ∧ mag x ≤ oneUnits := by
  obtain ⟨hn, -, hk⟩ := le_iff.1 h
  rw [key_of_sign (sign_abs x), key_one] at hk
  have ha : (F32.abs x).toNat = x.toNat % 2 ^ 31 := by
    unfold F32.abs
    rw [BitVec.toNat_and]
    exact Nat.and_two_pow_sub_one_eq_mod x.toNat 31
  rw [ha] at hk
  have hone : one.toNat % 2 ^ 31 = 0x3F800000 ∧ mag one = oneUnits := by decide
  refine ⟨?_, hone.2 ▸ mag_mono (by omega)⟩
  simp only [isFinite, bne_iff_ne, expo]
  omega

theorem natAbs_trunc {x : Num32} (h : isFinite x = true) : (trunc x).natAbs = mag x / oneUnits := by
  unfold trunc
  rw [if_pos h]
  split
  · exact (Int.natAbs_neg _).trans (Int.natAbs_natCast _)
  · exact Int.natAbs_natCast _

end Sys2Proof.Machine.F32
end

