-- ==== Sys2Proof/Laws/Capacity.lean ====
section
/-!
SUPPORT. What the capacity check buys: a room that is no greater than the largest one has a finite largest delay and
branches no longer than the largest one's (42_rev_params.md R193, R195).
-/

namespace Sys2Proof.Machine

open Sys2Proof F32

/-- The largest delay of a room no greater than the largest room is no greater than the largest room's, which the
capacity check has found finite (R193, R195). -/
theorem largestDelayOf_le {sr : Word} {size maxsize : Num32} (hlo : le num0_1 size = true)
    (hhi : le size maxsize = true) (hcap : isFinite (largestDelayOf sr maxsize) = true) :
    isFinite (largestDelayOf sr size) = true ∧ sign (largestDelayOf sr size) = false ∧
    sign (largestDelayOf sr maxsize) = false ∧ mag (largestDelayOf sr size) ≤ mag (largestDelayOf sr maxsize) := by
  obtain ⟨-, hns, hk⟩ := le_iff.1 hlo
  obtain ⟨-, hnm, hk2⟩ := le_iff.1 hhi
  have hk0 : key num0_1 = 0x3DCCCCCD := by decide
  rw [hk0] at hk
  have hss := sign_of_pos (x := size) (by omega)
  have hsm := sign_of_pos (x := maxsize) (by omega)
  have hfm := finite_of_div hcap
  obtain ⟨hfr, hfx⟩ := finite_of_mul hfm
  have hpat : size.toNat % 2 ^ 31 ≤ maxsize.toNat % 2 ^ 31 := by
    rw [key_of_sign hss, key_of_sign hsm] at hk2; omega
  have hfs : isFinite size = true := by
    have := expo_lt size
    have := frac_lt size
    have := frac_lt maxsize
    have ex : size.toNat % 2 ^ 31 = expo size * 2 ^ 23 + frac size := by unfold expo frac; omega
    have ey : maxsize.toNat % 2 ^ 31 = expo maxsize * 2 ^ 23 + frac maxsize := by unfold expo frac; omega
    have := expo_lt maxsize
    simp only [isFinite, bne_iff_ne] at hfx ⊢
    omega
  have hmag := mag_mono hpat
  have hsr : sign (ofNat sr.toNat) = false := sign_round _ _ _
  have h340 : isFinite num340 = true ∧ isZero num340 = false ∧ sign num340 = false := by decide
  have hU : 0 < oneUnits := by unfold oneUnits; positivity
  have hp340 : 0 < mag num340 := by
    rcases Nat.eq_zero_or_pos (mag num340) with h | h
    · rw [isZero_iff.2 h] at h340; simp at h340
    · exact h
  rw [mul_of_finite hfr hfx, hsr, hsm] at hfm
  have hmul := round_mono (n₁ := mag (ofNat sr.toNat) * mag size) hU hU
    (Nat.mul_le_mul_right _ (Nat.mul_le_mul_left _ hmag)) hfm
  unfold largestDelayOf at hcap ⊢
  rw [mul_of_finite hfr hfx, hsr, hsm] at hcap ⊢
  rw [mul_of_finite hfr hfs, hsr, hss]
  rw [div_of_finite hfm h340.1 h340.2.1] at hcap ⊢
  rw [div_of_finite hmul.1 h340.1 h340.2.1]
  have hdiv := round_mono (n₁ := mag (round (false != false) (mag (ofNat sr.toNat) * mag size) oneUnits) * oneUnits)
    hp340 hp340 (Nat.mul_le_mul_right _ (Nat.mul_le_mul_right _ hmul.2)) hcap
  simp only [sign_round, h340.2.2, bne_self_eq_false] at hdiv ⊢
  exact ⟨hdiv.1, trivial, trivial, hdiv.2⟩

theorem halves_mono {a b : Nat} (u : Nat) (h : a ≤ b) : (2 * a + u) / (2 * u) ≤ (2 * b + u) / (2 * u) :=
  Nat.div_le_div_right (Nat.add_le_add_right (Nat.mul_le_mul_left _ h) _)

/-- A room that fits has branches that fit (R193, R195). -/
theorem lenOf_le {ld ldMax ratio : Num32} {cap : Nat} (hcap : 1 ≤ cap) (hf : isFinite ld = true)
    (hs : sign ld = false) (hfm : isFinite ldMax = true) (hsm : sign ldMax = false) (hle : mag ld ≤ mag ldMax)
    (hmax : roundHalfAway ldMax ≤ (cap : Int)) (hr : isFinite ratio = true) (hrs : sign ratio = false)
    (hr1 : mag ratio ≤ oneUnits) : lenOf ld ratio ≤ cap := by
  have hU : 0 < oneUnits := by unfold oneUnits; positivity
  have hself := roundMag_mag hf
  have hfself : isFinite (round (sign ld) (mag ld) 1) = true := by
    obtain ⟨q, j, hm, hq, -, hlt⟩ := mag_significand hf
    rw [hm] at hlt ⊢
    exact (mag_round hq hlt).2
  rw [hs] at hself hfself
  have hm := round_mono (s := false) (n₁ := mag ld * mag ratio) (n₂ := mag ld) hU Nat.one_pos
    (by rw [Nat.mul_one]; exact Nat.mul_le_mul_left _ hr1) hfself
  unfold lenOf
  rw [mul_of_finite hf hr, hs, hrs, bne_self_eq_false, roundHalfAway_of_pos hm.1 (sign_round _ _ _)]
  rw [roundHalfAway_of_pos hfm hsm] at hmax
  rw [hself] at hm
  have hd := halves_mono oneUnits (Nat.le_trans hm.2 hle)
  generalize (2 * mag (round false (mag ld * mag ratio) oneUnits) + oneUnits) / (2 * oneUnits) = a at hd ⊢
  generalize (2 * mag ldMax + oneUnits) / (2 * oneUnits) = b at hd hmax
  clear hm hself hfself hU hr1 hle
  omega

end Sys2Proof.Machine
end

