-- ==== Sys2Proof/Laws/Memory.lean ====
section
/-!
SUPPORT. The laws of the delay RAMs: a read after a write, and that every operation keeps the canonical form, the
line's form and the finiteness of its words (20_memory.md R83 to R86).
-/

namespace Sys2Proof.Machine

open Sys2Proof F32

namespace Memory

/-- The word written is read back, and every other position reads as before. -/
theorem read_write {m : Memory} (h : wf m = true) (k j : Nat) (v : Num32) :
    read (write m k v) j = if j = k then v else read m j := by
  induction m with
  | nil =>
    unfold write
    by_cases hv : v = zero
    · simp [hv, read]
    · simp only [hv, if_false, read, eq_comm]
  | cons c t ih =>
    obtain ⟨i, u⟩ := c
    simp only [wf, Bool.and_eq_true, bne_iff_ne, List.all_eq_true, decide_eq_true_eq] at h
    obtain ⟨⟨hu, hall⟩, hwf⟩ := h
    have hfar : ∀ n, n ≤ i → read t n = zero := by
      intro n hn
      clear ih hwf
      induction t with
      | nil => rfl
      | cons c t ih =>
        have := hall c (by simp)
        simp only [read]
        rw [if_neg (by omega)]
        exact ih (fun x hx => hall x (by simp [hx]))
    unfold write
    split
    · rename_i hki
      split
      · rename_i hv
        subst hv
        by_cases hj : j = k
        · subst hj
          simp only [if_true, read]
          rw [if_neg (by omega), hfar j (by omega)]
        · rw [if_neg hj]
      · simp only [read, eq_comm]
    · split
      · rename_i hki hik
        subst hik
        split
        · rename_i hv
          subst hv
          by_cases hj : j = i
          · subst hj; rw [if_pos rfl, hfar j (le_refl _)]
          · rw [if_neg hj]; simp only [read]; rw [if_neg (fun h => hj h.symm)]
        · simp only [read]
          by_cases hj : j = i
          · simp [hj]
          · rw [if_neg (fun h => hj h.symm), if_neg hj, if_neg (fun h => hj h.symm)]
      · rename_i hki hik
        simp only [read]
        rw [ih hwf]
        by_cases hj : i = j
        · subst hj; simp [hik]
        · simp [hj]

/-- Where the entries of a written memory come from. -/
theorem mem_write {m : Memory} {k : Nat} {v : Num32} {c : Nat × Num32} (h : c ∈ write m k v) :
    c = (k, v) ∨ c ∈ m := by
  induction m with
  | nil =>
    unfold write at h
    split at h
    · exact absurd h (by simp)
    · exact .inl (by simpa using h)
  | cons d t ih =>
    obtain ⟨i, u⟩ := d
    unfold write at h
    split at h
    · split at h
      · exact .inr h
      · rcases List.mem_cons.1 h with h | h
        · exact .inl h
        · exact .inr h
    · split at h
      · split at h
        · exact .inr (List.mem_cons_of_mem _ h)
        · rcases List.mem_cons.1 h with h | h
          · exact .inl h
          · exact .inr (List.mem_cons_of_mem _ h)
      · rcases List.mem_cons.1 h with h | h
        · exact .inr (h ▸ List.mem_cons_self)
        · rcases ih h with h | h
          · exact .inl h
          · exact .inr (List.mem_cons_of_mem _ h)

/-- A write keeps the canonical form. -/
theorem wf_write {m : Memory} (h : wf m = true) (k : Nat) (v : Num32) : wf (write m k v) = true := by
  induction m with
  | nil =>
    unfold write
    split
    · rfl
    · rename_i hv
      simp [wf, hv]
  | cons c t ih =>
    obtain ⟨i, u⟩ := c
    have h0 := h
    simp only [wf, Bool.and_eq_true, bne_iff_ne, List.all_eq_true, decide_eq_true_eq] at h
    obtain ⟨⟨hu, hall⟩, hwf⟩ := h
    unfold write
    split
    · rename_i hki
      split
      · exact h0
      · rename_i hv
        have hrest : ∀ d ∈ (i, u) :: t, k < d.1 := by
          intro d hd
          rcases List.mem_cons.1 hd with hd | hd
          · subst hd; exact hki
          · exact lt_trans hki (hall d hd)
        rw [wf]
        simp only [Bool.and_eq_true, bne_iff_ne, List.all_eq_true, decide_eq_true_eq]
        exact ⟨⟨hv, hrest⟩, h0⟩
    · split
      · rename_i hik
        subst hik
        split
        · exact hwf
        · rename_i hv
          rw [wf]
          simp only [Bool.and_eq_true, bne_iff_ne, List.all_eq_true, decide_eq_true_eq]
          exact ⟨⟨hv, hall⟩, hwf⟩
      · rename_i hki hik
        rw [wf]
        simp only [Bool.and_eq_true, bne_iff_ne, List.all_eq_true, decide_eq_true_eq]
        refine ⟨⟨hu, fun d hd => ?_⟩, ih hwf⟩
        rcases mem_write hd with rfl | hd
        · simp only; omega
        · exact hall d hd

end Memory

/-! ### Delay lines -/

theorem DelayLine.wf_iff {L : DelayLine} :
    L.wf = true ↔ L.idx < L.size ∧ Memory.wf L.buf = true ∧ ∀ c ∈ L.buf, c.1 < L.size := by
  simp [DelayLine.wf, and_assoc]

theorem DelayLine.finite_iff {L : DelayLine} : L.finite = true ↔ ∀ c ∈ L.buf, isFinite c.2 = true := by
  simp [DelayLine.finite]

@[simp] theorem dlWrite_size (L : DelayLine) (v : Num32) : (dlWrite L v).size = L.size := rfl
@[simp] theorem dlWrite_idx (L : DelayLine) (v : Num32) : (dlWrite L v).idx = (L.idx + 1) % L.size := rfl
@[simp] theorem dlRealloc_size (L : DelayLine) (n : Nat) : (dlRealloc L n).size = n := rfl
@[simp] theorem dlRealloc_idx (L : DelayLine) (n : Nat) : (dlRealloc L n).idx = 0 := rfl
@[simp] theorem dlRealloc_buf (L : DelayLine) (n : Nat) : (dlRealloc L n).buf = [] := rfl
@[simp] theorem dlClear_size (L : DelayLine) : (dlClear L).size = L.size := rfl
@[simp] theorem dlClear_idx (L : DelayLine) : (dlClear L).idx = 0 := rfl
@[simp] theorem dlClear_buf (L : DelayLine) : (dlClear L).buf = [] := rfl

theorem dlWrite_wf {L : DelayLine} (h : L.wf = true) (v : Num32) : (dlWrite L v).wf = true := by
  rw [DelayLine.wf_iff] at h ⊢
  obtain ⟨hidx, hwf, hall⟩ := h
  refine ⟨Nat.mod_lt _ (by omega), Memory.wf_write hwf _ _, fun c hc => ?_⟩
  rcases Memory.mem_write hc with rfl | hc
  · exact hidx
  · exact hall c hc

theorem dlWrite_finite {L : DelayLine} (h : L.finite = true) (v : Num32) : (dlWrite L v).finite = true := by
  rw [DelayLine.finite_iff] at h ⊢
  intro c hc
  rcases Memory.mem_write hc with rfl | hc
  · exact isFinite_sanitize v
  · exact h c hc

/-- A line of `n` zero words is well formed, finite and silent. -/
theorem zeros_wf {n : Nat} (h : 0 < n) : ({ size := n, idx := 0, buf := [] } : DelayLine).wf = true := by
  simp [DelayLine.wf, h, Memory.wf]

theorem dlRealloc_wf (L : DelayLine) {n : Nat} (h : 0 < n) : (dlRealloc L n).wf = true := zeros_wf h

theorem dlClear_wf {L : DelayLine} (h : L.wf = true) : (dlClear L).wf = true :=
  zeros_wf (Nat.lt_of_le_of_lt (Nat.zero_le _) (DelayLine.wf_iff.1 h).1)

theorem dlRead_of_empty {L : DelayLine} (h : L.buf = []) (n : Nat) : dlRead L n = zero := by
  simp [dlRead, h, Memory.read]

/-- Every word a finite line returns is finite. -/
theorem read_finite {m : Memory} (h : ∀ c ∈ m, isFinite c.2 = true) (k : Nat) : isFinite (Memory.read m k) = true := by
  induction m with
  | nil => exact (by decide : isFinite zero = true)
  | cons c t ih =>
    simp only [Memory.read]
    split
    · exact h c List.mem_cons_self
    · exact ih (fun d hd => h d (List.mem_cons_of_mem _ hd))

theorem dlRead_finite {L : DelayLine} (h : L.finite = true) (n : Nat) : isFinite (dlRead L n) = true :=
  read_finite (DelayLine.finite_iff.1 h) _

/-- The position read `n` writes back, as a natural number (R83). -/
theorem readPosition_eq {L : DelayLine} {n : Nat} (hn : n ≤ L.size) :
    readPosition L n = (L.idx + L.size - n) % L.size := by
  unfold readPosition
  have h1 : (L.idx : Int) - (n : Int) = ((L.idx + L.size - n : Nat) : Int) + (-1) * (L.size : Int) := by
    push_cast [Nat.cast_sub (by omega : n ≤ L.idx + L.size)]; ring
  rw [h1, Int.add_mul_emod_self_right]
  exact_mod_cast Int.toNat_natCast _

/-- The word just written is one back; what was n back is then n + 1 back (R83, R84). -/
theorem dlRead_dlWrite {L : DelayLine} (h : L.wf = true) (v : Num32) {n : Nat} (hn : n < L.size) :
    dlRead (dlWrite L v) (n + 1) = if n = 0 then sanitize v else dlRead L n := by
  obtain ⟨hidx, hwf, -⟩ := DelayLine.wf_iff.1 h
  unfold dlRead
  rw [readPosition_eq (by simp; omega), readPosition_eq (by omega)]
  show Memory.read (Memory.write L.buf L.idx (sanitize v)) _ = _
  rw [Memory.read_write hwf, dlWrite_idx, dlWrite_size]
  have hpos : ((L.idx + 1) % L.size + L.size - (n + 1)) % L.size = (L.idx + L.size - n) % L.size := by
    by_cases hw : L.idx + 1 < L.size
    · rw [Nat.mod_eq_of_lt hw]; congr 1; omega
    · have h1 : L.idx + 1 = L.size := by omega
      rw [h1, Nat.mod_self]
      have h2 : L.idx + L.size - n = (0 + L.size - (n + 1)) + L.size := by omega
      rw [h2, Nat.add_mod_right]
  rw [hpos]
  by_cases h0 : n = 0
  · subst h0
    rw [if_pos, if_pos rfl]
    simp only [Nat.sub_zero, Nat.add_mod_right, Nat.mod_eq_of_lt hidx]
  · rw [if_neg, if_neg h0]
    by_cases hc : n ≤ L.idx
    · have h3 : L.idx + L.size - n = (L.idx - n) + L.size := by omega
      rw [h3, Nat.add_mod_right, Nat.mod_eq_of_lt (by omega)]; omega
    · rw [Nat.mod_eq_of_lt (by omega)]; omega

/-- The oldest word of a line is the one at the index (R83, R247). -/
theorem dlRead_size {L : DelayLine} (hidx : L.idx < L.size) : dlRead L L.size = Memory.read L.buf L.idx := by
  unfold dlRead
  rw [readPosition_eq (le_refl _), Nat.add_sub_cancel, Nat.mod_eq_of_lt hidx]

end Sys2Proof.Machine
end

