-- ==== Sys2Proof/Laws/State.lean ====
section
/-!
SUPPORT. What each update of the state writes and what it keeps, so that no proof unfolds one. A conjunction tagged
`simp` is one rewrite for each of its parts.
-/

namespace Sys2Proof.Machine

open Sys2Proof F32

/-! ### Results -/

@[simp] theorem raiseStatus_eq (c : StatusCode) (s : State) :
    raiseStatus c s = .next { s with status := statusWord c } := rfl

@[simp] theorem complete_eq (s : State) : complete s = .next { s with status := 0 } := rfl

@[simp] theorem onNext_next (f : State → State) (s : State) : onNext f (.next s) = .next (f s) := rfl

theorem requireOsc_present {s : State} (h : s.osc.present = true) (k : Result) : requireOsc s k = k := by
  simp [requireOsc, h]

theorem requireOsc_absent {s : State} (h : s.osc.present = false) (k : Result) :
    requireOsc s k = .next { s with status := 2 } := by
  simp [requireOsc, h, statusWord]

theorem requireRev_present {s : State} (h : s.rev.present = true) (k : Result) : requireRev s k = k := by
  simp [requireRev, h]

theorem requireRev_absent {s : State} (h : s.rev.present = false) (k : Result) :
    requireRev s k = .next { s with status := 2 } := by
  simp [requireRev, h, statusWord]

theorem updateRev_present {s : State} (h : s.rev.present = true) (f : Rev → Rev) :
    updateRev s f = .next { s with status := 0, rev := f s.rev } := by
  simp [updateRev, requireRev, h]

theorem updateRev_absent {s : State} (h : s.rev.present = false) (f : Rev → Rev) :
    updateRev s f = .next { s with status := 2 } := by
  simp [updateRev, requireRev, h, statusWord]

/-! ### Operand registers -/

/-- The host's write of an operand register reads back, and the other registers read as before (R32, R35). -/
theorem readA_writeA (a : Operands) (k j : Fin 11) (w : Word) :
    readA (writeA a k w) j = if j = k then w else readA a j := by
  fin_cases k <;> fin_cases j <;> rfl

/-! ### The oscillator's stages -/

@[simp] theorem takeInputs_keeps (v : BitVec 4) (a : Operands) (o : Osc) :
    (takeInputs v a o).present = o.present ∧ (takeInputs v a o).shape = o.shape ∧
    (takeInputs v a o).sr = o.sr ∧ (takeInputs v a o).phase = o.phase ∧
    (takeInputs v a o).pulseWidth = o.pulseWidth ∧ (takeInputs v a o).dt = o.dt ∧
    (takeInputs v a o).lastPhaseOffset = o.lastPhaseOffset ∧
    (takeInputs v a o).spPending = o.spPending ∧ (takeInputs v a o).spValue = o.spValue :=
  ⟨rfl, rfl, rfl, rfl, rfl, rfl, rfl, rfl, rfl⟩

@[simp] theorem consumeLatch_keeps (o : Osc) :
    (consumeLatch o).present = o.present ∧ (consumeLatch o).shape = o.shape ∧ (consumeLatch o).sr = o.sr ∧
    (consumeLatch o).pulseWidth = o.pulseWidth ∧ (consumeLatch o).dt = o.dt ∧
    (consumeLatch o).lastPhaseOffset = o.lastPhaseOffset ∧ (consumeLatch o).freqHold = o.freqHold ∧
    (consumeLatch o).phoffHold = o.phoffHold ∧ (consumeLatch o).pwHold = o.pwHold ∧
    (consumeLatch o).spValue = o.spValue := by
  unfold consumeLatch; split <;> simp

@[simp] theorem consumeLatch_pending (o : Osc) : (consumeLatch o).spPending = false := by
  unfold consumeLatch; split <;> simp_all

theorem consumeLatch_phase (o : Osc) :
    (consumeLatch o).phase = if o.spPending then wrap o.spValue else o.phase := by
  unfold consumeLatch; split <;> simp_all

@[simp] theorem clampPulse_keeps (o : Osc) :
    (clampPulse o).present = o.present ∧ (clampPulse o).shape = o.shape ∧ (clampPulse o).sr = o.sr ∧
    (clampPulse o).phase = o.phase ∧ (clampPulse o).dt = o.dt ∧
    (clampPulse o).lastPhaseOffset = o.lastPhaseOffset ∧ (clampPulse o).freqHold = o.freqHold ∧
    (clampPulse o).phoffHold = o.phoffHold ∧ (clampPulse o).pwHold = o.pwHold ∧
    (clampPulse o).spPending = o.spPending ∧ (clampPulse o).spValue = o.spValue := by
  unfold clampPulse; split <;> simp

theorem clampPulse_pulseWidth (o : Osc) :
    (clampPulse o).pulseWidth =
      if o.shape.usesPulseWidth then clamp o.pwHold num0_01 num0_99 else o.pulseWidth := by
  unfold clampPulse; split <;> simp_all

@[simp] theorem movePhase_keeps (sync : Num32) (o : Osc) :
    (movePhase sync o).present = o.present ∧ (movePhase sync o).shape = o.shape ∧
    (movePhase sync o).sr = o.sr ∧ (movePhase sync o).pulseWidth = o.pulseWidth ∧
    (movePhase sync o).dt = o.dt ∧ (movePhase sync o).lastPhaseOffset = o.lastPhaseOffset ∧
    (movePhase sync o).freqHold = o.freqHold ∧ (movePhase sync o).phoffHold = o.phoffHold ∧
    (movePhase sync o).pwHold = o.pwHold ∧ (movePhase sync o).spPending = o.spPending ∧
    (movePhase sync o).spValue = o.spValue :=
  ⟨rfl, rfl, rfl, rfl, rfl, rfl, rfl, rfl, rfl, rfl, rfl⟩

@[simp] theorem afterOutput_keeps (o : Osc) :
    (afterOutput o).present = o.present ∧ (afterOutput o).shape = o.shape ∧ (afterOutput o).sr = o.sr ∧
    (afterOutput o).pulseWidth = o.pulseWidth ∧ (afterOutput o).dt = o.dt ∧
    (afterOutput o).freqHold = o.freqHold ∧ (afterOutput o).phoffHold = o.phoffHold ∧
    (afterOutput o).pwHold = o.pwHold ∧ (afterOutput o).spPending = o.spPending ∧
    (afterOutput o).spValue = o.spValue :=
  ⟨rfl, rfl, rfl, rfl, rfl, rfl, rfl, rfl, rfl, rfl⟩

@[simp] theorem afterOutput_phase (o : Osc) : (afterOutput o).phase = wrap (add o.phase o.dt) := rfl

@[simp] theorem afterOutput_last (o : Osc) : (afterOutput o).lastPhaseOffset = o.phoffHold := rfl

/-! ### The reverberator's derivations -/

@[simp] theorem setParam_keeps (f : RevParams → Num32 → RevParams) (s : State) (r : Rev) :
    (setParam f s r).par = f r.par (operandF s.a 0) ∧ (setParam f s r).present = r.present ∧
    (setParam f s r).sr = r.sr ∧ (setParam f s r).largestDelay = r.largestDelay ∧
    (setParam f s r).alpha = r.alpha ∧ (setParam f s r).len = r.len ∧ (setParam f s r).tap = r.tap ∧
    (setParam f s r).fdnGain = r.fdnGain ∧ (setParam f s r).tapGain = r.tapGain ∧
    (setParam f s r).diffSizeL = r.diffSizeL ∧ (setParam f s r).diffSizeR = r.diffSizeR ∧
    (setParam f s r).inDamp = r.inDamp ∧ (setParam f s r).fdnDamp = r.fdnDamp ∧
    (setParam f s r).tapLine = r.tapLine ∧ (setParam f s r).fdnLine = r.fdnLine ∧
    (setParam f s r).difL = r.difL ∧ (setParam f s r).difR = r.difR :=
  ⟨rfl, rfl, rfl, rfl, rfl, rfl, rfl, rfl, rfl, rfl, rfl, rfl, rfl, rfl, rfl, rfl, rfl⟩

@[simp] theorem deriveAlpha_keeps (P : Params) (r : Rev) :
    (deriveAlpha P r).alpha = alphaOf P r.sr r.par.decay ∧ (deriveAlpha P r).present = r.present ∧
    (deriveAlpha P r).par = r.par ∧ (deriveAlpha P r).sr = r.sr ∧
    (deriveAlpha P r).largestDelay = r.largestDelay ∧ (deriveAlpha P r).len = r.len ∧
    (deriveAlpha P r).tap = r.tap ∧ (deriveAlpha P r).fdnGain = r.fdnGain ∧
    (deriveAlpha P r).tapGain = r.tapGain ∧ (deriveAlpha P r).diffSizeL = r.diffSizeL ∧
    (deriveAlpha P r).diffSizeR = r.diffSizeR ∧ (deriveAlpha P r).inDamp = r.inDamp ∧
    (deriveAlpha P r).fdnDamp = r.fdnDamp ∧ (deriveAlpha P r).tapLine = r.tapLine ∧
    (deriveAlpha P r).fdnLine = r.fdnLine ∧ (deriveAlpha P r).difL = r.difL ∧
    (deriveAlpha P r).difR = r.difR :=
  ⟨rfl, rfl, rfl, rfl, rfl, rfl, rfl, rfl, rfl, rfl, rfl, rfl, rfl, rfl, rfl, rfl, rfl⟩

@[simp] theorem deriveGains_keeps (P : Params) (r : Rev) :
    (deriveGains P r).fdnGain = r.len.map (fdnGainOf P r.alpha) ∧
    (deriveGains P r).tapGain = r.tap.map (tapGainOf P r.alpha) ∧
    (deriveGains P r).present = r.present ∧ (deriveGains P r).par = r.par ∧ (deriveGains P r).sr = r.sr ∧
    (deriveGains P r).largestDelay = r.largestDelay ∧ (deriveGains P r).alpha = r.alpha ∧
    (deriveGains P r).len = r.len ∧ (deriveGains P r).tap = r.tap ∧
    (deriveGains P r).diffSizeL = r.diffSizeL ∧ (deriveGains P r).diffSizeR = r.diffSizeR ∧
    (deriveGains P r).inDamp = r.inDamp ∧ (deriveGains P r).fdnDamp = r.fdnDamp ∧
    (deriveGains P r).tapLine = r.tapLine ∧ (deriveGains P r).fdnLine = r.fdnLine ∧
    (deriveGains P r).difL = r.difL ∧ (deriveGains P r).difR = r.difR :=
  ⟨rfl, rfl, rfl, rfl, rfl, rfl, rfl, rfl, rfl, rfl, rfl, rfl, rfl, rfl, rfl, rfl, rfl⟩

@[simp] theorem deriveDiffusers_keeps (P : Params) (r : Rev) :
    (deriveDiffusers P r).diffSizeL = diffSizes r.len.i3 r.par.spread P.diffR.rL1 P.diffR.rL2 ∧
    (deriveDiffusers P r).diffSizeR = diffSizes r.len.i3 r.par.spread P.diffR.rR1 P.diffR.rR2 ∧
    (deriveDiffusers P r).present = r.present ∧ (deriveDiffusers P r).par = r.par ∧
    (deriveDiffusers P r).sr = r.sr ∧ (deriveDiffusers P r).largestDelay = r.largestDelay ∧
    (deriveDiffusers P r).alpha = r.alpha ∧ (deriveDiffusers P r).len = r.len ∧
    (deriveDiffusers P r).tap = r.tap ∧ (deriveDiffusers P r).fdnGain = r.fdnGain ∧
    (deriveDiffusers P r).tapGain = r.tapGain ∧ (deriveDiffusers P r).inDamp = r.inDamp ∧
    (deriveDiffusers P r).fdnDamp = r.fdnDamp ∧ (deriveDiffusers P r).tapLine = r.tapLine ∧
    (deriveDiffusers P r).fdnLine = r.fdnLine := by
  rw [deriveDiffusers]
  exact ⟨rfl, rfl, rfl, rfl, rfl, rfl, rfl, rfl, rfl, rfl, rfl, rfl, rfl, rfl, rfl⟩

@[simp] theorem deriveSize_keeps (P : Params) (r : Rev) :
    (deriveSize P r).largestDelay = largestDelayOf r.sr r.par.size ∧
    (deriveSize P r).len = lenRatio.map (lenOf (largestDelayOf r.sr r.par.size)) ∧
    (deriveSize P r).tap = tapRatio.map (tapOf (largestDelayOf r.sr r.par.size)) ∧
    (deriveSize P r).present = r.present ∧ (deriveSize P r).par = r.par ∧ (deriveSize P r).sr = r.sr ∧
    (deriveSize P r).alpha = r.alpha ∧ (deriveSize P r).inDamp = r.inDamp ∧
    (deriveSize P r).fdnDamp = r.fdnDamp ∧ (deriveSize P r).tapLine = r.tapLine := by
  rw [deriveSize]
  simp

@[simp] theorem clearSignal_keeps (r : Rev) :
    (clearSignal r).present = r.present ∧ (clearSignal r).par = r.par ∧ (clearSignal r).sr = r.sr ∧
    (clearSignal r).largestDelay = r.largestDelay ∧ (clearSignal r).alpha = r.alpha ∧
    (clearSignal r).len = r.len ∧ (clearSignal r).tap = r.tap ∧ (clearSignal r).fdnGain = r.fdnGain ∧
    (clearSignal r).tapGain = r.tapGain ∧ (clearSignal r).diffSizeL = r.diffSizeL ∧
    (clearSignal r).diffSizeR = r.diffSizeR :=
  ⟨rfl, rfl, rfl, rfl, rfl, rfl, rfl, rfl, rfl, rfl, rfl⟩

/-! ### The signal path -/

@[simp] theorem damp_keeps (D : Damper) (x : Num32) : (damp D x).1.c = D.c ∧ (damp D x).1.s = (damp D x).2 :=
  ⟨rfl, rfl⟩

@[simp] theorem processSample_keeps (r : Rev) (x : Num32) :
    (processSample r x).1.present = r.present ∧ (processSample r x).1.par = r.par ∧
    (processSample r x).1.sr = r.sr ∧ (processSample r x).1.largestDelay = r.largestDelay ∧
    (processSample r x).1.alpha = r.alpha ∧ (processSample r x).1.len = r.len ∧
    (processSample r x).1.tap = r.tap ∧ (processSample r x).1.fdnGain = r.fdnGain ∧
    (processSample r x).1.tapGain = r.tapGain ∧ (processSample r x).1.diffSizeL = r.diffSizeL ∧
    (processSample r x).1.diffSizeR = r.diffSizeR ∧ (processSample r x).1.difR.i0 = r.difR.i0 :=
  ⟨rfl, rfl, rfl, rfl, rfl, rfl, rfl, rfl, rfl, rfl, rfl, rfl⟩

/-! ### The host port -/

@[simp] theorem deliver_keeps (w : Word) (s : State) :
    (deliver w s).a = s.a ∧ (deliver w s).q0 = s.q0 ∧ (deliver w s).q1 = s.q1 ∧
    (deliver w s).status = s.status ∧ (deliver w s).osc = s.osc ∧ (deliver w s).rev = s.rev ∧
    (deliver w s).host = s.host ∧ (deliver w s).hostData = w ∧ (deliver w s).freeCount = s.freeCount :=
  ⟨rfl, rfl, rfl, rfl, rfl, rfl, rfl, rfl, rfl⟩

@[simp] theorem powerOn_resets (s : State) :
    (powerOn s).a = .zero ∧ (powerOn s).q0 = 0 ∧ (powerOn s).q1 = 0 ∧ (powerOn s).status = 0 ∧
    (powerOn s).osc = .blank ∧ (powerOn s).rev = .blank ∧
    (powerOn s).host = s.host ∧ (powerOn s).hostData = s.hostData ∧ (powerOn s).freeCount = s.freeCount :=
  ⟨rfl, rfl, rfl, rfl, rfl, rfl, rfl, rfl, rfl⟩

@[simp] theorem withFetchWord_keeps (s : State) (nbits w : Nat) :
    (s.withFetchWord nbits w).host = .writeCmd (tableWord nbits w) :: s.host ∧
    (s.withFetchWord nbits w).a = s.a ∧ (s.withFetchWord nbits w).q0 = s.q0 ∧
    (s.withFetchWord nbits w).q1 = s.q1 ∧ (s.withFetchWord nbits w).status = s.status ∧
    (s.withFetchWord nbits w).osc = s.osc ∧ (s.withFetchWord nbits w).rev = s.rev ∧
    (s.withFetchWord nbits w).hostData = s.hostData ∧ (s.withFetchWord nbits w).freeCount = s.freeCount :=
  ⟨rfl, rfl, rfl, rfl, rfl, rfl, rfl, rfl, rfl⟩

end Sys2Proof.Machine
end

