-- ==== Sys2Proof/Laws/Engines.lean ====
section
/-!
SUPPORT. What construction, the derivations and the signal path leave an engine in: legal ranges, lines of the right
sizes, well formed and finite.
-/

namespace Sys2Proof.Machine

open Sys2Proof F32

/-! ### The oscillator -/

theorem num0_01_le_num0_99 : le num0_01 num0_99 = true := by decide

/-- The increment is finite and not negative, for every frequency and rate (R155, 10_state.md R45). -/
theorem phaseIncrement_range (freq : Num32) (sr : Word) :
    isFinite (phaseIncrement freq sr) = true ∧ le zero (phaseIncrement freq sr) = true := by
  unfold phaseIncrement
  simp only
  split
  · rename_i hf
    refine ⟨hf, ?_⟩
    have hs : sign (div (F32.abs freq) (ofNat sr.toNat)) = false := by
      have hsig : (sign (F32.abs freq) != sign (ofNat sr.toNat)) = false := by
        rw [sign_abs]; unfold ofNat; rw [sign_round]; rfl
      unfold div at hf ⊢
      simp only [hsig] at hf ⊢
      split at hf
      · simp [isFinite_nan] at hf
      · rename_i h1
        rw [if_neg h1]
        split at hf
        · split at hf
          · simp [isFinite_nan] at hf
          · simp [isFinite_infinity] at hf
        · rename_i h2
          rw [if_neg h2]
          split at hf
          · rename_i h3; rw [if_pos h3]; decide
          · rename_i h3
            rw [if_neg h3]
            split at hf
            · split at hf
              · simp [isFinite_nan] at hf
              · simp [isFinite_infinity] at hf
            · rename_i h4; rw [if_neg h4]; exact sign_round _ _ _
    refine le_iff.2 ⟨by decide, isNaN_of_isFinite hf, ?_⟩
    rw [key_zero, key_of_sign hs]
    omega
  · decide

theorem oscConstruct_inv {shape : Shape} {a : Operands} (h : readA a 3 ≠ 0) : OscInv (oscConstruct shape a) := by
  refine ⟨h, wrap_range _, ?_, (by decide : isFinite zero = true ∧ le zero zero = true), ?_⟩
  · unfold oscConstruct
    simp only
    split
    · exact clamp_range num0_01_le_num0_99
    · decide
  · intro hs
    unfold oscConstruct at hs ⊢
    simp only at hs ⊢
    rw [hs]
    exact ⟨rfl, rfl⟩

/-- One step keeps the legal values of an oscillator (R150 to R159, R172). -/
theorem oscStep_inv {o : Osc} (h : OscInv o) (v : BitVec 4) (a : Operands) :
    OscInv (afterOutput (beforeOutput v a o)) := by
  obtain ⟨hsr, -, hpw, -, hfix⟩ := h
  unfold beforeOutput
  refine ⟨?_, ?_, ?_, ?_, ?_⟩
  · simpa using hsr
  · simpa using wrap_range _
  · simp only [afterOutput_keeps, movePhase_keeps, clampPulse_pulseWidth]
    split
    · exact clamp_range num0_01_le_num0_99
    · simpa using hpw
  · simpa using phaseIncrement_range _ _
  · intro hs
    have hs' : o.shape.usesPulseWidth = false := by simpa using hs
    have := hfix hs'
    simpa [clampPulse_pulseWidth, hs', takeInputs, supplied] using this

/-! ### The reverberator's parameters and sizes -/

theorem zero_le_one : le zero one = true := by decide
theorem num0_1_le_numInf : le num0_1 numInf = true := by decide
theorem num0_001_le_num3600 : le num0_001 num3600 = true := by decide

theorem clampUnit_range (x : Num32) : InRange (clampUnit x) zero one := clamp_range zero_le_one

theorem clampSize_range (x : Num32) {maxsize : Num32} (h : le num0_1 maxsize = true) :
    InRange (clampSize x maxsize) num0_1 maxsize := clamp_range h

theorem clampDecay_range (x : Num32) : InRange (clampDecay x) num0_001 num3600 := clamp_range num0_001_le_num3600

theorem lenOf_pos (ld ratio : Num32) : 0 < lenOf ld ratio := by unfold lenOf; omega

theorem diffSizes_pos (len3 : Nat) (spread r1 r2 : Num32) :
    0 < (diffSizes len3 spread r1 r2).i0 ∧ 0 < (diffSizes len3 spread r1 r2).i1 ∧
    0 < (diffSizes len3 spread r1 r2).i2 ∧ 0 < (diffSizes len3 spread r1 r2).i3 := by
  unfold diffSizes Four.map
  simp only
  refine ⟨?_, ?_, ?_, ?_⟩ <;> omega

/-! ### The power function -/

/-- POW for a base in [0,1] and an exponent above 0 lies between 0 and its bound. -/
theorem powAdmissible_range {raw : Num32 → Num32 → Num32} {b e : Num32} (h0 : le zero b = true)
    (h1 : le b one = true) (he : lt zero e = true) : InRange (powAdmissible raw b e) zero (powBound b e) := by
  have hz : isZero e = false := by
    have hk := (lt_iff.1 he).2.2
    rw [key_zero] at hk
    have hs := sign_of_pos hk
    rw [key_of_sign hs] at hk
    by_contra hc
    simp only [Bool.not_eq_false, isZero, Bool.and_eq_true, beq_iff_eq, expo, frac] at hc
    omega
  unfold powAdmissible
  rw [hz, Bool.and_false, if_neg Bool.false_ne_true, h0, h1, he, if_pos (by rfl)]
  refine clamp_range ?_
  unfold powBound
  split <;> decide

theorem powBound_le_one (b e : Num32) : le (powBound b e) one = true := by unfold powBound; split <;> decide

/-- POW stays in [0,1] for a base in [0,1] and an exponent no less than 0 (R18, 43_rev_process.md R255). -/
theorem powAdmissible_unit {raw : Num32 → Num32 → Num32} {b e : Num32} (h0 : le zero b = true)
    (h1 : le b one = true) (he : le zero e = true) : InRange (powAdmissible raw b e) zero one := by
  cases hz : isZero e
  · have h := powAdmissible_range (raw := raw) h0 h1 (lt_zero_of_le he hz)
    exact ⟨h.1, le_trans_num h.2 (powBound_le_one b e)⟩
  · unfold powAdmissible
    rw [hz, (unit_fix h0 h1).1, if_pos (by rfl)]
    exact (by decide : InRange one zero one)

/-- POW stays below 1.0 for a base below 1 and an exponent of 1 or more (43_rev_process.md R255). -/
theorem powAdmissible_lt_one {raw : Num32 → Num32 → Num32} {b e : Num32} (h0 : le zero b = true)
    (h1 : lt b one = true) (he : le one e = true) : lt (powAdmissible raw b e) one = true := by
  have hpos : lt zero e = true := by
    obtain ⟨-, hn, hk⟩ := le_iff.1 he
    rw [key_one] at hk
    exact lt_iff.2 ⟨by decide, hn, by rw [key_zero]; omega⟩
  have h := (powAdmissible_range (raw := raw) h0 (le_of_lt h1) hpos).2
  unfold powBound at h
  rw [h1, he, if_pos (by rfl)] at h
  obtain ⟨hn, -, hk⟩ := le_iff.1 h
  have hb : key belowOne = 0x3F7FFFFF := by decide
  exact lt_iff.2 ⟨hn, by decide, by rw [key_one]; omega⟩

/-- A value that is no NaN and has no sign is no less than 0. -/
theorem le_zero_of_sign {x : Num32} (hn : isNaN x = false) (hs : sign x = false) : le zero x = true :=
  le_iff.2 ⟨by decide, hn, by rw [key_zero, key_of_sign hs]; omega⟩

theorem ofNat_nonneg (n : Nat) : le zero (ofNat n) = true := le_zero_of_sign (isNaN_round _ _ _) (sign_round _ _ _)

/-- The exponent of the decay base is no less than 0 (R194). -/
theorem alphaExponent_nonneg (sr : Word) {decay : Num32} (hd : InRange decay num0_001 num3600) :
    le zero (div one (mul (ofNat sr.toNat) decay)) = true := by
  obtain ⟨-, hn, hk⟩ := le_iff.1 hd.1
  have hk' : key num0_001 = 0x3A83126F := by decide
  have hi := (le_iff.1 hd.2).2.2
  have hi' : key num3600 = 0x45610000 := by decide
  have hs : sign decay = false := sign_of_pos (by omega)
  rw [key_of_sign hs] at hi hk
  have hfin : isFinite decay = true := by simp only [isFinite, bne_iff_ne, expo]; omega
  have hnz : isZero decay = false := by
    by_contra hc
    simp only [Bool.not_eq_false, isZero, Bool.and_eq_true, beq_iff_eq, expo, frac] at hc
    omega
  have hsr : isNaN (ofNat sr.toNat) = false ∧ sign (ofNat sr.toNat) = false :=
    ⟨isNaN_round _ _ _, sign_round _ _ _⟩
  have hm : isNaN (mul (ofNat sr.toNat) decay) = false ∧ sign (mul (ofNat sr.toNat) decay) = false := by
    unfold mul
    simp only [hsr.1, hsr.2, hn, hs, isInf_of_isFinite hfin, hnz, Bool.or_false]
    split
    · simp at *
    · split
      · rename_i h
        have hz : isZero (ofNat sr.toNat) = false := by
          simp only [isInf, Bool.and_eq_true, beq_iff_eq] at h
          simp [isZero, h.1]
        rw [hz]
        show isNaN (infinity false) = false ∧ sign (infinity false) = false
        decide
      · exact ⟨isNaN_round _ _ _, sign_round _ _ _⟩
  generalize mul (ofNat sr.toNat) decay = y at hm
  have h1 : isNaN one = false ∧ isInf one = false ∧ isZero one = false ∧ sign one = false := by decide
  unfold div
  simp only [hm.1, hm.2, h1]
  split
  · simp at *
  · split
    · simp at *
    · split
      · decide
      · split
        · exact by decide
        · exact le_zero_of_sign (isNaN_round _ _ _) (sign_round _ _ _)

/-- The decay base of a legal reverberator lies in [0,1] (R194). -/
theorem revInv_alpha {r : Rev} (h : RevInv params r) : InRange r.alpha zero one := by
  obtain ⟨-, -, hp, hd, -⟩ := h
  rw [hd.2.1]
  exact powAdmissible_unit (by decide) (by decide) (alphaExponent_nonneg r.sr hp.2.2.2.2.1)

/-- Every gain of a legal reverberator has magnitude at most 1, and a branch gain strictly less than 1 when alpha is
below 1 (43_rev_process.md R255). -/
theorem revInv_gains {r : Rev} (h : RevInv params r) (j : Fin 4) :
    InRange (neg (r.fdnGain.get j)) zero one ∧ InRange (r.tapGain.get j) zero one ∧
    (lt r.alpha one = true → lt (neg (r.fdnGain.get j)) one = true) := by
  have ha := revInv_alpha h
  obtain ⟨-, -, -, hd, -⟩ := h
  have hg : ∀ n, InRange (powAdmissible Config.powFree r.alpha (ofNat n)) zero one := fun n =>
    powAdmissible_unit ha.1 ha.2 (ofNat_nonneg n)
  have hlt : ∀ n, 0 < n → lt r.alpha one = true → lt (powAdmissible Config.powFree r.alpha (ofNat n)) one = true :=
    fun n hn h1 => powAdmissible_lt_one ha.1 h1 (one_le_ofNat hn)
  have hlen : 0 < r.len.get j := by
    rw [hd.2.2.1]
    fin_cases j <;> exact lenOf_pos _ _
  rw [hd.2.2.2.2.1, hd.2.2.2.2.2.1]
  fin_cases j <;>
    exact ⟨(neg_neg_num _).symm ▸ hg _, hg _, fun h1 => (neg_neg_num _).symm ▸ hlt _ hlen h1⟩

/-! ### Delay lines -/

/-- A line of `n` zero words. -/
theorem lineInv_zeros {n : Nat} (h : 0 < n) : LineInv { size := n, idx := 0, buf := [] } n :=
  ⟨rfl, zeros_wf h, rfl⟩

theorem lineInv_dlWrite {L : DelayLine} {n : Nat} (h : LineInv L n) (v : Num32) : LineInv (dlWrite L v) n :=
  ⟨h.1, dlWrite_wf h.2.1 v, dlWrite_finite h.2.2 v⟩

theorem lineInv_dlClear {L : DelayLine} {n : Nat} (h : LineInv L n) : LineInv (dlClear L) n :=
  ⟨h.1, dlClear_wf h.2.1, rfl⟩

theorem diffuse_line (L : DelayLine) (c x : Num32) : ∃ w, (diffuse L c x).1 = dlWrite L w := ⟨_, rfl⟩

/-- The four lines of DLRealloc are four lines of zero words (R85). -/
theorem realloc_four (L : Four DelayLine) (n : Four Nat) :
    L.zipWith dlRealloc n = n.map (fun k => { size := k, idx := 0, buf := [] }) := rfl

theorem linesInv_zeros {n : Four Nat} (h : 0 < n.i0 ∧ 0 < n.i1 ∧ 0 < n.i2 ∧ 0 < n.i3) :
    LinesInv (n.map (fun k => { size := k, idx := 0, buf := [] })) n :=
  ⟨lineInv_zeros h.1, lineInv_zeros h.2.1, lineInv_zeros h.2.2.1, lineInv_zeros h.2.2.2⟩

theorem deriveDiffusers_lines (P : Params) (r : Rev) :
    (deriveDiffusers P r).difL = (deriveDiffusers P r).diffSizeL.map (fun k => { size := k, idx := 0, buf := [] }) ∧
    (deriveDiffusers P r).difR = (deriveDiffusers P r).diffSizeR.map (fun k => { size := k, idx := 0, buf := [] }) := by
  rw [deriveDiffusers]
  exact ⟨realloc_four _ _, realloc_four _ _⟩

theorem deriveSize_lines (P : Params) (r : Rev) :
    (deriveSize P r).fdnLine = (deriveSize P r).len.map (fun k => { size := k, idx := 0, buf := [] }) ∧
    (deriveSize P r).difL = (deriveSize P r).diffSizeL.map (fun k => { size := k, idx := 0, buf := [] }) ∧
    (deriveSize P r).difR = (deriveSize P r).diffSizeR.map (fun k => { size := k, idx := 0, buf := [] }) := by
  rw [deriveSize]
  refine ⟨?_, deriveDiffusers_lines _ _⟩
  simp only [deriveDiffusers_keeps, deriveGains_keeps]
  exact realloc_four _ _

theorem deriveSize_derived (P : Params) (r : Rev) :
    (deriveSize P r).fdnGain = (deriveSize P r).len.map (fdnGainOf P r.alpha) ∧
    (deriveSize P r).tapGain = (deriveSize P r).tap.map (tapGainOf P r.alpha) ∧
    (deriveSize P r).diffSizeL = diffSizes (deriveSize P r).len.i3 r.par.spread P.diffR.rL1 P.diffR.rL2 ∧
    (deriveSize P r).diffSizeR = diffSizes (deriveSize P r).len.i3 r.par.spread P.diffR.rR1 P.diffR.rR2 := by
  rw [deriveSize]
  simp only [deriveDiffusers_keeps, deriveGains_keeps, and_self]

/-! ### Whole engines -/

/-- DeriveSize makes the lines it owns fit the geometry it derives (R195, R197). -/
theorem deriveSize_delayInv {P : Params} {r : Rev} (h : LineInv r.tapLine tapSize) : DelayInv (deriveSize P r) := by
  obtain ⟨hf, hl, hr⟩ := deriveSize_lines P r
  obtain ⟨-, -, hsl, hsr⟩ := deriveSize_derived P r
  have hlen : 0 < (deriveSize P r).len.i0 ∧ 0 < (deriveSize P r).len.i1 ∧ 0 < (deriveSize P r).len.i2 ∧
      0 < (deriveSize P r).len.i3 := by
    simp only [deriveSize_keeps, Four.map]
    exact ⟨lenOf_pos _ _, lenOf_pos _ _, lenOf_pos _ _, lenOf_pos _ _⟩
  refine ⟨by simpa using h, ?_, ?_, ?_, ?_⟩
  · rw [hf]; exact linesInv_zeros hlen
  · rw [hl]; exact linesInv_zeros (by rw [hsl]; exact diffSizes_pos _ _ _ _)
  · rw [hr]; exact linesInv_zeros (by rw [hsr]; exact diffSizes_pos _ _ _ _)
  · rw [hr]; rfl

/-- What DeriveSize derives is what `DerivedInv` asks, where the decay base and the dampers stand right. -/
theorem deriveSize_derivedInv {P : Params} {r : Rev} (ha : r.alpha = alphaOf P r.sr r.par.decay)
    (hin : r.inDamp.c = sub one r.par.bw) (hfd : r.fdnDamp.map (fun D => D.c) = .const r.par.damp) :
    DerivedInv P (deriveSize P r) := by
  obtain ⟨h1, h2, h3, h4⟩ := deriveSize_derived P r
  refine ⟨?_, ?_, ?_, ?_, ?_, ?_, ?_, ?_, ?_, ?_⟩
  · simp only [deriveSize_keeps]
  · simpa only [deriveSize_keeps] using ha
  · simp only [deriveSize_keeps]
  · simp only [deriveSize_keeps]
  · rw [h1]; simp only [deriveSize_keeps]
  · rw [h2]; simp only [deriveSize_keeps]
  · rw [h3]; simp only [deriveSize_keeps]
  · rw [h4]; simp only [deriveSize_keeps]
  · simpa only [deriveSize_keeps] using hin
  · simpa only [deriveSize_keeps] using hfd

theorem tapLine_zeros : LineInv { size := tapSize, idx := 0, buf := [] } tapSize := lineInv_zeros (by decide)

/-- The construction state is a legal engine (R190, R199). -/
theorem revConstruct_inv {P : Params} {c : RevParams} {sr : Word} (hsr : sr ≠ 0)
    (hcap : capacityOk P sr c.maxsize = true) (hc : ParamsInv c) : RevInv P (revConstruct P c sr) := by
  rw [revConstruct]
  refine ⟨?_, ?_, ?_, ?_, ?_⟩
  · simpa only [deriveSize_keeps, deriveAlpha_keeps] using hsr
  · simpa only [deriveSize_keeps, deriveAlpha_keeps] using hcap
  · simpa only [deriveSize_keeps, deriveAlpha_keeps] using hc
  · exact deriveSize_derivedInv (by simp only [deriveAlpha_keeps]) (by simp only [deriveAlpha_keeps])
      (by simp only [deriveAlpha_keeps]; rfl)
  · exact deriveSize_delayInv (by simpa only [deriveAlpha_keeps] using tapLine_zeros)

/-- One sample keeps the lines' form and sizes (R242). -/
theorem processSample_delayInv {r : Rev} (h : DelayInv r) (x : Num32) : DelayInv (processSample r x).1 := by
  obtain ⟨ht, hf, hl, hr, h0⟩ := h
  refine ⟨?_, ?_, ?_, ?_, ?_⟩
  · exact lineInv_dlWrite ht _
  · exact ⟨lineInv_dlWrite hf.1 _, lineInv_dlWrite hf.2.1 _, lineInv_dlWrite hf.2.2.1 _,
      lineInv_dlWrite hf.2.2.2 _⟩
  · exact ⟨lineInv_dlWrite hl.1 _, lineInv_dlWrite hl.2.1 _, lineInv_dlWrite hl.2.2.1 _,
      lineInv_dlWrite hl.2.2.2 _⟩
  · exact ⟨hr.1, lineInv_dlWrite hr.2.1 _, lineInv_dlWrite hr.2.2.1 _, lineInv_dlWrite hr.2.2.2 _⟩
  · simpa only [processSample_keeps] using h0

/-- One sample keeps the damper coefficients (R240, R242). -/
theorem processSample_coeffs (r : Rev) (x : Num32) :
    (processSample r x).1.inDamp.c = r.inDamp.c ∧
    (processSample r x).1.fdnDamp.map (fun D => D.c) = r.fdnDamp.map (fun D => D.c) := ⟨rfl, rfl⟩

end Sys2Proof.Machine
end

