-- ==== Sys2Proof/Laws/Diffusers.lean ====
section
/-!
SUPPORT. What a DIFF_R with every constant of magnitude at most 1 buys (42_rev_params.md R197): the parts of a side's
diffusers stay in their range and sum to 1341, for every spread.
-/

namespace Sys2Proof.Machine

open Sys2Proof F32

/-- A spread offset is no greater than its scale (R197). -/
theorem spreadOffset_le {c spread r : Num32} {k : Nat} (hc : isFinite c = true) (hk : mag c = k * oneUnits)
    (hs : InRange spread zero one) (hr : le (F32.abs r) one = true) :
    (trunc (mul (mul c spread) r)).natAbs ≤ k := by
  obtain ⟨hf, hn, h1⟩ := unit_fix hs.1 hs.2
  have hms : mag spread ≤ oneUnits := by have := fix_natAbs spread; omega
  have ha := mag_mul_le hc hf hms
  obtain ⟨hrf, hrm⟩ := mag_le_of_abs hr
  have hb := mag_mul_le ha.1 hrf hrm
  rw [natAbs_trunc hb.1]
  have hU : 0 < oneUnits := by unfold oneUnits; positivity
  refine Nat.div_le_of_le_mul ?_
  rw [Nat.mul_comm, ← hk]
  exact Nat.le_trans hb.2 ha.2

/-- With every spread constant of magnitude at most 1 every part lies in [59, 962], and a side's parts sum to 1341
(R197). -/
theorem diffParts_range {spread r1 r2 : Num32} (hs : InRange spread zero one) (h1 : le (F32.abs r1) one = true)
    (h2 : le (F32.abs r2) one = true) (j : Fin 4) :
    59 ≤ (diffParts spread r1 r2).get j ∧ (diffParts spread r1 r2).get j ≤ 962 ∧
    (diffParts spread r1 r2).i0 + (diffParts spread r1 r2).i1 + (diffParts spread r1 r2).i2 +
      (diffParts spread r1 r2).i3 = 1341 := by
  have ha := spreadOffset_le (c := num100) (k := 100) (by decide) (by decide +kernel) hs h1
  have hb := spreadOffset_le (c := num300) (k := 300) (by decide) (by decide +kernel) hs h2
  unfold diffParts
  simp only
  generalize trunc (mul (mul num100 spread) r1) = a at *
  generalize trunc (mul (mul num300 spread) r2) = b at *
  refine ⟨?_, ?_, by omega⟩ <;> fin_cases j <;> simp only [Four.get] <;> omega
/-- The default DIFF_R is one a model must accept (R197). -/
theorem diffRDefault_admissible : diffRAdmissible diffRDefault := by unfold diffRAdmissible; decide

/-- Both sides' parts, for every admissible DIFF_R and every legal spread. -/
theorem diffRAdmissible_parts {d : DiffR} {spread : Num32} (hd : diffRAdmissible d) (hs : InRange spread zero one)
    (j : Fin 4) :
    (59 ≤ (diffParts spread d.rL1 d.rL2).get j ∧ (diffParts spread d.rL1 d.rL2).get j ≤ 962) ∧
    (59 ≤ (diffParts spread d.rR1 d.rR2).get j ∧ (diffParts spread d.rR1 d.rR2).get j ≤ 962) := by
  have hl := diffParts_range hs hd.1 hd.2.1 j
  have hr := diffParts_range hs hd.2.2.1 hd.2.2.2 j
  exact ⟨⟨hl.1, hl.2.1⟩, hr.1, hr.2.1⟩

end Sys2Proof.Machine
end

