-- ==== Sys2Proof/Laws/Encoding.lean ====
section
/-!
SUPPORT. The fields of a command word as arithmetic on the word's value, in both directions (30_encoding.md
section 1).
-/

namespace Sys2Proof

/-- A word built from its parts. -/
theorem commandWord_toNat (unit : BitVec 4) (field : BitVec 12) (op : BitVec 8) :
    (commandWord unit field op).toNat = unit.toNat * 2 ^ 28 + field.toNat * 2 ^ 8 + op.toNat := by
  have hf := field.isLt
  have ho := op.isLt
  simp only [commandWord, BitVec.toNat_append]
  rw [← Nat.shiftLeft_add_eq_or_of_lt (by simpa using ho), ← Nat.shiftLeft_add_eq_or_of_lt (by simpa using hf),
    ← Nat.shiftLeft_add_eq_or_of_lt (by decide)]
  simp [Nat.shiftLeft_eq]
  ring

theorem fieldUnit_toNat (w : Word) : (fieldUnit w).toNat = w.toNat / 2 ^ 28 := by
  have := w.isLt
  simp only [fieldUnit, BitVec.extractLsb'_toNat, Nat.shiftRight_eq_div_pow]
  omega

theorem fieldRsv_toNat (w : Word) : (fieldRsv w).toNat = w.toNat / 2 ^ 20 % 2 ^ 8 := by
  simp only [fieldRsv, BitVec.extractLsb'_toNat, Nat.shiftRight_eq_div_pow]

theorem fieldField_toNat (w : Word) : (fieldField w).toNat = w.toNat / 2 ^ 8 % 2 ^ 12 := by
  simp only [fieldField, BitVec.extractLsb'_toNat, Nat.shiftRight_eq_div_pow]

theorem fieldOp_toNat (w : Word) : (fieldOp w).toNat = w.toNat % 2 ^ 8 := by
  simp only [fieldOp, BitVec.extractLsb'_toNat, Nat.shiftRight_eq_div_pow, pow_zero, Nat.div_one]

theorem fieldZero_toNat (w : Word) : (fieldZero w).toNat = w.toNat / 2 ^ 12 % 2 ^ 8 := by
  simp only [fieldZero, BitVec.extractLsb'_toNat, Nat.shiftRight_eq_div_pow]

theorem fieldNibble_toNat (w : Word) : (fieldNibble w).toNat = w.toNat / 2 ^ 8 % 2 ^ 4 := by
  simp only [fieldNibble, BitVec.extractLsb'_toNat, Nat.shiftRight_eq_div_pow]

theorem fieldPmask_toNat (w : Word) : (fieldPmask w).toNat = w.toNat / 2 ^ 8 % 2 ^ 10 := by
  simp only [fieldPmask, BitVec.extractLsb'_toNat, Nat.shiftRight_eq_div_pow]

theorem fieldXmask_toNat (w : Word) : (fieldXmask w).toNat = w.toNat / 2 ^ 18 % 2 ^ 2 := by
  simp only [fieldXmask, BitVec.extractLsb'_toNat, Nat.shiftRight_eq_div_pow]

/-- UNIT, RSV, FIELD and OP of a word built from its parts. -/
theorem commandWord_fields (unit : BitVec 4) (field : BitVec 12) (op : BitVec 8) :
    fieldUnit (commandWord unit field op) = unit ∧ fieldRsv (commandWord unit field op) = 0 ∧
    fieldField (commandWord unit field op) = field ∧ fieldOp (commandWord unit field op) = op := by
  have hu := unit.isLt
  have hf := field.isLt
  have ho := op.isLt
  refine ⟨?_, ?_, ?_, ?_⟩ <;> apply BitVec.eq_of_toNat_eq
  · rw [fieldUnit_toNat, commandWord_toNat]; omega
  · rw [fieldRsv_toNat, commandWord_toNat]
    show _ = 0
    omega
  · rw [fieldField_toNat, commandWord_toNat]; omega
  · rw [fieldOp_toNat, commandWord_toNat]; omega

/-- A word without reserved bits is built from its UNIT, FIELD and OP. -/
theorem commandWord_of_rsv {w : Word} (h : fieldRsv w = 0) :
    commandWord (fieldUnit w) (fieldField w) (fieldOp w) = w := by
  have hw := w.isLt
  have hr := fieldRsv_toNat w
  rw [h] at hr
  have hr0 : w.toNat / 2 ^ 20 % 2 ^ 8 = 0 := hr.symm
  apply BitVec.eq_of_toNat_eq
  rw [commandWord_toNat, fieldUnit_toNat, fieldField_toNat, fieldOp_toNat]
  omega

end Sys2Proof
end

