-- ==== Sys2Proof/Laws/Exec.lean ====
section
/-!
SUPPORT. What a command can do, said once: it ends with a status other than OK and changes nothing else, or it
completes and changes at most the result registers and its own engine. Later proofs start from these instead of
unfolding the meanings.
-/

namespace Sys2Proof.Machine

open Sys2Proof F32

theorem statusWord_le (c : StatusCode) : (statusWord c).toNat ≤ 6 := by cases c <;> decide

theorem statusWord_eq_zero {c : StatusCode} : statusWord c = 0 ↔ c = .ok := by cases c <;> decide

/-! ### Any parameters -/

/-- The hardware is the one with its own parameters. -/
theorem exec_eq_execWith (i : Instr) (s : State) : exec i s = execWith params i s := by cases i <;> rfl

theorem step_eq_stepWith : step = stepWith params := by
  funext s
  have h : exec = execWith params := by funext i s; exact exec_eq_execWith i s
  unfold step stepWith
  rw [h]

/-! ### A step -/

/-- Without an access the state stays (60_exceptions.md R286). -/
theorem step_of_nil {s : State} (h : s.host = []) : step s = .next s := by
  unfold step nextAccess
  rw [h]

/-- A step is its first access, taken off the list (R93). -/
theorem step_of_cons {s : State} {h : HostAccess} {rest : List HostAccess} (hs : s.host = h :: rest) :
    step s = access exec h { s with host := rest } := by
  unfold step nextAccess
  rw [hs]

/-- A write of a command's word to CMD runs the command (R31). -/
theorem access_command {run : Instr → State → Result} {w : Word} {i : Instr} (h : decode w = .ok i) (s : State) :
    access run (.writeCmd w) s = run i s := by
  unfold access issue
  simp only [h]

/-- A write of an illegal word to CMD ends with ILLEGAL (R112). -/
theorem access_illegal {run : Instr → State → Result} {w : Word} {e : Illegal} (h : decode w = .error e)
    (s : State) : access run (.writeCmd w) s = .next { s with status := 1 } := by
  unfold access issue
  simp only [h, raiseStatus_eq, statusWord]

/-! ### The two ways a command ends -/

/-- The two ways a command of the oscillator ends. -/
theorem exec_osc_cases {i : Instr} (h : isOscCommand i = true) (s : State) :
    (∃ c, c ≠ StatusCode.ok ∧ exec i s = raiseStatus c s) ∨
    (∃ o x, exec i s = .next { s with status := 0, osc := o, q0 := x } ∧ ((∀ v, i ≠ .oscStep v) → x = s.q0)) := by
  cases i <;> first | exact absurd h Bool.false_ne_true | skip
  case oscInit n =>
    simp only [exec, execOscInit]
    split
    · exact .inl ⟨.badShape, by decide, rfl⟩
    · split
      · exact .inl ⟨.badArgs, by decide, rfl⟩
      · exact .inr ⟨_, s.q0, rfl, fun _ => rfl⟩
  case oscStep v =>
    simp only [exec, execOscStep, oscStepWith, requireOsc]
    split
    · exact .inr ⟨_, _, rfl, fun h => absurd rfl (h v)⟩
    · exact .inl ⟨.noInstance, by decide, rfl⟩
  case oscSetPhase =>
    simp only [exec, execOscSetPhase, requireOsc]
    split
    · exact .inr ⟨_, s.q0, rfl, fun _ => rfl⟩
    · exact .inl ⟨.noInstance, by decide, rfl⟩
  case oscSetSr =>
    simp only [exec, execOscSetSr, requireOsc]
    split
    · split
      · exact .inl ⟨.badArgs, by decide, rfl⟩
      · exact .inr ⟨_, s.q0, rfl, fun _ => rfl⟩
    · exact .inl ⟨.noInstance, by decide, rfl⟩
  case oscDestroy =>
    simp only [exec, execOscDestroy, requireOsc]
    split
    · exact .inr ⟨_, s.q0, rfl, fun _ => rfl⟩
    · exact .inl ⟨.noInstance, by decide, rfl⟩

/-- What `updateRev` answers. -/
theorem updateRev_cases (s : State) (f : Rev → Rev) :
    (s.rev.present = false ∧ updateRev s f = raiseStatus .noInstance s) ∨
    (s.rev.present = true ∧ updateRev s f = .next { s with status := 0, rev := f s.rev }) := by
  cases h : s.rev.present
  · exact .inl ⟨rfl, by simp [updateRev, requireRev, h]⟩
  · exact .inr ⟨rfl, updateRev_present h f⟩

/-- The two ways a command of the reverberator ends. -/
theorem exec_rev_cases {i : Instr} (h : isOscCommand i = false) (s : State) :
    (∃ c, c ≠ StatusCode.ok ∧ exec i s = raiseStatus c s) ∨
    (∃ r x y, exec i s = .next { s with status := 0, rev := r, q0 := x, q1 := y } ∧
      (i ≠ .revProcess → x = s.q0 ∧ y = s.q1)) := by
  have upd : ∀ f : Rev → Rev, (∃ c, c ≠ StatusCode.ok ∧ updateRev s f = raiseStatus c s) ∨
      (∃ r x y, updateRev s f = .next { s with status := 0, rev := r, q0 := x, q1 := y } ∧
        (i ≠ .revProcess → x = s.q0 ∧ y = s.q1)) := by
    intro f
    rcases updateRev_cases s f with ⟨-, h⟩ | ⟨-, h⟩
    · exact .inl ⟨.noInstance, by decide, h⟩
    · exact .inr ⟨f s.rev, s.q0, s.q1, h, fun _ => ⟨rfl, rfl⟩⟩
  cases i <;> first
    | exact absurd h.symm Bool.false_ne_true
    | (simp only [exec, execRevDestroy, execRevSpread, revSpreadWith, execRevSize, revSizeWith, execRevDecay,
        revDecayWith, execRevDamp, execRevBw, execRevDry, execRevWet, execRevEarly, execRevLate, execRevClear,
        execRevPrint]
       exact upd _)
    | skip
  case revInit p x =>
    simp only [exec, execRevInit, revInitWith]
    split
    · exact .inl ⟨.badParam, by decide, rfl⟩
    · split
      · exact .inl ⟨.badArgs, by decide, rfl⟩
      · split
        · exact .inr ⟨_, s.q0, s.q1, rfl, fun _ => ⟨rfl, rfl⟩⟩
        · exact .inl ⟨.alloc, by decide, rfl⟩
  case revProcess =>
    simp only [exec, execRevProcess, requireRev]
    split
    · exact .inr ⟨_, _, _, rfl, fun h => absurd rfl h⟩
    · exact .inl ⟨.noInstance, by decide, rfl⟩
  case revSetSr =>
    simp only [exec, execRevSetSr, revSetSrWith, requireRev]
    split
    · split
      · exact .inl ⟨.badArgs, by decide, rfl⟩
      · split
        · exact .inr ⟨_, s.q0, s.q1, rfl, fun _ => ⟨rfl, rfl⟩⟩
        · exact .inl ⟨.alloc, by decide, rfl⟩
    · exact .inl ⟨.noInstance, by decide, rfl⟩

end Sys2Proof.Machine
end

