-- ==== Sys2Proof/Laws/PerInstr.lean ====
section
/-!
SUPPORT. Facts about every command as syntax, one lemma for each constructor of `Instr`.
-/

namespace Sys2Proof.Laws.EncodeFields

open Sys2Proof

/-- UNIT and OP of each command (30_encoding.md section 3). -/
def unitOp : Instr → BitVec 4 × BitVec 8
  | .oscInit _ => (1, 0x01)
  | .oscStep _ => (1, 0x02)
  | .oscSetPhase => (1, 0x03)
  | .oscSetSr => (1, 0x04)
  | .oscDestroy => (1, 0x0F)
  | .revInit _ _ => (2, 0x01)
  | .revProcess => (2, 0x02)
  | .revSetSr => (2, 0x04)
  | .revDestroy => (2, 0x0F)
  | .revSpread => (2, 0x10)
  | .revSize => (2, 0x11)
  | .revDecay => (2, 0x12)
  | .revDamp => (2, 0x13)
  | .revBw => (2, 0x14)
  | .revDry => (2, 0x15)
  | .revWet => (2, 0x16)
  | .revEarly => (2, 0x17)
  | .revLate => (2, 0x18)
  | .revClear => (2, 0x20)
  | .revPrint => (2, 0x21)

/-- The word of a command has no reserved bit set, and its UNIT and OP are the opcode map's (R101 to R103). -/
def Statement (i : Instr) : Prop :=
  fieldRsv (encode i) = 0 ∧ fieldUnit (encode i) = (unitOp i).1 ∧ fieldOp (encode i) = (unitOp i).2

theorem of_commandWord {i : Instr} (field : BitVec 12)
    (h : encode i = commandWord (unitOp i).1 field (unitOp i).2) : Statement i := by
  obtain ⟨hu, hr, -, ho⟩ := commandWord_fields (unitOp i).1 field (unitOp i).2
  exact ⟨by rw [h, hr], by rw [h, hu], by rw [h, ho]⟩

theorem oscInit (shape : Nat) : Statement (.oscInit shape) := of_commandWord _ rfl
theorem oscStep (vmask : BitVec 4) : Statement (.oscStep vmask) := of_commandWord _ rfl
theorem oscSetPhase : Statement .oscSetPhase := of_commandWord _ rfl
theorem oscSetSr : Statement .oscSetSr := of_commandWord _ rfl
theorem oscDestroy : Statement .oscDestroy := of_commandWord _ rfl
theorem revInit (pmask : BitVec 10) (xmask : Nat) : Statement (.revInit pmask xmask) := of_commandWord _ rfl
theorem revProcess : Statement .revProcess := of_commandWord _ rfl
theorem revSetSr : Statement .revSetSr := of_commandWord _ rfl
theorem revDestroy : Statement .revDestroy := of_commandWord _ rfl
theorem revSpread : Statement .revSpread := of_commandWord _ rfl
theorem revSize : Statement .revSize := of_commandWord _ rfl
theorem revDecay : Statement .revDecay := of_commandWord _ rfl
theorem revDamp : Statement .revDamp := of_commandWord _ rfl
theorem revBw : Statement .revBw := of_commandWord _ rfl
theorem revDry : Statement .revDry := of_commandWord _ rfl
theorem revWet : Statement .revWet := of_commandWord _ rfl
theorem revEarly : Statement .revEarly := of_commandWord _ rfl
theorem revLate : Statement .revLate := of_commandWord _ rfl
theorem revClear : Statement .revClear := of_commandWord _ rfl
theorem revPrint : Statement .revPrint := of_commandWord _ rfl

end Sys2Proof.Laws.EncodeFields
end

