-- ==== Sys2Proof/Laws/Rounding.lean ====
section
/-!
SUPPORT. What the NUM operations answer, in exact terms (00_scope.md R8, R9, R11, R13 to R16): rounding is to the nearest
value, ties to even, an overflow is an infinity; the conversions are exact. One lemma per operation.
-/

namespace Sys2Proof.Machine.F32

open Sys2Proof

/-! ### Rounding a magnitude -/

/-- A pattern made of a significand `q` and `k` dropped bits stands for `q * 2^k` units, for subnormals (`k = 0`) and
after a carry into bit 24 as well. -/
theorem mag_pack_significand {s : Bool} {k q : Nat} (hk : k = 0 ∨ 2 ^ 23 ≤ q) (hq : q ≤ 2 ^ 24)
    (hp : k * 2 ^ 23 + q < infMag) :
    mag (pack s (k * 2 ^ 23 + q)) = q * 2 ^ k ∧ isFinite (pack s (k * 2 ^ 23 + q)) = true := by
  unfold infMag at hp
  have hlt : k * 2 ^ 23 + q < 2 ^ 31 := by omega
  have he := expo_pack (s := s) hlt
  have hf := frac_pack (s := s) hlt
  refine ⟨?_, by simp only [isFinite, bne_iff_ne]; omega⟩
  unfold mag
  rw [he, hf]
  by_cases h23 : q < 2 ^ 23
  · have hk0 : k = 0 := by omega
    subst hk0
    rw [if_pos (by omega)]
    omega
  · by_cases h24 : q = 2 ^ 24
    · subst h24
      rw [if_neg (by omega)]
      have h1 : (k * 2 ^ 23 + 2 ^ 24) / 2 ^ 23 - 1 = k + 1 := by omega
      have h2 : (k * 2 ^ 23 + 2 ^ 24) % 2 ^ 23 = 0 := by omega
      rw [h1, h2, Nat.add_zero, pow_succ]
      ring
    · rw [if_neg (by omega)]
      have h1 : (k * 2 ^ 23 + q) / 2 ^ 23 - 1 = k := by omega
      have h2 : 2 ^ 23 + (k * 2 ^ 23 + q) % 2 ^ 23 = q := by omega
      rw [h1, h2]

/-- No finite magnitude lies strictly between two neighbours. -/
theorem mag_gap {x : Num32} (h : isFinite x = true) {k q : Nat} (hk : k = 0 ∨ 2 ^ 23 ≤ q) :
    mag x ≤ q * 2 ^ k ∨ (q + 1) * 2 ^ k ≤ mag x := by
  by_contra hc
  obtain ⟨h1, h2⟩ := not_or.1 hc
  obtain ⟨a, j, hm, ha, -, -⟩ := mag_significand h
  have hj : k ≤ j := by
    by_contra hlt
    rcases hk with hk | hk
    · omega
    · have e1 : 2 ^ 23 * 2 ^ k ≤ q * 2 ^ k := Nat.mul_le_mul_right _ hk
      have e2 : a * 2 ^ j < 2 ^ 24 * 2 ^ (k - 1) :=
        Nat.lt_of_lt_of_le (Nat.mul_lt_mul_of_pos_right ha (by positivity))
          (Nat.mul_le_mul_left _ (Nat.pow_le_pow_right (by decide) (by omega)))
      have e3 : 2 ^ 24 * 2 ^ (k - 1) = 2 ^ 23 * 2 ^ k := by
        rw [← pow_add, ← pow_add]; congr 1; omega
      omega
  obtain ⟨c, hc'⟩ := Nat.pow_dvd_pow 2 hj
  have e : mag x = (a * c) * 2 ^ k := by rw [hm, hc']; ring
  rw [e] at h1 h2
  have h3 := Nat.lt_of_mul_lt_mul_right (Nat.lt_of_not_le h1)
  have h4 := Nat.lt_of_mul_lt_mul_right (Nat.lt_of_not_le h2)
  omega

/-- A significand of 24 ones is not rounded up below the midpoint of the greatest finite value and 2^128. -/
theorem no_overflow {p t d r n : Nat} (hp : p = t * 2) (h : n < (2 ^ 25 - 1) * t * d)
    (hn : d * p * (2 ^ 24 - 1) + r = n) (hr : d * p ≤ 2 * r) : False := by
  subst hp
  have e1 : (2 ^ 25 - 1) * t * d = (2 ^ 25 - 1) * (t * d) := Nat.mul_assoc _ _ _
  have e2 : d * (t * 2) = 2 * (t * d) := by ring
  rw [e1] at h
  rw [e2] at hn hr
  omega

/-- Rounding gives the nearest finite magnitude, and the even one of two that are equally near (R8), for everything
below the midpoint of the greatest finite value and 2^128. -/
theorem roundMag_nearest {n d : Nat} (s : Bool) (hd : 0 < d) (h : n < overflowUnits * d) :
    isFinite (round s n d) = true ∧ ∀ z : Num32, isFinite z = true →
      ((mag (round s n d) * d : Int) - n).natAbs ≤ ((mag z * d : Int) - n).natAbs ∧
      (((mag (round s n d) * d : Int) - n).natAbs = ((mag z * d : Int) - n).natAbs → mag z ≠ mag (round s n d) →
        roundMag n d % 2 = 0) := by
  unfold overflowUnits at h
  have hq := significand_lt n d
  have hnd : n / d < (2 ^ 25 - 1) * 2 ^ 252 := Nat.div_lt_of_lt_mul (by rw [Nat.mul_comm]; exact h)
  obtain ⟨e, he⟩ : ∃ e, e = 25 + 252 := ⟨_, rfl⟩
  have hpow : (2 ^ 25 - 1) * 2 ^ 252 ≤ 2 ^ e := by
    rw [he, pow_add]
    exact Nat.mul_le_mul_right _ (by decide)
  have hk253 : Nat.log2 (n / d) - 23 ≤ 253 := by
    by_cases h0 : n / d = 0
    · rw [h0]; decide
    · have hl : Nat.log2 (n / d) < e := (Nat.log2_lt h0).2 (Nat.lt_of_lt_of_le hnd hpow)
      omega
  clear hpow
  have hbig : Nat.log2 (n / d) - 23 = 0 ∨ 2 ^ 23 ≤ n / (d * 2 ^ (Nat.log2 (n / d) - 23)) := by
    by_cases hk0 : Nat.log2 (n / d) - 23 = 0
    · exact .inl hk0
    · refine .inr ?_
      have h0 : n / d ≠ 0 := by intro h0; rw [h0] at hk0; exact hk0 (by decide)
      rw [← Nat.div_div_eq_div_mul, Nat.le_div_iff_mul_le (by positivity), ← pow_add]
      have : 23 + (Nat.log2 (n / d) - 23) = Nat.log2 (n / d) := by omega
      rw [this]
      exact Nat.log2_self_le h0
  have hrm : roundMag n d = min ((Nat.log2 (n / d) - 23) * 2 ^ 23 + (n / (d * 2 ^ (Nat.log2 (n / d) - 23)) +
      if d * 2 ^ (Nat.log2 (n / d) - 23) < 2 * (n % (d * 2 ^ (Nat.log2 (n / d) - 23))) ∨
        2 * (n % (d * 2 ^ (Nat.log2 (n / d) - 23))) = d * 2 ^ (Nat.log2 (n / d) - 23) ∧
        n / (d * 2 ^ (Nat.log2 (n / d) - 23)) % 2 = 1 then 1 else 0)) infMag := rfl
  generalize Nat.log2 (n / d) - 23 = k at *
  have hdk : 0 < d * 2 ^ k := by positivity
  have hdiv := Nat.div_add_mod n (d * 2 ^ k)
  have hmod := Nat.mod_lt n hdk
  generalize n / (d * 2 ^ k) = q at *
  generalize n % (d * 2 ^ k) = r at *
  -- the significand after rounding
  obtain ⟨up, hup, hcase⟩ : ∃ up : Nat, (if d * 2 ^ k < 2 * r ∨ 2 * r = d * 2 ^ k ∧ q % 2 = 1 then 1 else 0) = up ∧
      (up = 0 ∧ (2 * r < d * 2 ^ k ∨ 2 * r = d * 2 ^ k ∧ q % 2 = 0) ∨
       up = 1 ∧ (d * 2 ^ k < 2 * r ∨ 2 * r = d * 2 ^ k ∧ q % 2 = 1)) := by
    split
    · rename_i hc; exact ⟨1, rfl, .inr ⟨rfl, hc⟩⟩
    · rename_i hc; exact ⟨0, rfl, .inl ⟨rfl, by omega⟩⟩
  rw [hup] at hrm
  have hpat : k * 2 ^ 23 + (q + up) < infMag := by
    unfold infMag
    by_cases hk : k = 253
    · subst hk
      have hne : ¬ (q = 2 ^ 24 - 1 ∧ up = 1) := by
        rintro ⟨rfl, rfl⟩
        exact no_overflow (pow_succ 2 252) h hdiv (by omega)
      omega
    · omega
  rw [Nat.min_eq_left (by omega)] at hrm
  have hsig : k = 0 ∨ 2 ^ 23 ≤ q + up := by omega
  obtain ⟨hmag, hfin⟩ := mag_pack_significand (s := s) hsig (by omega) hpat
  have hr : round s n d = pack s (k * 2 ^ 23 + (q + up)) := by unfold round; rw [hrm]
  rw [hr, hmag, hrm]
  refine ⟨hfin, fun z hz => ?_⟩
  have e0 : ((q + up : Nat) * 2 ^ k : Nat) * d = d * 2 ^ k * q + d * 2 ^ k * up := by ring
  have hgap : mag z * d ≤ d * 2 ^ k * q ∨ d * 2 ^ k * q + d * 2 ^ k ≤ mag z * d := by
    rcases mag_gap hz hbig with hg | hg
    · left; calc mag z * d ≤ q * 2 ^ k * d := Nat.mul_le_mul_right _ hg
        _ = d * 2 ^ k * q := by ring
    · right; calc d * 2 ^ k * q + d * 2 ^ k = (q + 1) * 2 ^ k * d := by ring
        _ ≤ mag z * d := Nat.mul_le_mul_right _ hg
  have hne : mag z ≠ (q + up) * 2 ^ k → mag z * d ≠ (q + up) * 2 ^ k * d := fun hne he =>
    hne (Nat.eq_of_mul_eq_mul_right hd he)
  rw [e0] at hne
  have c1 : (((q + up) * 2 ^ k : Nat) : Int) * d = ((d * 2 ^ k * q + d * 2 ^ k * up : Nat) : Int) := by
    rw [← e0]; push_cast; ring
  have c2 : (mag z : Int) * d = ((mag z * d : Nat) : Int) := by push_cast; ring
  rw [c1, c2]
  generalize mag z * d = M at *
  generalize d * 2 ^ k = D at *
  generalize D * q = A at *
  have hu : D * up = if up = 0 then 0 else D := by
    rcases hcase with ⟨rfl, -⟩ | ⟨rfl, -⟩ <;> simp
  rw [hu] at *
  rcases hcase with ⟨rfl, hc⟩ | ⟨rfl, hc⟩ <;> simp only [if_true, if_false, Nat.one_ne_zero] at * <;>
    refine ⟨by omega, fun he hn => ?_⟩ <;> have hn' := hne hn <;> omega

/-! ### Rounding a value -/

theorem toNat_round_parity (s : Bool) (n d : Nat) : (round s n d).toNat % 2 = roundMag n d % 2 := by
  unfold round
  rw [pack_toNat (roundMag_lt n d)]
  split <;> omega

/-- What is at or above the midpoint of the greatest finite value and 2^128 rounds to an infinity (R9). -/
theorem roundMag_overflow {n d : Nat} (hd : 0 < d) (h : overflowUnits * d ≤ n) : roundMag n d = infMag := by
  have h1 := roundMag_mono (n₁ := overflowUnits) (n₂ := n) Nat.one_pos hd (by rw [Nat.mul_one]; exact h)
  have h2 : roundMag overflowUnits 1 = infMag := by decide +kernel
  have := roundMag_le_infMag n d
  omega

/-- The sign is that of the value, or the value is zero. -/
abbrev SignOf (s : Bool) (n : Int) : Prop := (s = true → n ≤ 0) ∧ (s = false → 0 ≤ n)

/-- A magnitude at least as near as every other is at least as near as every value of the other sign. -/
theorem nearest_across {a w n m v p : Nat} (h0 : ((a : Int) - n).natAbs ≤ ((0 : Int) - n).natAbs ∧
      (((a : Int) - n).natAbs = ((0 : Int) - n).natAbs → 0 ≠ m → p % 2 = 0)) (hv : w = 0 → v = 0) :
    ((a : Int) - n).natAbs ≤ w + n ∧ (((a : Int) - n).natAbs = w + n → ¬ (v = 0 ∧ m = 0) → p % 2 = 0) := by
  refine ⟨by omega, fun he hne => h0.2 (by omega) fun hm => hne ⟨hv (by omega), hm.symm⟩⟩

theorem natAbs_sub_pos {n : Int} (h : 0 ≤ n) (a : Nat) : ((a : Int) - n).natAbs = ((a : Int) - n.natAbs).natAbs := by
  omega

theorem natAbs_neg_sub {n : Int} (h : n ≤ 0) (a : Nat) : (-(a : Int) - n).natAbs = ((a : Int) - n.natAbs).natAbs := by
  omega

theorem natAbs_neg_sub_pos {n : Int} (h : 0 ≤ n) (a : Nat) : (-(a : Int) - n).natAbs = a + n.natAbs := by omega

theorem natAbs_sub_neg {n : Int} (h : n ≤ 0) (a : Nat) : ((a : Int) - n).natAbs = a + n.natAbs := by omega

theorem fix_of_sign (x : Num32) : (sign x = true → fix x = -(mag x : Int)) ∧ (sign x = false → fix x = mag x) := by
  unfold fix
  constructor <;> intro h <;> simp [h]

/-- A signed quotient below the overflow is rounded to the nearest value. -/
theorem round_nearest {s : Bool} {n : Int} {d : Nat} (hd : 0 < d) (hs : SignOf s n)
    (h : n.natAbs < overflowUnits * d) : NearestEven (round s n.natAbs d) n d := by
  obtain ⟨hf, hnear⟩ := roundMag_nearest s hd h
  refine ⟨hf, fun z hz => ?_⟩
  have h0 := hnear zero (by decide)
  rw [show mag zero = 0 by decide] at h0
  have hz := hnear z hz
  rw [toNat_round_parity]
  have hy := fix_of_sign (round s n.natAbs d)
  rw [sign_round] at hy
  have hzf := fix_of_sign z
  generalize fix (round s n.natAbs d) = fy at *
  generalize mag (round s n.natAbs d) = m at *
  generalize roundMag n.natAbs d = p at *
  have cast : ∀ a : Nat, (a : Int) * d = ((a * d : Nat) : Int) := fun a => by push_cast; rfl
  have cast' : ∀ a : Nat, -(a : Int) * d = -((a * d : Nat) : Int) := fun a => by push_cast; ring
  have hw : mag z * d = 0 → mag z = 0 := fun e => by
    rcases Nat.mul_eq_zero.1 e with e | e <;> omega
  rw [cast, cast, Nat.zero_mul] at h0
  rw [cast, cast] at hz
  have across := nearest_across (a := m * d) (w := mag z * d) h0 hw
  cases s
  · have hn := hs.2 rfl
    rw [hy.2 rfl, cast, natAbs_sub_pos hn]
    cases hsz : sign z
    · rw [hzf.2 hsz, cast, natAbs_sub_pos hn]
      exact ⟨hz.1, fun e hne => hz.2 e (by omega)⟩
    · rw [hzf.1 hsz, cast', natAbs_neg_sub_pos hn]
      exact ⟨across.1, fun e hne => across.2 e (by omega)⟩
  · have hn := hs.1 rfl
    rw [hy.1 rfl, cast', natAbs_neg_sub hn]
    cases hsz : sign z
    · rw [hzf.2 hsz, cast, natAbs_sub_neg hn]
      exact ⟨across.1, fun e hne => across.2 e (by omega)⟩
    · rw [hzf.1 hsz, cast', natAbs_neg_sub hn]
      exact ⟨hz.1, fun e hne => hz.2 e (by omega)⟩

theorem overflowUnits_pos : 0 < overflowUnits := by unfold overflowUnits; positivity

/-- Rounding a signed quotient. A zero may carry either sign. -/
theorem round_rounded {s : Bool} {n : Int} {d : Nat} (hd : 0 < d) (hs : SignOf s n) :
    RoundedTo (round s n.natAbs d) n d := by
  refine ⟨round_nearest hd hs, fun h => ?_⟩
  have hpos := Nat.mul_pos overflowUnits_pos hd
  have hs' : s = decide (n < 0) := by
    cases s
    · have := hs.2 rfl; exact (decide_eq_false (by omega)).symm
    · have := hs.1 rfl; exact (decide_eq_true (by omega)).symm
  unfold round infinity
  rw [roundMag_overflow hd h, hs']

/-! ### The operations on finite operands (R8, R9) -/

theorem rounded_zero (s : Bool) : RoundedTo (pack s 0) 0 1 := by
  have h := round_rounded (s := s) (n := 0) (d := 1) Nat.one_pos ⟨fun _ => le_refl _, fun _ => le_refl _⟩
  have e : round s (Int.natAbs 0) 1 = pack s 0 := by unfold round; rw [Int.natAbs_zero, roundMag_zero]
  rwa [e] at h

theorem signOf_decide (n : Int) : SignOf (decide (n < 0)) n :=
  ⟨fun h => Int.le_of_lt (of_decide_eq_true h), fun h => Int.not_lt.1 (of_decide_eq_false h)⟩

theorem addValues_rounded {op : NumOp} {x y : Num32} (hx : isFinite x = true) (hy : isFinite y = true) :
    RoundedTo (addValues op x y) (fix x + fix y) 1 := by
  have e : addValues op x y = if fix x + fix y = 0 then pack (sign x && sign y) 0
      else round (decide (fix x + fix y < 0)) (fix x + fix y).natAbs 1 := by
    unfold addValues
    simp only [isInf_of_isFinite hx, isInf_of_isFinite hy, Bool.false_eq_true, if_false]
  rw [e]
  by_cases h : fix x + fix y = 0
  · rw [if_pos h, h]; exact rounded_zero _
  · rw [if_neg h]; exact round_rounded Nat.one_pos (signOf_decide _)

theorem add_rounded {x y : Num32} (hx : isFinite x = true) (hy : isFinite y = true) :
    RoundedTo (add x y) (fix x + fix y) 1 := by
  have e : add x y = addValues .add x y := by
    simp only [add, isNaN_of_isFinite hx, isNaN_of_isFinite hy, Bool.or_false, Bool.false_eq_true, if_false]
  rw [e]
  exact addValues_rounded hx hy

theorem sub_rounded {x y : Num32} (hx : isFinite x = true) (hy : isFinite y = true) :
    RoundedTo (sub x y) (fix x - fix y) 1 := by
  have e : sub x y = addValues .sub x (neg y) := by
    simp only [sub, isNaN_of_isFinite hx, isNaN_of_isFinite hy, Bool.or_false, Bool.false_eq_true, if_false]
  rw [e, Int.sub_eq_add_neg, ← fix_neg]
  exact addValues_rounded hx ((isFinite_neg y).trans hy)

theorem oneUnits_pos : 0 < oneUnits := by unfold oneUnits; positivity

theorem signOf_fix (x : Num32) : SignOf (sign x) (fix x) := by
  constructor <;> intro h
  · rw [(fix_of_sign x).1 h]; omega
  · rw [(fix_of_sign x).2 h]; omega

theorem signOf_mul {s t : Bool} {a b : Int} (ha : SignOf s a) (hb : SignOf t b) : SignOf (s != t) (a * b) := by
  cases s <;> cases t
  · exact ⟨nofun, fun _ => Int.mul_nonneg (ha.2 rfl) (hb.2 rfl)⟩
  · exact ⟨fun _ => Int.mul_nonpos_of_nonneg_of_nonpos (ha.2 rfl) (hb.1 rfl), nofun⟩
  · exact ⟨fun _ => Int.mul_nonpos_of_nonpos_of_nonneg (ha.1 rfl) (hb.2 rfl), nofun⟩
  · exact ⟨nofun, fun _ => Int.mul_nonneg_of_nonpos_of_nonpos (ha.1 rfl) (hb.1 rfl)⟩

theorem mul_rounded {x y : Num32} (hx : isFinite x = true) (hy : isFinite y = true) :
    RoundedTo (mul x y) (fix x * fix y) oneUnits := by
  have h := round_rounded (d := oneUnits) oneUnits_pos (signOf_mul (signOf_fix x) (signOf_fix y))
  rw [Int.natAbs_mul, fix_natAbs, fix_natAbs] at h
  rw [mul_of_finite hx hy]
  exact h

theorem div_rounded {x y : Num32} (hx : isFinite x = true) (hy : isFinite y = true) (h0 : isZero y = false) :
    RoundedTo (div x y) (fix x * (fix y).sign * oneUnits) (mag y) := by
  have hp : 0 < mag y := by
    rcases Nat.eq_zero_or_pos (mag y) with h | h
    · rw [isZero_iff.2 h] at h0; exact absurd h0 (by decide)
    · exact h
  have hne : fix y ≠ 0 := fun h => by
    have := fix_natAbs y
    rw [h, Int.natAbs_zero] at this
    omega
  have hab : (fix x * (fix y).sign * oneUnits).natAbs = mag x * oneUnits := by
    rw [Int.natAbs_mul, Int.natAbs_mul, fix_natAbs, Int.natAbs_natCast, Int.natAbs_sign_of_ne_zero hne, Nat.mul_one]
  have hsy : SignOf (sign y) (fix y).sign :=
    ⟨fun h => Int.sign_nonpos_iff.2 ((signOf_fix y).1 h), fun h => Int.sign_nonneg_iff.2 ((signOf_fix y).2 h)⟩
  have hu : SignOf false (oneUnits : Int) := ⟨nofun, fun _ => Int.natCast_nonneg _⟩
  have h := round_rounded (d := mag y) hp (signOf_mul (signOf_mul (signOf_fix x) hsy) hu)
  rw [hab, Bool.bne_false] at h
  rw [div_of_finite hx hy h0]
  exact h

/-! ### Conversions (R13 to R16) -/

/-- The distance above the floor, rounded, or +0.0 where that rounds to 1.0 (R16). -/
theorem wrap_of_finite {x : Num32} (h : isFinite x = true) :
    wrap x = if round false (fix x % (oneUnits : Int)).toNat 1 = one then zero
      else round false (fix x % (oneUnits : Int)).toNat 1 := by
  obtain ⟨hf, hs, hfix⟩ := floor_exact h
  have hpos : (0 : Int) < oneUnits := by exact_mod_cast oneUnits_pos
  have hmod : fix x - fix (floor x) = fix x % (oneUnits : Int) := by
    rw [hfix]; have := Int.emod_add_mul_ediv (fix x) (oneUnits : Int); linarith
  have h0 := Int.emod_nonneg (fix x) hpos.ne'
  have h1 := Int.emod_lt_of_pos (fix x) hpos
  have hsub : sub x (floor x) = round false (fix x % (oneUnits : Int)).toNat 1 := by
    rw [sub_of_finite h hf, hmod, hs]
    split
    · rename_i hz
      rw [hz]
      unfold round
      rw [Int.toNat_zero, roundMag_zero, Bool.and_not_self]
    · rw [decide_eq_false (by omega)]
      congr 1
      omega
  have hle : roundMag (fix x % (oneUnits : Int)).toNat 1 ≤ 0x3F800000 := by
    refine Nat.le_trans (roundMag_mono (n₂ := oneUnits) Nat.one_pos Nat.one_pos (by omega)) ?_
    decide +kernel
  unfold wrap
  rw [if_pos h, hsub]
  have hlt := roundMag_lt (fix x % (oneUnits : Int)).toNat 1
  have hiff : le one (round false (fix x % (oneUnits : Int)).toNat 1) = true ↔
      round false (fix x % (oneUnits : Int)).toNat 1 = one := by
    constructor
    · intro hge
      have hk := (le_iff.1 hge).2.2
      unfold round at hk ⊢
      rw [key_one, key_pack hlt, if_neg Bool.false_ne_true] at hk
      have : roundMag (fix x % (oneUnits : Int)).toNat 1 = 0x3F800000 := by omega
      rw [this]
      decide
    · intro he; rw [he]; decide
  simp only [hiff]

/-- `fmod(x, 1)` is exact and keeps the sign (R15). -/
theorem fmodOne_of_finite {x : Num32} (h : isFinite x = true) :
    isFinite (fmodOne x) = true ∧ sign (fmodOne x) = sign x ∧ fix (fmodOne x) = (fix x).tmod oneUnits := by
  obtain ⟨q, j, hm, hq, hj, hlt⟩ := mag_significand h
  have hrep : ∃ q' j', mag x % oneUnits = q' * 2 ^ j' ∧ q' < 2 ^ 24 ∧ q' * 2 ^ j' < 2 ^ 277 := by
    by_cases hbig : 149 ≤ j
    · refine ⟨0, 0, ?_, by decide, by positivity⟩
      rw [hm, Nat.zero_mul]
      exact Nat.mod_eq_zero_of_dvd (Dvd.dvd.mul_left (Nat.pow_dvd_pow 2 hbig) q)
    · refine ⟨q % 2 ^ (149 - j), j, ?_, Nat.lt_of_le_of_lt (Nat.mod_le _ _) hq, ?_⟩
      · rw [hm]
        unfold oneUnits
        rw [show 149 = (149 - j) + j by omega, pow_add, Nat.mul_mod_mul_right, Nat.add_sub_cancel]
      · exact Nat.lt_of_le_of_lt (Nat.mul_le_mul_right _ (Nat.mod_le _ _)) (hm ▸ hlt)
  obtain ⟨q', j', he, hq', hlt'⟩ := hrep
  have hr := mag_round (s := sign x) hq' hlt'
  rw [← he] at hr
  have hfm : fmodOne x = round (sign x) (mag x % oneUnits) 1 := by unfold fmodOne; rw [if_pos h]
  rw [hfm]
  refine ⟨hr.2, sign_round _ _ _, ?_⟩
  unfold fix
  rw [sign_round, hr.1]
  split
  · rw [Int.neg_tmod, Int.tmod_eq_emod_of_nonneg (by positivity)]; push_cast; rfl
  · rw [Int.tmod_eq_emod_of_nonneg (by positivity)]; push_cast; rfl

end Sys2Proof.Machine.F32
end

