-- ==== Sys2Proof/Laws/Silence.lean ====
section
/-!
SUPPORT. Zeros through the delay lines and the two filter primitives (43_rev_process.md R256): what is silent stays
silent.
-/

namespace Sys2Proof.Machine

open Sys2Proof F32

theorem isZero_zero : isZero zero = true := by decide

theorem Memory.read_silent {m : Memory} (h : m.all (fun c => isZero c.2) = true) (k : Nat) :
    isZero (Memory.read m k) = true := by
  induction m with
  | nil => exact isZero_zero
  | cons c t ih =>
    simp only [List.all_cons, Bool.and_eq_true] at h
    simp only [Memory.read]
    split
    · exact h.1
    · exact ih h.2

theorem dlRead_silent {L : DelayLine} (h : L.silent = true) (n : Nat) : isZero (dlRead L n) = true :=
  Memory.read_silent h _

theorem dlWrite_silent {L : DelayLine} (h : L.silent = true) {v : Num32} (hv : isZero v = true) :
    (dlWrite L v).silent = true := by
  unfold DelayLine.silent at *
  rw [List.all_eq_true] at *
  intro c hc
  rcases Memory.mem_write hc with rfl | hc
  · exact isZero_sanitize hv
  · exact h c hc

/-- A zero through a silent allpass stage is a zero, and the stage stays silent (R241). -/
theorem diffuse_silent {L : DelayLine} (h : L.silent = true) {c x : Num32} (hc : isFinite c = true)
    (hx : isZero x = true) : (diffuse L c x).1.silent = true ∧ isZero (diffuse L c x).2 = true := by
  have hb := dlRead_silent h L.size
  have hw : isZero (sanitize (sub x (mul (dlRead L L.size) c))) = true :=
    isZero_sanitize (isZero_sub hx (isZero_mul_left hb hc))
  exact ⟨dlWrite_silent h hw, isZero_add hb (isZero_mul_left hw hc)⟩

/-- A zero through a silent damper is a zero, for a coefficient in [0,1] (R240). -/
theorem damp_silent {D : Damper} {x : Num32} (hs : isZero D.s = true) (hx : isZero x = true)
    (hc : InRange D.c zero one) : isZero (damp D x).2 = true :=
  isZero_add (isZero_mul_left hx (sub_one_range hc.1 hc.2).1) (isZero_mul_left hs (unit_fix hc.1 hc.2).1)

end Sys2Proof.Machine
end

