-- ==== Sys2Proof/Tests/Slice0.lean ====
section
/-!
SUPPORT. The model's own tests, and for every statement with hypotheses a state and operands that meet them. The
expected values are those of spec/95_test_vectors.md (named at each test) or of the rule that is named.
-/

namespace Sys2Proof.Tests

-- One theorem at a time: each `decide +kernel` below would otherwise wait in a thread of its own.
set_option Elab.async false

open Sys2Proof Sys2Proof.Machine Sys2Proof.Machine.F32

/-! ### Literals (00_scope.md R10): each constant is the NUM value nearest to its decimal -/

theorem test_literals_wave :
    num0_25 = literal 25 100 ∧ num0_5 = literal 5 10 ∧ num0_75 = literal 75 100 ∧ num2 = literal 2 1 ∧
    num3 = literal 3 1 ∧ num4 = literal 4 1 ∧ one = literal 1 1 ∧ num0_01 = literal 1 100 ∧
    num0_99 = literal 99 100 := by decide +kernel

theorem test_literals_ranges :
    num0_1 = literal 1 10 ∧ num0_001 = literal 1 1000 ∧ num3600 = literal 3600 1 ∧ num100000 = literal 100000 1 ∧
    num340 = literal 340 1 ∧ num100 = literal 100 1 ∧ num300 = literal 300 1 ∧ num1341 = literal (210 + 159 + 562 + 410) 1 ∧
    num50 = literal 50 1 ∧ num7 = literal 7 1 ∧ num0_15 = literal 15 100 := by decide +kernel

theorem test_literals_ratios :
    lenRatio = ⟨literal 1 1, literal 81649 100000, literal 70710 100000, literal 63245 100000⟩ ∧
    tapRatio = ⟨literal 410 1000, literal 300 1000, literal 155 1000, zero⟩ ∧
    diffCoeff = ⟨literal 75 100, literal 75 100, literal 625 1000, literal 625 1000⟩ ∧
    diffRDefault = ⟨literal 125541 1000000, literal 854046 1000000, neg (literal 568366 1000000),
      neg (literal 126815 1000000)⟩ := by decide +kernel

/-! ### Well-formedness: every check refuses an ill-formed term -/

theorem test_wellFormed_shape : (Instr.oscInit 16).wellFormed = false ∧ (Instr.oscInit 15).wellFormed = true := by
  decide
theorem test_wellFormed_xmask :
    (Instr.revInit 0 4).wellFormed = false ∧ (Instr.revInit 0x3FF 3).wellFormed = true := by decide

/-! ### Decoding: a word for every constructor, from 30_encoding.md section 3 and 95 section 4 -/

theorem test_decode_oscInit : decode 0x10000401#32 = .ok (.oscInit 4) ∧ decode 0x10000F01#32 = .ok (.oscInit 15) := by
  decide
theorem test_decode_oscStep : decode 0x10000002#32 = .ok (.oscStep 0) ∧ decode 0x10000F02#32 = .ok (.oscStep 0xF) := by
  decide
theorem test_decode_oscStep_bits :
    decode 0x10000102#32 = .ok (.oscStep 1) ∧ decode 0x10000802#32 = .ok (.oscStep 8) := by decide
theorem test_decode_oscSetPhase : decode 0x10000003#32 = .ok .oscSetPhase := by decide
theorem test_decode_oscSetSr : decode 0x10000004#32 = .ok .oscSetSr := by decide
theorem test_decode_oscDestroy : decode 0x1000000F#32 = .ok .oscDestroy := by decide
theorem test_decode_revInit :
    decode 0x20000001#32 = .ok (.revInit 0 0) ∧ decode 0x200FFF01#32 = .ok (.revInit 0x3FF 3) := by decide
theorem test_decode_revInit_bits :
    decode 0x20000101#32 = .ok (.revInit 1 0) ∧ decode 0x20040001#32 = .ok (.revInit 0 1) := by decide
theorem test_decode_revProcess : decode 0x20000002#32 = .ok .revProcess := by decide
theorem test_decode_revSetSr : decode 0x20000004#32 = .ok .revSetSr := by decide
theorem test_decode_revDestroy : decode 0x2000000F#32 = .ok .revDestroy := by decide
theorem test_decode_revSpread : decode 0x20000010#32 = .ok .revSpread := by decide
theorem test_decode_revSize : decode 0x20000011#32 = .ok .revSize := by decide
theorem test_decode_revDecay : decode 0x20000012#32 = .ok .revDecay := by decide
theorem test_decode_revDamp : decode 0x20000013#32 = .ok .revDamp := by decide
theorem test_decode_revBw : decode 0x20000014#32 = .ok .revBw := by decide
theorem test_decode_revDry : decode 0x20000015#32 = .ok .revDry := by decide
theorem test_decode_revWet : decode 0x20000016#32 = .ok .revWet := by decide
theorem test_decode_revEarly : decode 0x20000017#32 = .ok .revEarly := by decide
theorem test_decode_revLate : decode 0x20000018#32 = .ok .revLate := by decide
theorem test_decode_revClear : decode 0x20000020#32 = .ok .revClear := by decide
theorem test_decode_revPrint : decode 0x20000021#32 = .ok .revPrint := by decide

/-- The illegal words of 95 section 4. -/
theorem test_decode_illegal :
    [0x00000000#32, 0x30000001#32, 0xF0000002#32, 0x10000000#32, 0x10000005#32, 0x10000010#32, 0x10100002#32,
      0x18000002#32, 0x10001002#32, 0x10080201#32, 0x10000103#32, 0x20000003#32, 0x2000000E#32, 0x20000019#32,
      0x2000001F#32, 0x20000022#32, 0x20000102#32, 0x20000120#32].map
      (fun w => decodeTableWord 32 w.toNat) = List.replicate 18 none := by decide

/-! ### Helpers -/

/-- The state of an outcome. -/
def after (r : Result) : State :=
  match r with
  | .next s => s
  | .fault _ => .reset
  | .refused _ => .reset

/-- One step that writes the word to CMD. -/
def run (w : Word) (s : State) : State := after (step (s.withFetchWord 32 w.toNat))

/-- Operand registers with A[0] to A[3] given. -/
def ops (a0 a1 a2 a3 : Word) : Operands := { Operands.zero with a0 := a0, a1 := a1, a2 := a2, a3 := a3 }

/-- `s` with A[0] given. -/
def withA0 (s : State) (w : Word) : State := { s with a := { s.a with a0 := w } }

/-- A fresh oscillator at 48000 Hz: SHAPE, frequency, pulse width, phase. -/
def osc (shape : Nat) (freq pw phase : Num32) : State :=
  after (execOscInit shape { State.reset with a := ops freq pw phase 48000 })

/-- 6000 Hz, dt 0.125. -/
def f6000 : Num32 := 0x45BB8000#32
/-- 0.3 -/
def num03 : Num32 := 0x3E99999A#32
/-- A NaN. -/
def aNaN : Num32 := 0x7FC00000#32

/-- The default reverberator for a sample rate, with the hardware's own parameters. -/
def rev (sr : Word) : State :=
  after (execRevInit 0 0 { State.reset with a := { Operands.zero with a10 := sr } })

/-- The small instance of 95 section 3.3 with the reference POW; A[0] is 1.0. -/
def small : State :=
  after (revInitWith paramsReference 0x3FE 0
    { State.reset with a :=
      { a0 := 0x3F800000, a1 := 0x3F800000, a2 := 0, a3 := 0x3F800000, a4 := 0x3F800000, a5 := 0, a6 := 0
        a7 := 0x3E800000, a8 := 0x3E800000, a9 := 0x3F800000, a10 := 3400 } })

/-! ### Primitives (95 section 2.1) -/

theorem test_wrap :
    [0xBE800000#32, 0x3F800000#32, 0x40100000#32, 0xC0700000#32, 0x3F7FFFFF#32, 0x7F800000#32, aNaN,
      0x8DA24260#32].map wrap =
    [0x3F400000#32, 0#32, 0x3E800000#32, 0x3E800000#32, 0x3F7FFFFF#32, 0#32, 0#32, 0#32] := by decide +kernel

theorem test_fmod_keeps_sign :
    [0x40300000#32, 0xBFA00000#32, 0x3F800000#32, 0xBF800000#32].map fmodOne =
    [0x3F400000#32, 0xBE800000#32, 0#32, 0x80000000#32] := by decide +kernel

theorem test_conversions :
    [0x40200000#32, 0xC0200000#32, 0x3F000000#32].map roundHalfAway = [3, -3, 1] ∧
    [literal 29 10, neg (literal 29 10)].map trunc = [2, -2] := by decide +kernel

theorem test_clamp :
    clamp aNaN num0_01 num0_99 = 0x3C23D70A#32 ∧ clamp num2 num0_01 num0_99 = 0x3F7D70A4#32 := by decide +kernel

theorem test_blep :
    blepReference 0x3D800000 0x3E000000 = 0x3E800000 ∧ blepReference (literal 999 1000) 0x3E000000 = 0xBF7BEBA2 := by
  decide +kernel

theorem test_blamp :
    blampReference 0 0x3E000000 = 0xBEAAAAAB ∧ blampReference (literal 999 1000) 0x3E000000 = 0xBEA69A79 := by
  decide +kernel

/-! ### Oscillator commands (95 section 2) -/

/-- V22: pulse width 0.0 is clamped, the hold register keeps it. -/
theorem test_oscInit_clamps_width :
    (osc 1 f6000 0 0).osc.pulseWidth = 0x3C23D70A ∧ (osc 1 f6000 0 0).osc.pwHold = 0 := by decide +kernel

/-- V25, V26: the phase is wrapped, a NaN gives 0.0. -/
theorem test_oscInit_wraps_phase :
    (osc 2 f6000 num0_5 0x40100000).osc.phase = 0x3E800000 ∧ (osc 2 f6000 num0_5 aNaN).osc.phase = 0 := by
  decide +kernel

/-- V23: a square whose pulse width becomes 0.99. -/
theorem test_oscStep_square :
    let t := run 0x10000402 { osc 1 f6000 0 0 with a := ops 0 0 0x40000000 0 }
    t.q0 = 0x3F58ADAE ∧ t.osc.pulseWidth = 0x3F7D70A4 ∧ t.osc.pwHold = 0x40000000 := by decide +kernel

/-- V4: sync replaces the modulation of this sample, and the offset is still stored. -/
theorem test_oscStep_sync :
    let t := run 0x10000A02 { osc 2 f6000 num0_5 0x3E800000 with a := ops 0 0x3E800000 0 0x3F400000 }
    t.q0 = 0xBF000000 ∧ t.osc.phase = 0x3F600000 ∧ t.osc.lastPhaseOffset = 0x3E800000 := by decide +kernel

/-- The second sample of section 2.2 on a Triangle and the first on a VariableSaw, each as one step. -/
theorem test_oscStep_corrections :
    (run 0x10000002 (osc 4 f6000 num0_5 0x3E400000)).q0 = 0x3F3AAAAB ∧
    (run 0x10000002 (osc 0 f6000 num0_5 0x3D800000)).q0 = 0x3EF1C71C := by decide +kernel

/-- V11, first half: the phase is not written. -/
theorem test_oscSetPhase :
    let t := run 0x10000003 { osc 2 f6000 num0_5 0 with a := ops 0xBE800000 0 0 0 }
    t.osc.spPending = true ∧ t.osc.spValue = 0xBE800000 ∧ t.osc.phase = 0 := by decide +kernel

/-- O7, O8. -/
theorem test_oscSetSr :
    (run 0x10000004 (withA0 (osc 3 f6000 num0_5 0) 96000)).osc.sr = 96000 ∧
    (run 0x10000004 (withA0 (osc 3 f6000 num0_5 0) 0)).status = 5 := by decide +kernel

/-- O9, O10. -/
theorem test_oscDestroy :
    (run 0x1000000F (osc 3 f6000 num0_5 0)).osc.present = false ∧ (run 0x1000000F State.reset).status = 2 := by
  decide +kernel

/-! ### Reverberator commands (95 section 3) -/

/-- Section 3.1, defaults at 48000. -/
theorem test_revInit_sizes :
    (rev 48000).rev.len = ⟨7059, 5763, 4991, 4464⟩ ∧ (rev 48000).rev.tap = ⟨2899, 2123, 1099, 5⟩ ∧
    (rev 48000).rev.diffSizeL = ⟨699, 532, 1993, 1238⟩ ∧ (rev 48000).rev.diffSizeR = ⟨699, 502, 1880, 1381⟩ := by
  decide +kernel

/-- E7, E8 and, with the reference POW, the gains of section 3.2. -/
theorem test_revInit_capacity_and_gains :
    (rev 297097).status = 0 ∧ (rev 297098).status = 6 ∧ small.rev.alpha = 0x3F7F7AFC ∧
    small.rev.fdnGain = ⟨0xBF7AD9ED, 0xBF7BDF67, 0xBF7C628A, 0xBF7CE5F2⟩ := by decide +kernel

/-- The reference POW (R18), by hand: the exact tie (0x3F018000)^3 goes to the even side; 2^-0.5, 4^-1.5 and (-2)^3; and
an exponent +inf stays in [0,1]. -/
theorem test_powReference :
    powReference 0x3F018000 num3 = 0x3E048D8E ∧ powReference num2 (neg num0_5) = 0x3F3504F3 ∧
    powReference num4 (neg 0x3FC00000) = 0x3E000000 ∧ powReference (neg num2) num3 = neg 0x41000000 := by
  decide +kernel

theorem test_powReference_infinite : InRange (powReference num0_5 numInf) zero one :=
  powAdmissible_unit (by decide) (by decide) (by decide)

/-- Section 3.3, sample 0, and the words that program 3 finds after it. -/
theorem test_revProcess_impulse :
    let t := run 0x20000002 small
    t.q0 = 0x3D960000 ∧ t.q1 = 0x3D960000 ∧ t.rev.tapLine.buf = [(0, num0_75)] ∧ t.rev.tapLine.idx = 1 ∧
    t.rev.difR.i0.buf = [] := by decide +kernel

/-- Section 3.4: the limit itself is kept, what lies above it is not. -/
theorem test_revProcess_gate :
    gateInput num100000 = num100000 ∧ gateInput (literal 100001 1) = 0 ∧ gateInput 0xFF800000 = 0 := by
  decide +kernel

/-- Section 3.1, SR 44100; E11. -/
theorem test_revSetSr :
    (run 0x20000004 (withA0 (rev 48000) 44100)).rev.diffSizeR = ⟨642, 461, 1728, 1269⟩ ∧
    (run 0x20000004 (withA0 (rev 48000) 300000)).status = 6 := by decide +kernel

theorem test_revDestroy : (run 0x2000000F (rev 48000)).rev.present = false := by decide +kernel

/-- Section 3.5: spread 1.0 and a NaN. -/
theorem test_revSpread :
    (run 0x20000010 (withA0 (rev 48000) one)).rev.diffSizeR = ⟨699, 342, 1930, 1491⟩ ∧
    (run 0x20000010 (withA0 (rev 48000) aNaN)).rev.par.spread = 0 := by decide +kernel

/-- R197 by hand for the DIFF_R (1, -1, -1, 1) at spread 1: the parts 210, 259, 162, 710 and 210, 59, 962, 110, times
4464 / 1341. -/
theorem test_revSpread_otherDiffR :
    let P : Params := { params with diffR := ⟨one, neg one, neg one, one⟩ }
    let t := after (stepWith P ((withA0 (rev 48000) one).withFetchWord 32 0x20000010))
    t.rev.diffSizeL = ⟨699, 862, 539, 2363⟩ ∧ t.rev.diffSizeR = ⟨699, 196, 3202, 366⟩ := by decide +kernel

/-- Section 3.5: size is clamped to maxsize 300. -/
theorem test_revSize :
    (run 0x20000011 (withA0 (rev 48000) 0x447A0000)).rev.par.size = num300 ∧
    (run 0x20000011 (withA0 (rev 48000) 0x447A0000)).rev.len = ⟨42353, 34581, 29948, 26786⟩ := by decide +kernel

theorem test_revDecay :
    (run 0x20000012 (withA0 (rev 48000) 0)).rev.par.decay = num0_001 ∧
    alphaOf paramsReference 48000 num0_001 = 0x3F5DAFD7 := by decide +kernel

theorem test_revDamp :
    (run 0x20000013 (withA0 (rev 48000) num2)).rev.fdnDamp = .const { c := one, s := 0 } := by decide +kernel

theorem test_revBw : (run 0x20000014 (withA0 (rev 48000) num0_25)).rev.inDamp.c = num0_75 := by decide +kernel

theorem test_revDry : (run 0x20000015 (withA0 (rev 48000) 0xBF800000)).rev.par.dry = 0 := by decide +kernel
theorem test_revWet : (run 0x20000016 (withA0 (rev 48000) num0_5)).rev.par.wet = num0_5 := by decide +kernel
theorem test_revEarly : (run 0x20000017 (withA0 (rev 48000) 0)).rev.par.early = 0 := by decide +kernel
theorem test_revLate : (run 0x20000018 (withA0 (rev 48000) 0x3FC00000)).rev.par.late = one := by decide +kernel

theorem test_revClear :
    (run 0x20000020 (run 0x20000002 small)).rev.tapLine = { size := 44000, idx := 0, buf := [] } ∧
    (run 0x20000020 (run 0x20000002 small)).rev.inDamp.s = 0 := by decide +kernel

theorem test_revPrint : (run 0x20000021 { rev 48000 with q0 := 7, status := 5 }).status = 0 ∧
    (run 0x20000021 { rev 48000 with q0 := 7, status := 5 }).q0 = 7 := by decide +kernel

/-! ### Status (95 sections 2.5 and 3.6), one row for each code -/

theorem test_status_codes :
    (run 0x30000001 State.reset).status = 1 ∧ (run 0x20000004 State.reset).status = 2 ∧
    (run 0x10000701 State.reset).status = 3 ∧ (run 0x200C0001 State.reset).status = 4 ∧
    (run 0x20000001 State.reset).status = 5 := by decide +kernel

/-! ### Delay RAM -/

theorem test_memory_canonical :
    Memory.write (Memory.write [] 2 one) 0 num2 = [(0, num2), (2, one)] ∧
    Memory.write [(0, num2), (2, one)] 2 zero = [(0, num2)] ∧ Memory.wf [(0, num2), (2, one)] = true ∧
    Memory.wf [(2, one), (0, num2)] = false ∧ Memory.wf [(0, zero)] = false := by decide

/-- Reset lists no word in any line, so every line's memory is in canonical form (R300). -/
theorem test_reset_memory : State.reset.rev.tapLine.buf = [] ∧ State.reset.rev.fdnLine.all (fun L => L.buf.wf) = true := by
  decide

/-- 20_memory.md R83 at its corners: the word just written is one back, the oldest one is at the index, and an offset
beyond the size wraps. -/
theorem test_dlRead :
    let L : DelayLine := { size := 3, idx := 1, buf := [(0, num3), (1, one), (2, num2)] }
    dlRead L 1 = num3 ∧ dlRead L 3 = one ∧ dlRead L 4 = num3 ∧ (dlWrite L aNaN).buf = [(0, num3), (2, num2)] := by
  decide

/-! ### Witnesses: what meets the hypotheses of each statement, at the corners of each clause -/

/-- Both engines constructed: a Saw at 6000 Hz, the default reverberator at 48000 Hz. -/
def both : State :=
  { osc 2 f6000 num0_5 0x3D800000 with
    rev := revConstruct params (clampAll (rawParams params 0 Operands.zero)) 48000 }

theorem both_params : ParamsInv (clampAll (rawParams params 0 Operands.zero)) := by decide +kernel

theorem both_capacity : capacityOk params 48000 (clampAll (rawParams params 0 Operands.zero)).maxsize = true := by
  decide +kernel

theorem both_osc : OscInv both.osc := by decide +kernel

theorem both_rev : RevInv params both.rev := revConstruct_inv (by decide) both_capacity both_params

theorem both_present : both.osc.present = true ∧ both.rev.present = true := by decide +kernel

theorem witness_inv : Inv both := ⟨by decide +kernel, fun _ => both_osc, fun _ => both_rev⟩

/-- Every command with an instance: the statements about the two engines' commands. -/
theorem witness_present :
    both.osc.present = true ∧ both.rev.present = true ∧ State.reset.osc.present = false ∧
    State.reset.rev.present = false := by decide +kernel

theorem witness_DecodeEncodeEveryCommand :
    (Instr.oscInit 15).wellFormed = true ∧ (Instr.revInit 0x3FF 3).wellFormed = true ∧
    (Instr.oscInit 0).wellFormed = true ∧ (Instr.revInit 0 0).wellFormed = true := by decide

theorem witness_LegalWordIsItsCommandsWord : decode 0x200FFF01#32 = .ok (.revInit 0x3FF 3) := by decide

/-- One illegal word for each line of R112, the least and the greatest unit, reserved bit and field. -/
theorem witness_IllegalEncodingsExactly :
    [0x00000002#32, 0x30000002#32, 0xF0000002#32, 0x10100002#32, 0x18000002#32, 0x10000005#32, 0x20000022#32,
      0x10001001#32, 0x10080002#32, 0x10000103#32, 0x20080021#32].all Spec.illegalEncoding = true ∧
    (State.reset.withFetchWord 32 0x30000002).host = .writeCmd 0x30000002#32 :: [] := by decide

theorem witness_StepRunsDecodedCommand :
    (both.withFetchWord 32 0x10000F02).host = .writeCmd 0x10000F02#32 :: both.host ∧
    decode (BitVec.ofNat 32 0x10000F02) = .ok (.oscStep 0xF) := ⟨rfl, by decide⟩

theorem witness_RegisterAccessHasNoSideEffect :
    ({ both with host := [.readA 10] } : State).host = .readA 10 :: [] ∧
    ({ both with host := [.readQ 0] } : State).host = .readQ 0 :: [] ∧
    ({ both with host := [.readQ 1] } : State).host = .readQ 1 :: [] ∧
    ({ both with host := [.readStatus] } : State).host = .readStatus :: [] ∧
    ({ both with host := [.writeA 0 7] } : State).host = .writeA 0 7 :: [] := ⟨rfl, rfl, rfl, rfl, rfl⟩

theorem witness_NoAccessHoldsState : both.host = [] := by decide +kernel

/-- Power-on of a running machine. -/
theorem witness_PowerOnResetState : ({ both with host := [.powerOn] } : State).host = .powerOn :: [] := rfl

theorem witness_StepKeepsInvariant :
    Inv both ∧ step both = .next both :=
  ⟨witness_inv, step_of_nil witness_NoAccessHoldsState⟩

/-- A command on the reverberator, from a state that meets the invariant. -/
theorem witness_StepKeepsInvariant_command :
    Inv (both.withFetchWord 32 0x20000002) ∧
    ∃ t, step (both.withFetchWord 32 0x20000002) = .next t :=
  ⟨witness_inv, _, rfl⟩

theorem witness_RejectedCommandChangesOnlyStatus :
    exec .revPrint State.reset = .next { State.reset with status := 2 } ∧ (2 : Word) ≠ 0 := ⟨rfl, by decide⟩

theorem witness_StatusFollowsCheckOrder :
    ∀ w : Word, ({ both with host := [.writeCmd w] } : State).host = .writeCmd w :: [] := fun _ => rfl

/-- Every code is decided by some word: the checks' order at the places where two of them fail. -/
theorem witness_StatusFollowsCheckOrder_codes :
    Spec.statusOfChecks 0x10001002 State.reset = 1 ∧ Spec.statusOfChecks 0x20000004 State.reset = 2 ∧
    Spec.statusOfChecks 0x10000501 State.reset = 3 ∧ Spec.statusOfChecks 0x20040001 State.reset = 4 ∧
    Spec.statusOfChecks 0x10000401 State.reset = 5 ∧
    Spec.statusOfChecks 0x20000001 { State.reset with a := { Operands.zero with a10 := 297098 } } = 6 ∧
    Spec.statusOfChecks 0x20000001 { State.reset with a := { Operands.zero with a10 := 297097 } } = 0 := by
  decide +kernel

theorem witness_AbsentEngineAnswersNoInstance :
    isInit (.oscStep 0xF) = false ∧ addresseePresent (.oscStep 0xF) State.reset = false ∧
    isInit .revPrint = false ∧ addresseePresent .revPrint State.reset = false := by decide

theorem witness_EnginesAreIndependent :
    isOscCommand (.oscInit 0) = true ∧ isOscCommand .oscDestroy = true ∧ isOscCommand (.revInit 0 0) = false ∧
    isOscCommand .revPrint = false := by decide

/-- Operand registers that differ everywhere the command does not read. -/
theorem witness_OnlyNamedOperandsAreRead :
    (∀ k, Spec.reads (.oscStep 0) both k → readA (ops 1 2 3 4) k = readA both.a k) ∧
    (∀ k, Spec.reads .revDestroy both k → readA (ops 1 2 3 4) k = readA both.a k) := by
  constructor
  · intro k h
    simp [Spec.reads] at h
  · intro k h
    exact h.elim

theorem witness_ResultRegistersHaveTwoWriters :
    exec .revPrint both = .next { both with status := 0 } ∧ (∀ v, Instr.revPrint ≠ .oscStep v) ∧
    Instr.revPrint ≠ .revProcess := ⟨rfl, fun _ => nofun, nofun⟩

theorem witness_ShapeIsFixedAtConstruction :
    (∀ n, Instr.oscSetPhase ≠ .oscInit n) ∧ ∃ t, exec .oscSetPhase both = .next t := ⟨fun _ => nofun, _, rfl⟩

theorem witness_MaxsizeIsFixedAtConstruction :
    (∀ p x, Instr.revSize ≠ .revInit p x) ∧ ∃ t, exec .revSize both = .next t := ⟨fun _ _ => nofun, _, rfl⟩

/-- Empty slots with other contents, and an INIT that fills one. -/
theorem witness_AbsentEngineRegistersAreUnobservable :
    (({ Osc.blank with phase := one } : Osc).present = State.reset.osc.present ∧
      (State.reset.osc.present = true → ({ Osc.blank with phase := one } : Osc) = State.reset.osc)) ∧
    (({ Rev.blank with alpha := one } : Rev).present = State.reset.rev.present ∧
      (State.reset.rev.present = true → ({ Rev.blank with alpha := one } : Rev) = State.reset.rev)) ∧
    ∃ t, exec (.oscInit 2) { State.reset with a := ops 0 0 0 48000 } = .next t := ⟨by decide, by decide, _, rfl⟩

/-- The least and the greatest sample rate. -/
theorem witness_OscInitWritesConstructionState :
    readA (ops 0 0 0 1) 3 ≠ 0 ∧ readA (ops 0 0 0 0xFFFFFFFF) 3 ≠ 0 := by decide

theorem witness_OscInitRejections : 4 < 5 ∧ 4 < 15 ∧ (0 ≤ 4 ∧ 4 ≤ 4 ∧ readA (ops 1 2 3 0) 3 = 0) := by decide

theorem witness_LastSetPhaseWins :
    (∃ t, exec .oscSetPhase both = .next t) ∧
    (run 0x10000003 both).osc.present = true ∧ (run 0x10000003 both).osc.spPending = true ∧
    ∃ t, exec (.oscStep 0) both = .next t := ⟨⟨_, rfl⟩, by decide +kernel, by decide +kernel, _, rfl⟩

theorem witness_FrequencySignIsIgnored : both.osc.present = true ∧ (0x1#4).getLsbD 0 = true := by decide +kernel

/-- The greatest sync below the range, the least above it, and a NaN. -/
theorem witness_SyncOutsideRangeIsNoSync :
    (0x8#4).getLsbD 3 = true ∧ le (readA (ops 0 0 0 0) 3) zero = true ∧
    lt one (readA (ops 0 0 0 0x3F800001) 3) = true ∧ isNaN (readA (ops 0 0 0 aNaN) 3) = true := by decide +kernel

/-- Frequency -0.0, and the ends of [0,1). -/
theorem witness_ZeroFrequencyHasNoCorrection :
    (osc 2 0x80000000 num0_5 0).osc.present = true ∧ (osc 2 0x80000000 num0_5 0).osc.sr ≠ 0 ∧
    (0x0#4).getLsbD 0 = false ∧ isZero (osc 2 0x80000000 num0_5 0).osc.freqHold = true ∧
    (∃ t, exec (.oscStep 0) (osc 2 0x80000000 num0_5 0) = .next t) ∧
    InPhaseRange zero ∧ InPhaseRange 0x3F7FFFFF#32 :=
  ⟨by decide +kernel, by decide +kernel, by decide, by decide +kernel, ⟨_, rfl⟩, by decide +kernel, by decide +kernel⟩

/-- The two ends of the part outside the window, at dt 0.125. -/
theorem witness_CorrectionsVanishOutsideWindow :
    (le 0x3E000000#32 0x3E000000#32 = true ∧ le 0x3E000000#32 (sub one 0x3E000000#32) = true) ∧
    (le 0x3E000000#32 0x3F600000#32 = true ∧ le 0x3F600000#32 (sub one 0x3E000000#32) = true) := by decide +kernel

/-- The least and the greatest finite dt above 0. -/
theorem witness_SawIsZeroAtItsJump :
    (isFinite 0x00000001#32 = true ∧ lt zero 0x00000001#32 = true) ∧
    (isFinite 0x7F7FFFFF#32 = true ∧ lt zero 0x7F7FFFFF#32 = true) := by decide +kernel

/-- A line of three words: the offsets 1, 3 and 4 with no, one and three writes. -/
theorem witness_DelayLineReadsEarlierWrites :
    let L : DelayLine := { size := 3, idx := 1, buf := [(0, num3), (1, one), (2, num2)] }
    L.wf = true ∧ (1 ≤ L.size ∧ 1 ≤ [num4].length) ∧ (3 ≤ L.size ∧ 3 ≤ [num4, num4, num4].length) ∧
    (3 ≤ L.size ∧ [num4].length < 3) ∧ L.size < 4 ∧ L.finite = true := by decide

theorem witness_PowMeetsItsRequirements :
    (isFinite num2 = true ∧ isZero 0x80000000#32 = true) ∧
    (lt zero 0x00000001#32 = true ∧ lt 0x00000001#32 one = true ∧ lt zero numInf = true) ∧
    (lt zero 0x3F7FFFFF#32 = true ∧ lt 0x3F7FFFFF#32 one = true ∧ lt zero 0x00000001#32 = true) := by decide +kernel

/-- Parameters with a decay time of 1.0, which at a sample rate of 1 make the exponent of alpha 1.0. -/
def slowParams : RevParams := clampAll { revDefaults with decay := one }

/-- A legal reverberator whose alpha is below 1, whatever POW is. -/
theorem witness_PowMeetsItsRequirements_gains :
    RevInv params (revConstruct params slowParams 1) ∧ lt (revConstruct params slowParams 1).alpha one = true := by
  have hinv : RevInv params (revConstruct params slowParams 1) :=
    revConstruct_inv (by decide) (by decide +kernel) (by decide +kernel)
  refine ⟨hinv, ?_⟩
  have ha : (revConstruct params slowParams 1).alpha = alphaOf params 1 slowParams.decay := by
    simp only [revConstruct, deriveSize_keeps, deriveAlpha_keeps]
  rw [ha]
  exact powAdmissible_lt_one (by decide) (by decide) (by decide +kernel)

/-- Finite operands whose sum and product are below, and at or above, the overflow; a divisor that is no zero. -/
theorem witness_WaveformsFollowTheirRules :
    isFinite one = true ∧ isFinite 0x7F7FFFFF#32 = true ∧ isZero one = false ∧
    (fix one + fix one).natAbs < overflowUnits * 1 ∧
    overflowUnits * 1 ≤ (fix 0x7F7FFFFF#32 + fix 0x7F7FFFFF#32).natAbs ∧
    overflowUnits * oneUnits ≤ (fix 0x7F7FFFFF#32 * fix 0x7F7FFFFF#32).natAbs := by decide +kernel

/-- A finite and a non-finite operand; the ties 0.5 and -2.5; a zero of wrap. -/
theorem witness_PhaseStaysInUnitInterval :
    both.osc.present = true ∧ isFinite numInf = false ∧ isZero (wrap one) = true ∧
    (isFinite num0_5 = true ∧ 2 * (roundHalfAway num0_5 * oneUnits - fix num0_5).natAbs = oneUnits) ∧
    (isFinite 0xC0200000#32 = true ∧
      2 * (roundHalfAway 0xC0200000#32 * oneUnits - fix 0xC0200000#32).natAbs = oneUnits) := by decide +kernel

/-- A NaN, a value below, one above, and both ends of the range. -/
theorem witness_ClampAllGivesLegalParameters :
    isNaN aNaN = true ∧ lt 0x80000001#32 zero = true ∧ lt one 0x3F800001#32 = true ∧
    (le zero zero = true ∧ le zero one = true) ∧ (le zero one = true ∧ le one one = true) ∧
    (le num0_1 numInf = true ∧ le numInf numInf = true) := by decide +kernel

/-- The ends of the spread and of the constants. -/
theorem witness_RevSpreadDerivesDiffusers :
    both.rev.present = true ∧ InRange zero zero one ∧ InRange one zero one ∧ le (F32.abs one) one = true ∧
    le (F32.abs (neg one)) one = true ∧ le (F32.abs zero) one = true := by decide +kernel

/-- The greatest sample rate that fits the default maxsize (95 E7), every register of the old slot arbitrary. -/
theorem witness_RevInitWritesConstructionState :
    let a : Operands := { Operands.zero with a10 := 297097 }
    let c : RevParams := Spec.clampAll (Spec.rawParams 0 a)
    let r0 : Rev :=
      { Rev.blank with
        present := true, sr := 297097, par := c, inDamp := { c := sub one c.bw, s := zero }, alpha := aNaN
        fdnDamp := .const { c := c.damp, s := zero }, tapLine := Spec.zeroLine 44000 }
    c = Spec.clampAll (Spec.rawParams 0 a) ∧ readA a 10 ≠ 0 ∧ Spec.capacityOk (readA a 10) c.maxsize ∧
    r0.present = true ∧ r0.sr = readA a 10 ∧ r0.par = c ∧ r0.inDamp = { c := sub one c.bw, s := zero } ∧
    r0.fdnDamp = .const { c := c.damp, s := zero } ∧ r0.tapLine = Spec.zeroLine 44000 := by
  intro a c r0
  have hcap : Spec.capacityOk (readA a 10) c.maxsize := by unfold Spec.capacityOk; decide +kernel
  exact ⟨rfl, by decide, hcap, rfl, rfl, rfl, rfl, rfl, rfl⟩

/-- XMASK 1 and 3; sample rate 0; the least sample rate that does not fit (95 E8). -/
theorem witness_RevInitRejections :
    (1 ≠ 0 ∧ 3 ≠ 0) ∧ readA Operands.zero 10 = 0 ∧
    (readA { Operands.zero with a10 := 297098 } 10 ≠ 0 ∧
      ¬ Spec.capacityOk (readA { Operands.zero with a10 := 297098 } 10)
        (Spec.clampAll (Spec.rawParams 0 { Operands.zero with a10 := 297098 })).maxsize) := by
  unfold Spec.capacityOk
  decide +kernel

/-- The default reverberator's maxsize is 300: the sample rates 0, 297098 and 297097. -/
theorem witness_RevSetSrRecomputesEverything :
    both.rev.present = true ∧ readA (withA0 both 0).a 0 = 0 ∧
    (readA (withA0 both 297098).a 0 ≠ 0 ∧ ¬ Spec.capacityOk (readA (withA0 both 297098).a 0) both.rev.par.maxsize) ∧
    (readA (withA0 both 297097).a 0 ≠ 0 ∧ Spec.capacityOk (readA (withA0 both 297097).a 0) both.rev.par.maxsize) := by
  unfold Spec.capacityOk
  decide +kernel

/-- BranchesFitTheCapacity, ShortestTapIsFive, RevProcessStoresOneWordPerLine, ClearRestoresConstruction. -/
theorem witness_RevInv : both.rev.present = true ∧ RevInv params both.rev := ⟨both_present.2, both_rev⟩

/-- A NaN, an infinity, and the least magnitude that is rejected. -/
theorem witness_ExtremeInputActsAsZero :
    isFinite aNaN = false ∧ isFinite 0xFF800000#32 = false ∧ lt num100000 (F32.abs 0xC7C35001#32) = true := by
  decide +kernel

theorem witness_RightStageZeroStaysZero :
    (∃ t, exec (.revInit 0 0) { both with a := { Operands.zero with a10 := 48000 } } = .next t ∧
      t.rev.present = true) ∧
    (both.rev.present = true → both.rev.difR.i0.idx = 0 ∧ both.rev.difR.i0.buf = []) :=
  ⟨⟨_, rfl, by decide +kernel⟩, by decide +kernel⟩

theorem witness_SilenceStaysSilent :
    (∃ t, exec .revClear both = .next t ∧ t.status = 0) ∧ RevInv params both.rev ∧
    (∃ t, exec (.revInit 0 0) { both with a := { Operands.zero with a10 := 48000 } } = .next t ∧ t.status = 0) ∧
    isZero (readA (ops 0 1 2 3) 0) = true ∧ isZero (readA (ops 0x80000000 1 2 3) 0) = true :=
  ⟨⟨_, rfl, by decide +kernel⟩, both_rev, ⟨_, rfl, by decide +kernel⟩, by decide, by decide⟩

end Sys2Proof.Tests
end

/-! Proofs of the scope statements (00_scope.md): the independence of the two engines, and POW. -/

namespace Sys2Proof.Machine

open Sys2Proof F32

/-! ### Independence of the engines (R4) -/

/-- The presence check of the oscillator does not see an exchange of the reverberator. -/
theorem requireOsc_withRev {s : State} {r : Rev} {k k' : Result} (hk : k' = onNext (fun t => { t with rev := r }) k) :
    requireOsc { s with rev := r } k' = onNext (fun t => { t with rev := r }) (requireOsc s k) := by
  subst hk
  unfold requireOsc
  rw [apply_ite (onNext _)]
  rfl

/-- The presence check of the reverberator does not see an exchange of the oscillator. -/
theorem requireRev_withOsc {s : State} {o : Osc} {k k' : Result} (hk : k' = onNext (fun t => { t with osc := o }) k) :
    requireRev { s with osc := o } k' = onNext (fun t => { t with osc := o }) (requireRev s k) := by
  subst hk
  unfold requireRev
  rw [apply_ite (onNext _)]
  rfl

theorem execOscInit_withRev (shape : Nat) (s : State) (r : Rev) :
    execOscInit shape { s with rev := r } = onNext (fun t => { t with rev := r }) (execOscInit shape s) := by
  unfold execOscInit
  cases Shape.ofCode shape with
  | none => rfl
  | some sh =>
    simp only [apply_ite (onNext _)]
    rfl

theorem execOscSetSr_withRev (s : State) (r : Rev) :
    execOscSetSr { s with rev := r } = onNext (fun t => { t with rev := r }) (execOscSetSr s) := by
  refine requireOsc_withRev ?_
  rw [apply_ite (onNext _)]
  rfl

theorem execRevInit_withOsc (pmask : BitVec 10) (xmask : Nat) (s : State) (o : Osc) :
    execRevInit pmask xmask { s with osc := o } =
      onNext (fun t => { t with osc := o }) (execRevInit pmask xmask s) := by
  unfold execRevInit revInitWith
  simp only [apply_ite (onNext _)]
  rfl

theorem execRevSetSr_withOsc (s : State) (o : Osc) :
    execRevSetSr { s with osc := o } = onNext (fun t => { t with osc := o }) (execRevSetSr s) := by
  refine requireRev_withOsc ?_
  simp only [apply_ite (onNext _)]
  rfl

/-- An oscillator command neither reads nor writes the reverberator. -/
theorem exec_osc_withRev {i : Instr} (h : isOscCommand i = true) (s : State) (r : Rev) :
    exec i { s with rev := r } = onNext (fun t => { t with rev := r }) (exec i s) := by
  cases i with
  | oscInit shape => exact execOscInit_withRev shape s r
  | oscSetSr => exact execOscSetSr_withRev s r
  | oscStep _ | oscSetPhase | oscDestroy =>
    -- behind the presence check these change no more than the oscillator, Q[0] and STATUS
    exact requireOsc_withRev rfl
  | _ => exact absurd h Bool.false_ne_true

/-- A reverberator command neither reads nor writes the oscillator. -/
theorem exec_rev_withOsc {i : Instr} (h : isOscCommand i = false) (s : State) (o : Osc) :
    exec i { s with osc := o } = onNext (fun t => { t with osc := o }) (exec i s) := by
  cases i with
  | oscInit _ | oscStep _ | oscSetPhase | oscSetSr | oscDestroy => exact absurd h.symm Bool.false_ne_true
  | revInit pmask xmask => exact execRevInit_withOsc pmask xmask s o
  | revSetSr => exact execRevSetSr_withOsc s o
  | revProcess | revDestroy | revSpread | revSize | revDecay | revDamp | revBw | revDry | revWet | revEarly | revLate
  | revClear | revPrint =>
    -- behind the presence check these change no more than the reverberator, Q and STATUS
    exact requireRev_withOsc rfl

/-- Settles O15, by the presence checks' indifference to the other engine, command by command. -/
theorem enginesAreIndependent : Obligations.EnginesAreIndependent := fun _ s =>
  ⟨fun h r => exec_osc_withRev h s r, fun h o => exec_rev_withOsc h s o⟩

/-! ### The power function (R18) -/

/-- POW of a finite base and a zero of either sign is 1.0. -/
theorem powAdmissible_zero_exponent {raw : Num32 → Num32 → Num32} {b e : Num32} (hb : isFinite b = true)
    (he : isZero e = true) : powAdmissible raw b e = one := by
  simp [powAdmissible, hb, he]

/-- Settles O38: POW is narrowed to R18's requirements, and the invariant keeps alpha in [0, 1] and every exponent of
a gain at 0 or more. -/
theorem powMeetsItsRequirements : Obligations.PowMeetsItsRequirements :=
  ⟨fun _ _ => ⟨powAdmissible_zero_exponent,
    fun h0 h1 he => powAdmissible_unit (le_of_lt h0) (le_of_lt h1) (le_of_lt he)⟩,
   fun _ j h => revInv_gains h j⟩

end Sys2Proof.Machine

/-! Proofs of the state statements (10_state.md): what an access and a command may change. -/

namespace Sys2Proof.Machine

open Sys2Proof

/-! ### The host's accesses (R31, R35) -/

/-- A 32-bit table word is the word itself. -/
theorem tableWord_32 (w : Nat) : tableWord 32 w = BitVec.ofNat 32 w := by
  apply BitVec.eq_of_toNat_eq
  simp [tableWord]

/-- Taking the write of a command's word off the list runs the command (R31, R93). -/
theorem step_command {s : State} {w : Word} {rest : List HostAccess} {i : Instr} (hs : s.host = .writeCmd w :: rest)
    (hw : decode w = .ok i) : step s = exec i { s with host := rest } :=
  (step_of_cons hs).trans (access_command hw _)

/-- Settles O5: the step takes the access off the list, and the access runs what its word decodes to. -/
theorem stepRunsDecodedCommand : Obligations.StepRunsDecodedCommand :=
  ⟨fun _ _ _ _ hs hw => step_command hs hw,
   fun _ w _ hw => step_command rfl (tableWord_32 w ▸ hw)⟩

/-- Settles O6: each access is what `access` says of it, and a written operand register reads back. -/
theorem registerAccessHasNoSideEffect : Obligations.RegisterAccessHasNoSideEffect := fun s _ =>
  ⟨fun _ hs => step_of_cons hs, fun hs => step_of_cons hs, fun hs => step_of_cons hs, fun hs => step_of_cons hs,
   fun i w hs => ⟨writeA s.a i w, step_of_cons hs, by simp [readA_writeA], fun j hj => by simp [readA_writeA, hj]⟩⟩

/-! ### A command to an empty slot (R40, R55) -/

/-- Every command but an INIT begins with its engine's presence check (R273 check 2). -/
theorem exec_of_absent {i : Instr} {s : State} (hi : isInit i = false) (h : addresseePresent i s = false) :
    exec i s = .next { s with status := 2 } := by
  cases i with
  | oscInit _ | revInit _ _ => exact absurd hi.symm Bool.false_ne_true
  | oscStep _ | oscSetPhase | oscSetSr | oscDestroy => exact requireOsc_absent h _
  | revProcess | revSetSr | revDestroy | revSpread | revSize | revDecay | revDamp | revBw | revDry | revWet | revEarly
  | revLate | revClear | revPrint => exact requireRev_absent h _

/-- Settles O14, by the presence check that every command but an INIT begins with. -/
theorem absentEngineAnswersNoInstance : Obligations.AbsentEngineAnswersNoInstance := fun _ _ => exec_of_absent

/-! ### What a command leaves alone (R4, R33) -/

/-- A command of the oscillator leaves A, Q[1] and the reverberator, and all but OSC_STEP leave Q[0]. -/
theorem exec_osc_frame {i : Instr} {s t : State} (hi : isOscCommand i = true) (h : exec i s = .next t) :
    t.a = s.a ∧ t.q1 = s.q1 ∧ t.rev = s.rev ∧ ((∀ v, i ≠ .oscStep v) → t.q0 = s.q0) := by
  obtain ⟨c, -, hc⟩ | ⟨o, x, hc, hx⟩ := exec_osc_cases hi s
  · obtain rfl := Host.Outcome.next.inj (hc.symm.trans h)
    exact ⟨rfl, rfl, rfl, fun _ => rfl⟩
  · obtain rfl := Host.Outcome.next.inj (hc.symm.trans h)
    exact ⟨rfl, rfl, rfl, hx⟩

/-- A command of the reverberator leaves A and the oscillator, and all but REV_PROCESS leave Q. -/
theorem exec_rev_frame {i : Instr} {s t : State} (hi : isOscCommand i = false) (h : exec i s = .next t) :
    t.a = s.a ∧ t.osc = s.osc ∧ (i ≠ .revProcess → t.q0 = s.q0 ∧ t.q1 = s.q1) := by
  obtain ⟨c, -, hc⟩ | ⟨r, x, y, hc, hxy⟩ := exec_rev_cases hi s
  · obtain rfl := Host.Outcome.next.inj (hc.symm.trans h)
    exact ⟨rfl, rfl, fun _ => ⟨rfl, rfl⟩⟩
  · obtain rfl := Host.Outcome.next.inj (hc.symm.trans h)
    exact ⟨rfl, rfl, hxy⟩

/-- Settles O17, by the two engines' frames. -/
theorem resultRegistersHaveTwoWriters : Obligations.ResultRegistersHaveTwoWriters := by
  intro i s t h
  cases hi : isOscCommand i with
  | true =>
    obtain ⟨-, hq1, -, hq0⟩ := exec_osc_frame hi h
    exact ⟨fun hstep _ => hq0 hstep, fun _ => hq1⟩
  | false =>
    obtain ⟨-, -, hq⟩ := exec_rev_frame hi h
    exact ⟨fun _ hproc => (hq hproc).1, fun hproc => (hq hproc).2⟩

/-! ### The reverberator after a command -/

/-- The reverberator after command `i` completes at `s`; a command of the oscillator leaves it (R4). -/
def revAfter (i : Instr) (s : State) : Rev :=
  match i with
  | .oscInit _ | .oscStep _ | .oscSetPhase | .oscSetSr | .oscDestroy | .revPrint => s.rev
  | .revInit pmask _ => revConstruct params (clampAll (rawParams params pmask s.a)) (operandU s.a 10)
  | .revProcess => (processSample s.rev (operandF s.a 0)).1
  | .revSetSr => deriveSize params (deriveAlpha params { s.rev with sr := operandU s.a 0 })
  | .revDestroy => { s.rev with present := false }
  | .revSpread => deriveDiffusers params (setParam (fun p x => { p with spread := clampUnit x }) s s.rev)
  | .revSize => deriveSize params (setParam (fun p x => { p with size := clampSize x p.maxsize }) s s.rev)
  | .revDecay =>
    deriveGains params (deriveAlpha params (setParam (fun p x => { p with decay := clampDecay x }) s s.rev))
  | .revDamp => setFdnDamp (setParam (fun p x => { p with damp := clampUnit x }) s s.rev)
  | .revBw => setInDamp (setParam (fun p x => { p with bw := clampUnit x }) s s.rev)
  | .revDry => setParam (fun p x => { p with dry := clampUnit x }) s s.rev
  | .revWet => setParam (fun p x => { p with wet := clampUnit x }) s s.rev
  | .revEarly => setParam (fun p x => { p with early := clampUnit x }) s s.rev
  | .revLate => setParam (fun p x => { p with late := clampUnit x }) s s.rev
  | .revClear => clearSignal s.rev

/-- The presence check fails, or the command behind it gives the result. -/
theorem requireRev_next {s t : State} {k : Result} (h : requireRev s k = .next t) :
    t = { s with status := 2 } ∨ k = .next t := by
  cases hp : s.rev.present with
  | false => exact .inl (Host.Outcome.next.inj (h.symm.trans (requireRev_absent hp k)))
  | true => exact .inr ((requireRev_present hp k).symm.trans h)

/-- A command keeps the reverberator or completes with `revAfter` (R271, R272). -/
theorem rev_of_exec {i : Instr} {s t : State} (h : exec i s = .next t) : t.rev = s.rev ∨ t.rev = revAfter i s := by
  cases i with
  | oscInit _ | oscStep _ | oscSetPhase | oscSetSr | oscDestroy =>
    obtain ⟨-, -, hrev, -⟩ := exec_osc_frame rfl h
    exact .inl hrev
  | revInit pmask xmask =>
    simp only [exec, execRevInit, revInitWith] at h
    split_ifs at h <;> obtain rfl := Host.Outcome.next.inj h
    · exact .inl rfl
    · exact .inl rfl
    · exact .inr rfl
    · exact .inl rfl
  | revSetSr =>
    obtain rfl | hk := requireRev_next h
    · exact .inl rfl
    · split_ifs at hk <;> obtain rfl := Host.Outcome.next.inj hk
      · exact .inl rfl
      · exact .inr rfl
      · exact .inl rfl
  | revProcess | revDestroy | revSpread | revSize | revDecay | revDamp | revBw | revDry | revWet | revEarly | revLate
  | revClear | revPrint =>
    obtain rfl | hk := requireRev_next h
    · exact .inl rfl
    · obtain rfl := Host.Outcome.next.inj hk
      exact .inr rfl

/-! ### REV.maxsize (R58) -/

/-- No setter, derivation or sample writes the maxsize; REV_INIT alone takes one (R212). -/
theorem revAfter_maxsize {i : Instr} (hi : ∀ p x, i ≠ .revInit p x) (s : State) :
    (revAfter i s).par.maxsize = s.rev.par.maxsize := by
  cases i with
  | revInit p x => exact absurd rfl (hi p x)
  | revSetSr | revSize => simp [revAfter]
  | _ => rfl

/-- Settles O19: what a completed command makes of the reverberator has the maxsize of before. -/
theorem maxsizeIsFixedAtConstruction : Obligations.MaxsizeIsFixedAtConstruction := by
  intro i s t hi h
  obtain hrev | hrev := rev_of_exec h
  · rw [hrev]
  · rw [hrev, revAfter_maxsize hi]

/-! ### The right cascade's stage 0 (R67) -/

/-- The line holds zeros only, with the index at its start. -/
def DelayLine.AtRest (L : DelayLine) : Prop := L.idx = 0 ∧ L.buf = []

theorem deriveDiffusers_difR_atRest (P : Params) (r : Rev) : (deriveDiffusers P r).difR.i0.AtRest := by
  rw [(deriveDiffusers_lines P r).2]
  exact ⟨rfl, rfl⟩

theorem deriveSize_difR_atRest (P : Params) (r : Rev) : (deriveSize P r).difR.i0.AtRest :=
  deriveDiffusers_difR_atRest P _

/-- A completed command makes the stage anew, clears it, or does not touch it: REV_PROCESS writes stages 1 to 3 only
(R250). -/
theorem revAfter_difR_atRest {i : Instr} {s : State} (h : s.rev.present = true → s.rev.difR.i0.AtRest)
    (hp : (revAfter i s).present = true) : (revAfter i s).difR.i0.AtRest := by
  cases i with
  | revInit _ _ | revSetSr | revSize => exact deriveSize_difR_atRest _ _
  | revSpread => exact deriveDiffusers_difR_atRest _ _
  | revClear => exact ⟨rfl, rfl⟩
  | revDestroy => exact absurd hp Bool.false_ne_true
  | _ => exact h hp

/-- Settles O56, by what each command makes of the reverberator. -/
theorem rightStageZeroStaysZero : Obligations.RightStageZeroStaysZero := by
  intro i s t h hs ht
  obtain hrev | hrev := rev_of_exec h
  · rw [hrev] at ht ⊢
    exact hs ht
  · rw [hrev] at ht ⊢
    exact revAfter_difR_atRest hs ht

/-! ### The registers of an empty slot (R51, R69, R302) -/

/-- Two contents of an engine's slot that count as the same: equal, or both empty (R51, R69). -/
def SlotsAlike {α : Type} (present : α → Bool) (x y : α) : Prop := present x = present y ∧ (present y = true → x = y)

theorem SlotsAlike.refl {α : Type} (present : α → Bool) (x : α) : SlotsAlike present x x := ⟨rfl, fun _ => rfl⟩

theorem SlotsAlike.eq_or_absent {α : Type} {present : α → Bool} {x y : α} (h : SlotsAlike present x y) :
    x = y ∨ (present x = false ∧ present y = false) := by
  obtain ⟨hp, heq⟩ := h
  cases hy : present y with
  | true => exact .inl (heq hy)
  | false => exact .inr ⟨hp.trans hy, rfl⟩

/-- A command to an empty oscillator slot comes to the same whatever the slot holds, or is rejected alike. -/
theorem exec_withOsc_of_absent {i : Instr} {s : State} {o : Osc} (hi : isOscCommand i = true)
    (ho : o.present = false) (hs : s.osc.present = false) :
    exec i { s with osc := o } = exec i s ∨
    ∃ c, exec i { s with osc := o } = raiseStatus c { s with osc := o } ∧ exec i s = raiseStatus c s := by
  cases i with
  | oscInit shape =>
    simp only [exec, execOscInit]
    split
    · exact .inr ⟨.badShape, rfl, rfl⟩
    · split
      · exact .inr ⟨.badArgs, rfl, rfl⟩
      · exact .inl rfl
  | oscStep _ | oscSetPhase | oscSetSr | oscDestroy =>
    exact .inr ⟨.noInstance, exec_of_absent rfl ho, exec_of_absent rfl hs⟩
  | _ => exact absurd hi Bool.false_ne_true

/-- A command to an empty reverberator slot comes to the same whatever the slot holds, or is rejected alike. -/
theorem exec_withRev_of_absent {i : Instr} {s : State} {r : Rev} (hi : isOscCommand i = false)
    (hr : r.present = false) (hs : s.rev.present = false) :
    exec i { s with rev := r } = exec i s ∨
    ∃ c, exec i { s with rev := r } = raiseStatus c { s with rev := r } ∧ exec i s = raiseStatus c s := by
  cases i with
  | oscInit _ | oscStep _ | oscSetPhase | oscSetSr | oscDestroy => exact absurd hi.symm Bool.false_ne_true
  | revInit pmask xmask =>
    simp only [exec, execRevInit, revInitWith]
    split_ifs
    · exact .inr ⟨.badParam, rfl, rfl⟩
    · exact .inr ⟨.badArgs, rfl, rfl⟩
    · exact .inl rfl
    · exact .inr ⟨.alloc, rfl, rfl⟩
  | _ => exact .inr ⟨.noInstance, exec_of_absent rfl hr, exec_of_absent rfl hs⟩

/-- A command of the oscillator cannot tell apart two contents of its slot that are alike. -/
theorem exec_osc_alike {i : Instr} {s t : State} {o : Osc} (hi : isOscCommand i = true)
    (ho : SlotsAlike Osc.present o s.osc) (h : exec i s = .next t) :
    ∃ o', exec i { s with osc := o } = .next { t with osc := o' } ∧ SlotsAlike Osc.present o' t.osc := by
  obtain rfl | ⟨habs, hs⟩ := ho.eq_or_absent
  · exact ⟨t.osc, h, .refl _ _⟩
  · obtain heq | ⟨c, hc', hc⟩ := exec_withOsc_of_absent hi habs hs
    · exact ⟨t.osc, heq.trans h, .refl _ _⟩
    · obtain rfl := Host.Outcome.next.inj (hc.symm.trans h)
      exact ⟨o, hc', ho⟩

/-- A command of the reverberator cannot tell apart two contents of its slot that are alike. -/
theorem exec_rev_alike {i : Instr} {s t : State} {r : Rev} (hi : isOscCommand i = false)
    (hr : SlotsAlike Rev.present r s.rev) (h : exec i s = .next t) :
    ∃ r', exec i { s with rev := r } = .next { t with rev := r' } ∧ SlotsAlike Rev.present r' t.rev := by
  obtain rfl | ⟨habs, hs⟩ := hr.eq_or_absent
  · exact ⟨t.rev, h, .refl _ _⟩
  · obtain heq | ⟨c, hc', hc⟩ := exec_withRev_of_absent hi habs hs
    · exact ⟨t.rev, heq.trans h, .refl _ _⟩
    · obtain rfl := Host.Outcome.next.inj (hc.symm.trans h)
      exact ⟨r, hc', hr⟩

/-- Settles O20: the addressed slot stays alike by the lemmas above, and the other slot is neither read nor written
(R4). -/
theorem absentEngineRegistersAreUnobservable : Obligations.AbsentEngineRegistersAreUnobservable := by
  intro i s t o r ho hr h
  cases hi : isOscCommand i with
  | true =>
    obtain ⟨o', h', ho'⟩ := exec_osc_alike hi ho h
    obtain ⟨-, -, hrev, -⟩ := exec_osc_frame hi h
    have hboth : exec i { s with osc := o, rev := r } = .next { t with osc := o', rev := r } := by
      rw [exec_osc_withRev hi { s with osc := o } r, h', onNext_next]
    exact ⟨_, hboth, rfl, rfl, rfl, rfl, ho', hrev ▸ hr⟩
  | false =>
    obtain ⟨r', h', hr'⟩ := exec_rev_alike hi hr h
    obtain ⟨-, hosc, -⟩ := exec_rev_frame hi h
    have hboth : exec i { s with osc := o, rev := r } = .next { t with osc := o, rev := r' } := by
      rw [exec_rev_withOsc hi { s with rev := r } o, h', onNext_next]
    exact ⟨_, hboth, rfl, rfl, rfl, rfl, hosc ▸ ho, hr'⟩

end Sys2Proof.Machine

/-! Proofs of the memory statements (20_memory.md): the delay lines, and the words one sample leaves alone. -/

namespace Sys2Proof.Machine

open Sys2Proof F32

/-! ### One write (R84) -/

/-- The word at the index is the sanitized value, and every other word is the one of before (R84). -/
theorem read_dlWrite {L : DelayLine} (h : L.wf = true) (v : Num32) (k : Nat) :
    Memory.read (dlWrite L v).buf k = if k = L.idx then sanitize v else Memory.read L.buf k := by
  obtain ⟨-, hbuf, -⟩ := DelayLine.wf_iff.1 h
  exact Memory.read_write hbuf L.idx k (sanitize v)

theorem read_dlWrite_idx {L : DelayLine} (h : L.wf = true) (v : Num32) :
    Memory.read (dlWrite L v).buf L.idx = sanitize v :=
  (read_dlWrite h v L.idx).trans (if_pos rfl)

theorem read_dlWrite_of_ne {L : DelayLine} (h : L.wf = true) (v : Num32) {k : Nat} (hk : k ≠ L.idx) :
    Memory.read (dlWrite L v).buf k = Memory.read L.buf k :=
  (read_dlWrite h v k).trans (if_neg hk)

/-- Settles O36, by what a write does to the line's words and by the forms it keeps. -/
theorem delayLineWriteStoresSanitized : Obligations.DelayLineWriteStoresSanitized := fun _ v h =>
  ⟨read_dlWrite_idx h v, fun _ hk => read_dlWrite_of_ne h v hk, rfl, rfl, dlWrite_wf h v, fun hf => dlWrite_finite hf v⟩

/-! ### Zeroed lines (R85, R86) -/

/-- Settles O37: both leave no word listed, and an unlisted word is +0.0. -/
theorem reallocAndClearZeroTheLine : Obligations.ReallocAndClearZeroTheLine := fun L n _ =>
  ⟨dlRealloc_size L n, dlRealloc_idx L n, rfl, dlClear_size L, dlClear_idx L, rfl⟩

/-! ### A list of writes (R83) -/

/-- The last write of a list comes after the others. -/
theorem writeAll_append_singleton (L : DelayLine) (vs : List Num32) (v : Num32) :
    Spec.writeAll L (vs ++ [v]) = dlWrite (Spec.writeAll L vs) v := by
  simp [Spec.writeAll]

theorem writeAll_size (L : DelayLine) (vs : List Num32) : (Spec.writeAll L vs).size = L.size := by
  induction vs using List.reverseRecOn with
  | nil => rfl
  | append_singleton vs v ih => rw [writeAll_append_singleton, dlWrite_size, ih]

theorem writeAll_wf {L : DelayLine} (h : L.wf = true) (vs : List Num32) : (Spec.writeAll L vs).wf = true := by
  induction vs using List.reverseRecOn with
  | nil => exact h
  | append_singleton vs v ih => rw [writeAll_append_singleton]; exact dlWrite_wf ih v

/-- Read `n` writes back, a line gives the value of that write, or the word of before where there were fewer: each
write moves the words before it one write further back. -/
theorem dlRead_writeAll {L : DelayLine} (h : L.wf = true) (vs : List Num32) {n : Nat} (h1 : 1 ≤ n) (hn : n ≤ L.size) :
    dlRead (Spec.writeAll L vs) n =
      if n ≤ vs.length then sanitize (vs.getD (vs.length - n) zero) else dlRead L (n - vs.length) := by
  induction vs using List.reverseRecOn generalizing n with
  | nil =>
    rw [if_neg (by simp only [List.length_nil]; omega)]
    rfl
  | append_singleton vs v ih =>
    obtain ⟨m, rfl⟩ := Nat.exists_eq_add_of_le' h1
    rw [writeAll_append_singleton, dlRead_dlWrite (writeAll_wf h vs) v (by rw [writeAll_size]; omega)]
    simp only [List.length_append, List.length_singleton, Nat.add_le_add_iff_right, Nat.add_sub_add_right]
    by_cases hm : m = 0
    · -- the write just made
      subst hm
      simp
    · -- an earlier write, one further back than before this one
      rw [if_neg hm, ih (Nat.one_le_iff_ne_zero.2 hm) (by omega)]
      split
      · rw [List.getD_append _ _ _ _ (by omega)]
      · rfl

/-- An offset beyond the size wraps: whole turns around the line do not move the position read (R19, R83). -/
theorem readPosition_wrap (L : DelayLine) {n : Nat} (hn : 1 ≤ n) :
    readPosition L n = readPosition L ((n - 1) % L.size + 1) := by
  have hdiv := Nat.mod_add_div (n - 1) L.size
  have hn' : (n : Int) = ((n - 1) % L.size + 1 : Nat) + L.size * ((n - 1) / L.size : Nat) := by
    exact_mod_cast (by omega : n = (n - 1) % L.size + 1 + L.size * ((n - 1) / L.size))
  rw [readPosition, hn', ← sub_sub, Int.sub_mul_emod_self_left, readPosition]

/-- Settles O35, by induction on the list of writes, its last write first. -/
theorem delayLineReadsEarlierWrites : Obligations.DelayLineReadsEarlierWrites := fun L vs n h h1 =>
  ⟨fun hn hlen => (dlRead_writeAll h vs h1 hn).trans (if_pos hlen),
   fun hn hlen => (dlRead_writeAll h vs h1 hn).trans (if_neg (Nat.not_le.2 hlen)),
   fun _ => congrArg (Memory.read L.buf) (readPosition_wrap L h1),
   dlRead_of_empty (dlClear_buf L) n⟩

/-! ### The words one sample leaves alone (R81, R242) -/

/-- The line `M` is the line `L`, or `L` after one write. -/
def DelayLine.WrittenAtMostOnce (L M : DelayLine) : Prop := M = L ∨ ∃ v, M = dlWrite L v

/-- At most one write leaves every word but the one at the index. -/
theorem DelayLine.WrittenAtMostOnce.read_of_ne {L M : DelayLine} (hM : L.WrittenAtMostOnce M) (h : L.wf = true)
    {k : Nat} (hk : k ≠ L.idx) : Memory.read M.buf k = Memory.read L.buf k := by
  obtain rfl | ⟨v, rfl⟩ := hM
  · rfl
  · exact read_dlWrite_of_ne h v hk

/-- One sample writes a line at most once: the right cascade's stage 0 not at all, the twelve others once (R242,
R250). -/
theorem processSample_writtenAtMostOnce (r : Rev) (x : Num32) :
    r.tapLine.WrittenAtMostOnce (processSample r x).1.tapLine ∧
    ∀ j : Fin 4, (r.fdnLine.get j).WrittenAtMostOnce ((processSample r x).1.fdnLine.get j) ∧
      (r.difL.get j).WrittenAtMostOnce ((processSample r x).1.difL.get j) ∧
      (r.difR.get j).WrittenAtMostOnce ((processSample r x).1.difR.get j) := by
  refine ⟨.inr ⟨_, rfl⟩, fun j => ?_⟩
  match j with
  | 0 => exact ⟨.inr ⟨_, rfl⟩, .inr (diffuse_line _ _ _), .inl rfl⟩
  | 1 | 2 | 3 => exact ⟨.inr ⟨_, rfl⟩, .inr (diffuse_line _ _ _), .inr (diffuse_line _ _ _)⟩

theorem linesInv_wf {L : Four DelayLine} {n : Four Nat} (h : LinesInv L n) (j : Fin 4) : (L.get j).wf = true := by
  obtain ⟨⟨-, h0, -⟩, ⟨-, h1, -⟩, ⟨-, h2, -⟩, ⟨-, h3, -⟩⟩ := h
  match j with
  | 0 => exact h0
  | 1 => exact h1
  | 2 => exact h2
  | 3 => exact h3

/-- REV_PROCESS of a present engine is one sample of its signal path (R242). -/
theorem exec_revProcess_present {s : State} (h : s.rev.present = true) :
    exec .revProcess s = .next { s with
      status := 0
      rev := (processSample s.rev (operandF s.a 0)).1
      q0 := (processSample s.rev (operandF s.a 0)).2.1
      q1 := (processSample s.rev (operandF s.a 0)).2.2 } :=
  requireRev_present h _

/-- Settles O54: one sample writes each line at most once, and keeps the registers by `processSample_keeps`. -/
theorem revProcessStoresOneWordPerLine : Obligations.RevProcessStoresOneWordPerLine := by
  intro s hp hinv
  obtain ⟨-, -, -, -, ⟨-, htap, -⟩, hfdn, hdifL, hdifR, -⟩ := hinv
  obtain ⟨hwtap, hw⟩ := processSample_writtenAtMostOnce s.rev (operandF s.a 0)
  refine ⟨_, exec_revProcess_present hp, fun _ hk => hwtap.read_of_ne htap hk,
    fun j _ hk => ?_, fun j _ hk => ?_, fun j _ hk => ?_, ?_⟩
  · obtain ⟨hwfdn, -, -⟩ := hw j
    exact hwfdn.read_of_ne (linesInv_wf hfdn j) hk
  · obtain ⟨-, hwdifL, -⟩ := hw j
    exact hwdifL.read_of_ne (linesInv_wf hdifL j) hk
  · obtain ⟨-, -, hwdifR⟩ := hw j
    exact hwdifR.read_of_ne (linesInv_wf hdifR j) hk
  · simp only [processSample_keeps, processSample_coeffs, and_self]

end Sys2Proof.Machine

/-! Proofs of the encoding statements (30_encoding.md): the two round trips of the command word, the illegal encodings,
and the operands a command reads. -/

namespace Sys2Proof

open Machine Laws.EncodeFields

/-! ### FIELD and its parts (R104 to R107) -/

/-- FIELD is CMD[19:12] above CMD[11:8]. -/
theorem fieldField_eq_zero_nibble (w : Word) : fieldField w = fieldZero w ++ fieldNibble w :=
  (BitVec.extractLsb'_append_extractLsb'_eq_extractLsb' (x := w) (len₁ := 4) (len₂ := 8) (start₁ := 8) rfl).symm

/-- FIELD is XMASK above PMASK. -/
theorem fieldField_eq_xmask_pmask (w : Word) : fieldField w = fieldXmask w ++ fieldPmask w :=
  (BitVec.extractLsb'_append_extractLsb'_eq_extractLsb' (x := w) (len₁ := 10) (len₂ := 2) (start₁ := 8) rfl).symm

/-- A field in two parts determines both. -/
theorem parts_of_append_eq {m n : Nat} {x x' : BitVec m} {y y' : BitVec n} (h : x ++ y = x' ++ y') :
    x = x' ∧ y = y' := by
  have hx := congrArg (BitVec.extractLsb' n m) h
  have hy := congrArg (BitVec.extractLsb' 0 n) h
  simp only [BitVec.extractLsb'_append_eq_left, BitVec.extractLsb'_append_eq_right] at hx hy
  exact ⟨hx, hy⟩

/-- FIELD of a command's word. -/
def fieldOf : Instr → BitVec 12
  | .oscInit shape => 0#8 ++ BitVec.ofNat 4 shape
  | .oscStep vmask => 0#8 ++ vmask
  | .revInit pmask xmask => BitVec.ofNat 2 xmask ++ pmask
  | _ => 0

theorem encode_eq_commandWord (i : Instr) : encode i = commandWord (unitOp i).1 (fieldOf i) (unitOp i).2 := by
  cases i <;> rfl

/-- A word is a command's word exactly when its four fields are the command's. -/
theorem encode_eq_iff {i : Instr} {w : Word} :
    encode i = w ↔ fieldRsv w = 0 ∧ unitOp i = (fieldUnit w, fieldOp w) ∧ fieldOf i = fieldField w := by
  rw [encode_eq_commandWord]
  constructor
  · rintro rfl
    obtain ⟨hu, hr, hf, ho⟩ := commandWord_fields (unitOp i).1 (fieldOf i) (unitOp i).2
    rw [hu, hr, hf, ho]
    exact ⟨rfl, rfl, rfl⟩
  · rintro ⟨hr, huo, hf⟩
    rw [huo, hf, commandWord_of_rsv hr]

/-! ### The opcode map (section 3) -/

/-- A row without a field is its command's UNIT and OP. -/
theorem plainOp_some {unit : BitVec 4} {op : BitVec 8} {i : Instr} (h : plainOp unit op = some i) :
    unitOp i = (unit, op) ∧ fieldOf i = 0 ∧ i.wellFormed = true := by
  unfold plainOp at h
  split at h
  case h_18 => exact absurd h nofun
  all_goals
    rename_i hu ho
    obtain rfl := Option.some.inj h
    exact ⟨Prod.ext (BitVec.eq_of_toNat_eq hu.symm) (BitVec.eq_of_toNat_eq ho.symm), rfl, rfl⟩

/-- The opcode map as the statement of R112 lists it has the decoder's rows: the three with a field, and those
without. -/
theorem opInMap_iff (unit : BitVec 4) (op : BitVec 8) :
    Spec.opInMap unit.toNat op.toNat = true ↔
      (unit = 1 ∧ (op = 1 ∨ op = 2)) ∨ (unit = 2 ∧ op = 1) ∨ ∃ i, plainOp unit op = some i := by
  constructor
  · intro h
    simp only [Spec.opInMap, Bool.or_eq_true, Bool.and_eq_true, beq_iff_eq, List.elem_eq_mem, decide_eq_true_eq,
      List.mem_cons, List.not_mem_nil, BitVec.toNat_eq] at h ⊢
    unfold plainOp
    split
    -- no row of `plainOp` matches, so the entry of the list is one of the three with a field
    case h_18 => grind
    all_goals exact .inr (.inr ⟨_, rfl⟩)
  · rintro (⟨rfl, rfl | rfl⟩ | ⟨rfl, rfl⟩ | ⟨i, hi⟩)
    · rfl
    · rfl
    · rfl
    · obtain ⟨huo, -, -⟩ := plainOp_some hi
      obtain ⟨rfl, rfl⟩ := Prod.mk.inj huo
      cases i <;> rfl

/-! ### The round trips (R111) -/

/-- Settles O1: the fields of a command's word are the command's (`encode_eq_iff`), and they lead R111 to its
constructor. -/
theorem decodeEncodeEveryCommand : Obligations.DecodeEncodeEveryCommand := by
  intro i h
  obtain ⟨hr, huo, hf⟩ := encode_eq_iff.1 (Eq.refl (encode i))
  generalize encode i = w at *
  obtain ⟨hu, ho⟩ := Prod.mk.inj huo
  cases i with
  | oscInit shape =>
    obtain ⟨hz, hn⟩ := parts_of_append_eq (hf.trans (fieldField_eq_zero_nibble w))
    have hlt : shape < 16 := of_decide_eq_true h
    simp [decode, ← hu, hr, ← ho, ← hz, ← hn, Nat.mod_eq_of_lt hlt]
  | oscStep vmask =>
    obtain ⟨hz, hn⟩ := parts_of_append_eq (hf.trans (fieldField_eq_zero_nibble w))
    simp [decode, ← hu, hr, ← ho, ← hz, ← hn]
  | revInit pmask xmask =>
    obtain ⟨hx, hp⟩ := parts_of_append_eq (hf.trans (fieldField_eq_xmask_pmask w))
    have hlt : xmask < 4 := of_decide_eq_true h
    simp [decode, ← hu, hr, ← ho, ← hx, ← hp, Nat.mod_eq_of_lt hlt]
  | _ => simp [decode, ← hu, hr, ← ho, ← hf, fieldOf, plainOp]

/-- Settles O2: in each branch of R111 that ends with a command, the word's four fields are that command's. -/
theorem legalWordIsItsCommandsWord : Obligations.LegalWordIsItsCommandsWord := by
  intro w i h
  rw [encode_eq_iff]
  unfold decode at h
  split_ifs at h with hunit hrsv hinit hz hstep hz hrev hf
  · obtain rfl := Except.ok.inj h
    obtain ⟨hu, ho⟩ := hinit
    refine ⟨decide_eq_true (fieldNibble w).isLt, not_not.1 hrsv, by rw [hu, ho]; rfl, ?_⟩
    rw [fieldField_eq_zero_nibble, not_not.1 hz, fieldOf, BitVec.ofNat_toNat, BitVec.setWidth_eq]
    rfl
  · obtain rfl := Except.ok.inj h
    obtain ⟨hu, ho⟩ := hstep
    refine ⟨rfl, not_not.1 hrsv, by rw [hu, ho]; rfl, ?_⟩
    rw [fieldField_eq_zero_nibble, not_not.1 hz]
    rfl
  · obtain rfl := Except.ok.inj h
    obtain ⟨hu, ho⟩ := hrev
    refine ⟨decide_eq_true (fieldXmask w).isLt, not_not.1 hrsv, by rw [hu, ho]; rfl, ?_⟩
    rw [fieldField_eq_xmask_pmask, fieldOf, BitVec.ofNat_toNat, BitVec.setWidth_eq]
  · -- FIELD is nonzero, which no row without a field admits
    split at h <;> cases h
  · cases hp : plainOp (fieldUnit w) (fieldOp w) with
    | none => simp [hp] at h
    | some j =>
      obtain rfl : j = i := by simpa [hp] using h
      obtain ⟨huo, hj, hwf⟩ := plainOp_some hp
      exact ⟨hwf, not_not.1 hrsv, huo, hj.trans (not_not.1 hf).symm⟩

/-! ### The illegal encodings (R112) -/

/-- R112's list, read on the fields of the decoder. -/
theorem illegalEncoding_iff (w : Word) :
    Spec.illegalEncoding w = true ↔
      (fieldUnit w ≠ 1 ∧ fieldUnit w ≠ 2) ∨ fieldRsv w ≠ 0 ∨
      Spec.opInMap (fieldUnit w).toNat (fieldOp w).toNat = false ∨
      ((fieldUnit w = 1 ∧ (fieldOp w = 1 ∨ fieldOp w = 2)) ∧ fieldZero w ≠ 0) ∨
      (¬(fieldUnit w = 1 ∧ (fieldOp w = 1 ∨ fieldOp w = 2)) ∧ ¬(fieldUnit w = 2 ∧ fieldOp w = 1) ∧
        fieldField w ≠ 0) := by
  simp [Spec.illegalEncoding, fieldUnit_toNat, fieldRsv_toNat, fieldField_toNat, fieldOp_toNat, fieldZero_toNat,
    ← BitVec.toNat_inj, or_assoc, and_assoc, imp_iff_not_or]

/-- Each branch of the decoder is an entry of R112's list, or a legal word. -/
theorem decode_error_iff (w : Word) : (∃ e, decode w = .error e) ↔ Spec.illegalEncoding w = true := by
  rw [illegalEncoding_iff, ← Bool.not_eq_true, opInMap_iff]
  unfold decode
  split_ifs with hunit hrsv hinit hz hstep hz hrev hf
  · exact iff_of_true ⟨_, rfl⟩ (.inl hunit)
  · exact iff_of_true ⟨_, rfl⟩ (.inr (.inl hrsv))
  · exact iff_of_true ⟨_, rfl⟩ (.inr (.inr (.inr (.inl ⟨hinit.imp_right .inl, hz⟩))))
  · exact iff_of_false nofun (by simp_all)
  · exact iff_of_true ⟨_, rfl⟩ (.inr (.inr (.inr (.inl ⟨hstep.imp_right .inr, hz⟩))))
  · exact iff_of_false nofun (by simp_all)
  · exact iff_of_false nofun (by simp_all)
  · have hosc : ¬(fieldUnit w = 1 ∧ (fieldOp w = 1 ∨ fieldOp w = 2)) := fun ⟨hu, ho⟩ =>
      ho.elim (fun ho => hinit ⟨hu, ho⟩) (fun ho => hstep ⟨hu, ho⟩)
    split <;> exact iff_of_true ⟨_, rfl⟩ (.inr (.inr (.inr (.inr ⟨hosc, hrev, hf⟩))))
  · cases hp : plainOp (fieldUnit w) (fieldOp w) with
    | none => exact iff_of_true ⟨_, rfl⟩ (.inr (.inr (.inl (by simp_all))))
    | some i => exact iff_of_false nofun (by simp_all)

/-- Settles O3: the decoder's errors are R112's list, and the write of a word it rejects ends with ILLEGAL. -/
theorem illegalEncodingsExactly : Obligations.IllegalEncodingsExactly := by
  intro w
  refine ⟨decode_error_iff w, fun h s rest hs => ?_⟩
  obtain ⟨e, he⟩ := (decode_error_iff w).2 h
  exact (step_of_cons hs).trans (access_illegal he _)

end Sys2Proof

namespace Sys2Proof.Machine

open Sys2Proof F32

/-! ### What a command takes from its operands (R104 to R109) -/

/-- An operand that its mask bit does not supply is not read. -/
theorem supplied_congr {bit : Bool} {x y : Num32} (h : bit = true → x = y) (kept : Num32) :
    supplied bit x kept = supplied bit y kept := by
  cases bit with
  | false => rfl
  | true => exact congrArg (supplied true · kept) (h rfl)

/-- The shapes with a pulse width are those of codes 0 and 1 (R108). -/
theorem usesPulseWidth_iff (shape : Shape) : shape.usesPulseWidth = true ↔ shape.code ≤ 1 := by
  cases shape <;> decide

theorem code_of_ofCode {n : Nat} {shape : Shape} (h : Shape.ofCode n = some shape) : shape.code = n := by
  unfold Shape.ofCode at h
  split at h
  case h_6 => exact absurd h nofun
  all_goals
    obtain rfl := Option.some.inj h
    rfl

section

variable {s : State} {a' : Operands}

/-- OSC_INIT constructs from A[0], A[2], A[3], and A[1] where the shape has a pulse width. -/
theorem oscConstruct_congr {n : Nat} {shape : Shape} (hn : Shape.ofCode n = some shape)
    (h : ∀ k, Spec.reads (.oscInit n) s k → readA a' k = readA s.a k) :
    oscConstruct shape a' = oscConstruct shape s.a := by
  simp only [oscConstruct, h 0 (.inl rfl), h 2 (.inr (.inr (.inl rfl))), h 3 (.inr (.inr (.inr rfl)))]
  cases hu : shape.usesPulseWidth with
  | false => rfl
  | true =>
    have hcode : n ≤ 1 := code_of_ofCode hn ▸ (usesPulseWidth_iff shape).1 hu
    simp only [operandF, h 1 (.inr (.inl ⟨rfl, hcode⟩))]

/-- OSC_STEP takes the operands that VMASK supplies, the pulse width only where the shape has one. -/
theorem beforeOutput_congr {v : BitVec 4} (h : ∀ k, Spec.reads (.oscStep v) s k → readA a' k = readA s.a k) :
    beforeOutput v a' s.osc = beforeOutput v s.a s.osc := by
  have hsync : syncInput v a' = syncInput v s.a := supplied_congr (fun hv => h 3 (by simp [Spec.reads, hv])) _
  have hfreq := supplied_congr (bit := v.getLsbD 0) (fun hv => h 0 (by simp [Spec.reads, hv])) s.osc.freqHold
  have hphoff := supplied_congr (bit := v.getLsbD 1) (fun hv => h 1 (by simp [Spec.reads, hv])) s.osc.phoffHold
  have hpw := supplied_congr (bit := v.getLsbD 2 && s.osc.shape.usesPulseWidth)
    (fun hv => h 2 (by simpa [Spec.reads, usesPulseWidth_iff] using hv)) s.osc.pwHold
  have hinputs : takeInputs v a' s.osc = takeInputs v s.a s.osc := by
    rw [takeInputs, hfreq, hphoff, hpw, takeInputs]
  rw [beforeOutput, hsync, hinputs, beforeOutput]

/-- REV_INIT takes the parameters that PMASK supplies. -/
theorem rawParams_congr {P : Params} {pmask : BitVec 10} {xmask : Nat}
    (h : ∀ k, Spec.reads (.revInit pmask xmask) s k → readA a' k = readA s.a k) :
    rawParams P pmask a' = rawParams P pmask s.a := by
  have hk : ∀ (k : Fin 11) (kept : Num32), supplied (pmask.getLsbD k.val) (readA a' k) kept =
      supplied (pmask.getLsbD k.val) (readA s.a k) kept := fun k => supplied_congr (fun hb => h k (.inr hb))
  rw [rawParams, rawParams, RevParams.mk.injEq]
  exact ⟨hk 0 _, hk 1 _, hk 2 _, hk 3 _, hk 4 _, hk 5 _, hk 6 _, hk 7 _, hk 8 _, hk 9 _⟩

/-- A setter takes A[0]. -/
theorem setParam_congr (h0 : readA a' 0 = readA s.a 0) (f : RevParams → Num32 → RevParams) :
    setParam f { s with a := a' } = setParam f s := by
  funext r
  simp only [setParam, h0]

/-! ### Exchanging the operand registers (R32) -/

/-- The presence check of the oscillator does not see an exchange of the operand registers. -/
theorem requireOsc_withA {k k' : Result} (hk : k' = onNext (fun t => { t with a := a' }) k) :
    requireOsc { s with a := a' } k' = onNext (fun t => { t with a := a' }) (requireOsc s k) := by
  subst hk
  unfold requireOsc
  rw [apply_ite (onNext _)]
  rfl

/-- The presence check of the reverberator does not see an exchange of the operand registers. -/
theorem requireRev_withA {k k' : Result} (hk : k' = onNext (fun t => { t with a := a' }) k) :
    requireRev { s with a := a' } k' = onNext (fun t => { t with a := a' }) (requireRev s k) := by
  subst hk
  unfold requireRev
  rw [apply_ite (onNext _)]
  rfl

end

/-- Settles O16, command by command: what a command takes from its operands is the same from both sets, and behind the
presence check A is not written. -/
theorem onlyNamedOperandsAreRead : Obligations.OnlyNamedOperandsAreRead := by
  intro i s a' h
  cases i with
  | oscInit n =>
    simp only [exec, execOscInit]
    cases hn : Shape.ofCode n with
    | none => rfl
    | some shape =>
      simp only [oscConstruct_congr hn h, h 3 (.inr (.inr (.inr rfl))), apply_ite (onNext _)]
      rfl
  | oscStep v =>
    simp only [exec, execOscStep, oscStepWith, beforeOutput_congr h]
    exact requireOsc_withA rfl
  | oscSetPhase =>
    refine requireOsc_withA ?_
    simp only [h 0 rfl]
    rfl
  | oscSetSr =>
    refine requireOsc_withA ?_
    simp only [h 0 rfl, apply_ite (onNext _)]
    rfl
  | oscDestroy => exact requireOsc_withA rfl
  | revInit pmask xmask =>
    simp only [exec, execRevInit, revInitWith, rawParams_congr h, h 10 (.inl rfl), apply_ite (onNext _)]
    rfl
  | revSetSr =>
    refine requireRev_withA ?_
    simp only [h 0 rfl, apply_ite (onNext _)]
    rfl
  | revProcess =>
    simp only [exec, execRevProcess, h 0 rfl]
    exact requireRev_withA rfl
  | revDestroy | revClear | revPrint => exact requireRev_withA rfl
  | revSpread | revSize | revDecay | revDamp | revBw | revDry | revWet | revEarly | revLate =>
    refine requireRev_withA ?_
    rw [setParam_congr (h 0 rfl)]
    rfl

end Sys2Proof.Machine

/-! Proofs of the oscillator's control statements (40_osc_control.md): OSC_INIT, the setters and the latch. -/

namespace Sys2Proof.Machine

open Sys2Proof F32

/-! ### Shape codes (R108) -/

theorem ofCode_code (shape : Shape) : Shape.ofCode shape.code = some shape := by
  cases shape <;> rfl

/-- SHAPE above 4 names no shape, and 0 to 4 name one each. -/
theorem ofCode_eq_none_iff {n : Nat} : Shape.ofCode n = none ↔ 4 < n := by
  constructor
  · intro hn
    by_contra hle
    have hlt : n < 5 := by omega
    interval_cases n <;> exact absurd hn nofun
  · intro hn
    cases h : Shape.ofCode n with
    | none => rfl
    | some shape =>
      have hcode : shape.code ≤ 4 := by cases shape <;> decide
      have heq : shape.code = n := code_of_ofCode h
      omega

theorem usesPulseWidth_iff_eq (shape : Shape) :
    shape.usesPulseWidth = true ↔ shape = .variableSaw ∨ shape = .square := by
  cases shape <;> decide

/-! ### What each command answers -/

section

variable {s : State}

theorem exec_oscInit_of_ofCode {n : Nat} {shape : Shape} (hn : Shape.ofCode n = some shape) :
    exec (.oscInit n) s =
      if readA s.a 3 = 0 then .next { s with status := 5 }
      else .next { s with status := 0, osc := oscConstruct shape s.a } := by
  simp only [exec, execOscInit, hn]
  rfl

theorem exec_oscInit_of_ofCode_none {n : Nat} (hn : Shape.ofCode n = none) :
    exec (.oscInit n) s = .next { s with status := 3 } := by
  simp only [exec, execOscInit, hn]
  rfl

section

variable (hp : s.osc.present = true)
include hp

theorem exec_oscStep_present (v : BitVec 4) :
    exec (.oscStep v) s = .next { s with
      status := 0
      osc := afterOutput (beforeOutput v s.a s.osc)
      q0 := outputSample params (beforeOutput v s.a s.osc) } :=
  requireOsc_present hp _

theorem exec_oscSetPhase_present :
    exec .oscSetPhase s = .next { s with
      status := 0, osc := { s.osc with spValue := readA s.a 0, spPending := true } } :=
  requireOsc_present hp _

theorem exec_oscSetSr_present :
    exec .oscSetSr s =
      if readA s.a 0 = 0 then .next { s with status := 5 }
      else .next { s with status := 0, osc := { s.osc with sr := readA s.a 0 } } :=
  requireOsc_present hp _

theorem exec_oscDestroy_present :
    exec .oscDestroy s = .next { s with status := 0, osc := { s.osc with present := false } } :=
  requireOsc_present hp _

end

/-- The presence check fails, or the command behind it gives the result. -/
theorem requireOsc_next {t : State} {k : Result} (h : requireOsc s k = .next t) :
    t = { s with status := 2 } ∨ k = .next t := by
  cases hp : s.osc.present with
  | false => exact .inl (Host.Outcome.next.inj (h.symm.trans (requireOsc_absent hp k)))
  | true => exact .inr ((requireOsc_present hp k).symm.trans h)

end

/-! ### The step's shape and latch (R133, R153) -/

@[simp] theorem beforeOutput_shape (v : BitVec 4) (a : Operands) (o : Osc) :
    (beforeOutput v a o).shape = o.shape := by
  simp [beforeOutput]

@[simp] theorem beforeOutput_pending (v : BitVec 4) (a : Operands) (o : Osc) :
    (beforeOutput v a o).spPending = false := by
  simp [beforeOutput]

theorem consumeLatch_of_pending {o : Osc} (h : o.spPending = true) :
    consumeLatch o = { o with phase := wrap o.spValue, spPending := false } := if_pos h

/-- The latch and the input streams are different registers, so the order of the two stages does not matter. -/
theorem takeInputs_consumeLatch (v : BitVec 4) (a : Operands) (o : Osc) :
    takeInputs v a (consumeLatch o) = consumeLatch (takeInputs v a o) := by
  unfold consumeLatch
  rw [apply_ite (takeInputs v a)]
  rfl

theorem consumeLatch_consumeLatch (o : Osc) : consumeLatch (consumeLatch o) = consumeLatch o :=
  if_neg (by simp)

/-- A step from the oscillator whose latch is consumed already comes to the same (R134). -/
theorem beforeOutput_consumeLatch (v : BitVec 4) (a : Operands) (o : Osc) :
    beforeOutput v a (consumeLatch o) = beforeOutput v a o := by
  unfold beforeOutput
  rw [takeInputs_consumeLatch, consumeLatch_consumeLatch]

/-! ### The statements -/

/-- Settles O18: a step keeps the shape stage by stage, the other commands behind the presence check do not name it,
and the reverberator's commands leave the oscillator. -/
theorem shapeIsFixedAtConstruction : Obligations.ShapeIsFixedAtConstruction := by
  intro i s t hi h
  cases i with
  | oscInit n => exact absurd rfl (hi n)
  | oscStep v =>
    obtain rfl | hk := requireOsc_next h
    · rfl
    · obtain rfl := Host.Outcome.next.inj hk
      simp
  | oscSetSr =>
    obtain rfl | hk := requireOsc_next h
    · rfl
    · split_ifs at hk <;> obtain rfl := Host.Outcome.next.inj hk <;> rfl
  | oscSetPhase | oscDestroy =>
    obtain rfl | hk := requireOsc_next h
    · rfl
    · obtain rfl := Host.Outcome.next.inj hk
      rfl
  | _ =>
    obtain ⟨-, hosc, -⟩ := exec_rev_frame rfl h
    rw [hosc]

/-- Settles O24: the second OSC_SETPHASE writes every register the first one wrote, and the step's latch stage leaves
the latch clear. -/
theorem lastSetPhaseWins : Obligations.LastSetPhaseWins := by
  constructor
  · intro s t a' h
    cases hp : s.osc.present with
    | false =>
      obtain rfl := Host.Outcome.next.inj ((exec_of_absent (i := .oscSetPhase) rfl hp).symm.trans h)
      rw [exec_of_absent (i := .oscSetPhase) rfl (by exact hp), exec_of_absent (i := .oscSetPhase) rfl (by exact hp)]
    | true =>
      obtain rfl := Host.Outcome.next.inj ((exec_oscSetPhase_present hp).symm.trans h)
      rw [exec_oscSetPhase_present (by exact hp), exec_oscSetPhase_present (by exact hp)]
  · intro s t v hp h
    obtain rfl := Host.Outcome.next.inj ((exec_oscStep_present hp v).symm.trans h)
    simp

/-- Settles O21: the shape's code names the shape, and the construction state does not mention the old oscillator. -/
theorem oscInitWritesConstructionState : Obligations.OscInitWritesConstructionState := by
  intro s shape hsr
  have hcode : Shape.ofCode (Spec.shapeCode shape) = some shape := ofCode_code shape
  rw [exec_oscInit_of_ofCode hcode, if_neg hsr]
  simp only [oscConstruct, usesPulseWidth_iff_eq]

/-- Settles O22: the shape is checked before the rate. -/
theorem oscInitRejections : Obligations.OscInitRejections := by
  intro s code
  constructor
  · intro h
    exact exec_oscInit_of_ofCode_none (ofCode_eq_none_iff.2 h)
  · intro h hsr
    have hsome : Shape.ofCode code ≠ none := fun hn => absurd (ofCode_eq_none_iff.1 hn) (Nat.not_lt.2 h)
    obtain ⟨shape, hshape⟩ := Option.ne_none_iff_exists'.1 hsome
    rw [exec_oscInit_of_ofCode hshape, if_pos hsr]

/-- Settles O23: a step from the armed oscillator is the step from the one whose latch is consumed. -/
theorem oscSetPhaseArmsLatch : Obligations.OscSetPhaseArmsLatch := by
  intro s
  refine ⟨exec_oscSetPhase_present, exec_of_absent (i := .oscSetPhase) rfl, fun v hp hpend => ?_⟩
  have hstep := beforeOutput_consumeLatch v s.a s.osc
  rw [consumeLatch_of_pending hpend] at hstep
  rw [exec_oscStep_present hp, exec_oscStep_present (by exact hp), hstep]

/-- Settles O25, by what OSC_SETSR answers to a filled slot and to an empty one. -/
theorem oscSetSrWritesRate : Obligations.OscSetSrWritesRate := fun _ =>
  ⟨fun hp hsr => (exec_oscSetSr_present hp).trans (if_neg hsr), exec_of_absent (i := .oscSetSr) rfl,
   fun hp hsr => (exec_oscSetSr_present hp).trans (if_pos hsr)⟩

/-- Settles O26, by what OSC_DESTROY answers to a filled slot and to an empty one. -/
theorem oscDestroyEmptiesSlot : Obligations.OscDestroyEmptiesSlot := fun _ =>
  ⟨fun hp => ⟨_, rfl, exec_oscDestroy_present hp⟩, exec_of_absent (i := .oscDestroy) rfl⟩

end Sys2Proof.Machine

/-! Proofs of the oscillator's step statements (41_osc_step.md): the pseudocode, the waveforms and their corrections,
and the conversions the phase goes through. -/

namespace Sys2Proof.Machine.F32

open Sys2Proof

/-! ### Zeros and the order -/

theorem lt_eq_false_of_le {x y : Num32} (h : le x y = true) : lt y x = false := by
  obtain ⟨-, -, hk⟩ := le_iff.1 h
  refine Bool.eq_false_iff.2 fun hlt => ?_
  obtain ⟨-, -, hk'⟩ := lt_iff.1 hlt
  omega

theorem lt_of_lt_of_le_num {x y z : Num32} (h1 : lt x y = true) (h2 : le y z = true) : lt x z = true := by
  obtain ⟨hx, -, hk1⟩ := lt_iff.1 h1
  obtain ⟨-, hz, hk2⟩ := le_iff.1 h2
  exact lt_iff.2 ⟨hx, hz, Int.lt_of_lt_of_le hk1 hk2⟩

theorem abs_toNat (x : Num32) : (F32.abs x).toNat = x.toNat % 2 ^ 31 := by
  rw [F32.abs, BitVec.toNat_and]
  exact Nat.and_two_pow_sub_one_eq_mod x.toNat 31

theorem toNat_of_isZero {x : Num32} (h : isZero x = true) : x.toNat % 2 ^ 31 = 0 := by
  simp only [isZero, Bool.and_eq_true, beq_iff_eq, expo, frac] at h
  omega

theorem abs_of_isZero {x : Num32} (h : isZero x = true) : F32.abs x = zero :=
  BitVec.eq_of_toNat_eq ((abs_toNat x).trans (toNat_of_isZero h))

/-- A zero without a sign bit is +0.0. -/
theorem eq_zero_of_isZero {x : Num32} (h : isZero x = true) (hs : sign x = false) : x = zero := by
  have hmod := toNat_of_isZero h
  rw [sign_eq_decide, decide_eq_false_iff_not] at hs
  exact BitVec.eq_of_toNat_eq (show x.toNat = 0 by omega)

/-- What is above 0 has no sign bit and is no zero. -/
theorem sign_isZero_of_pos {x : Num32} (h : lt zero x = true) : sign x = false ∧ isZero x = false := by
  obtain ⟨-, -, hk⟩ := lt_iff.1 h
  rw [key_zero] at hk
  have hs := sign_of_pos hk
  refine ⟨hs, Bool.eq_false_iff.2 fun hz => ?_⟩
  rw [key_of_sign hs, toNat_of_isZero hz] at hk
  exact absurd hk (by decide)

/-- +0.0 over a value above 0, the infinity included, is +0.0 (R8). -/
theorem zero_div_of_pos {y : Num32} (h : lt zero y = true) : div zero y = zero := by
  obtain ⟨-, hn, -⟩ := lt_iff.1 h
  obtain ⟨hs, hz⟩ := sign_isZero_of_pos h
  cases hi : isInf y with
  | true =>
    have hzero : isNaN zero = false ∧ isInf zero = false ∧ sign zero = false ∧ pack false 0 = zero := by decide
    simp [div, hn, hi, hs, hzero]
  | false =>
    rw [div_of_finite (by decide) (isFinite_iff.2 ⟨hn, hi⟩) hz, isZero_iff.1 (by decide), Nat.zero_mul, round,
      roundMag_zero, hs]
    decide

/-! ### The conversions (00_scope.md R13 to R16) -/

theorem signOf_signed (s : Bool) (n : Nat) : SignOf s (if s then -(n : Int) else (n : Int)) := by
  cases s
  · exact ⟨nofun, fun _ => Int.natCast_nonneg n⟩
  · exact ⟨fun _ => Int.neg_nonpos_of_nonneg (Int.natCast_nonneg n), nofun⟩

/-- `trunc` is the division toward zero (R14). -/
theorem trunc_of_finite {x : Num32} (h : isFinite x = true) : trunc x = (fix x).tdiv oneUnits := by
  rw [trunc, if_pos h, fix]
  split
  · rw [Int.neg_tdiv, ← Int.ofNat_tdiv]
  · rw [← Int.ofNat_tdiv]

theorem towardZero_trunc {x : Num32} (h : isFinite x = true) : Spec.towardZero (fix x) (trunc x) := by
  have habs : (trunc x * (oneUnits : Int)).natAbs = mag x / oneUnits * oneUnits := by
    rw [Int.natAbs_mul, natAbs_trunc h, Int.natAbs_natCast]
  have hsign : SignOf (sign x) (trunc x) := by
    rw [trunc, if_pos h]
    exact signOf_signed _ _
  have hdiv := Nat.div_add_mod' (mag x) oneUnits
  have hmod := Nat.mod_lt (mag x) oneUnits_pos
  rw [Spec.towardZero, habs, fix_natAbs]
  exact ⟨by omega, by omega, (signOf_mul hsign (signOf_fix x)).2 (bne_self_eq_false' _)⟩

/-- R13 treats both signs alike. -/
theorem nearestAway_neg {x n : Int} (h : Spec.nearestAway x n) : Spec.nearestAway (-x) (-n) := by
  have hdist : -n * (oneUnits : Int) - -x = -(n * oneUnits - x) := by ring
  have hmul : -n * (oneUnits : Int) = -(n * oneUnits) := by ring
  rw [Spec.nearestAway, hdist, hmul, Int.natAbs_neg, Int.natAbs_neg, Int.natAbs_neg]
  exact h

/-- Adding a half and discarding the fraction gives the nearest whole number, upward at a tie. -/
theorem nearestAway_half (m : Nat) : Spec.nearestAway m ((2 * m + oneUnits) / (2 * oneUnits) : Nat) := by
  have hU := oneUnits_pos
  have hdiv := Nat.div_add_mod (2 * m + oneUnits) (2 * oneUnits)
  have hmod := Nat.mod_lt (2 * m + oneUnits) (Nat.mul_pos Nat.two_pos hU)
  rw [Spec.nearestAway, ← Nat.cast_mul]
  rw [Nat.mul_assoc, Nat.mul_comm oneUnits] at hdiv
  generalize (2 * m + oneUnits) / (2 * oneUnits) * oneUnits = p at *
  constructor
  · omega
  · omega

theorem nearestAway_roundHalfAway {x : Num32} (h : isFinite x = true) :
    Spec.nearestAway (fix x) (roundHalfAway x) := by
  rw [roundHalfAway, if_pos h, fix]
  split
  · exact nearestAway_neg (nearestAway_half _)
  · exact nearestAway_half _

/-- `fmod(x, 1)` is x less its truncation (R15). -/
theorem fmodOne_eq_sub_trunc {x : Num32} (h : isFinite x = true) :
    fix (fmodOne x) = fix x - trunc x * (oneUnits : Int) := by
  obtain ⟨-, -, hfix⟩ := fmodOne_of_finite h
  rw [hfix, trunc_of_finite h, Int.tmod_def, Int.mul_comm]

/-- `wrap` is never -0.0 (R16). -/
theorem wrap_of_isZero {x : Num32} (h : isZero (wrap x) = true) : wrap x = zero := by
  cases hx : isFinite x with
  | false => exact if_neg (by simp [hx])
  | true =>
    rw [wrap_of_finite hx] at h ⊢
    split
    · rfl
    · rename_i hne
      rw [if_neg hne] at h
      exact eq_zero_of_isZero h (sign_round _ _ _)

/-- The fraction above the floor, a number of [0, 1), is rounded to the nearest value (R16). -/
theorem fraction_nearest (x : Int) :
    NearestEven (round false (x % (oneUnits : Int)).toNat 1) (x % (oneUnits : Int)) 1 := by
  have hU : (0 : Int) < oneUnits := by exact_mod_cast oneUnits_pos
  have h0 := Int.emod_nonneg x hU.ne'
  have h1 := Int.emod_lt_of_pos x hU
  have hover : oneUnits < overflowUnits := by decide
  have habs : (x % (oneUnits : Int)).toNat = (x % (oneUnits : Int)).natAbs := by omega
  rw [habs]
  exact round_nearest Nat.one_pos ⟨nofun, fun _ => h0⟩ (by omega)

end Sys2Proof.Machine.F32

namespace Sys2Proof.Machine

open Sys2Proof F32

/-! ### The step, register by register (R150 to R159) -/

/-- A stream the shape does not take is kept (30_encoding.md R105). -/
theorem supplied_and (bit takes : Bool) (x kept : Num32) :
    supplied (bit && takes) x kept = if takes then supplied bit x kept else kept := by
  cases bit <;> cases takes <;> rfl

section

variable (v : BitVec 4) (a : Operands) (o : Osc)

@[simp] theorem beforeOutput_keeps :
    (beforeOutput v a o).present = o.present ∧ (beforeOutput v a o).sr = o.sr ∧
    (beforeOutput v a o).lastPhaseOffset = o.lastPhaseOffset ∧ (beforeOutput v a o).spValue = o.spValue := by
  simp [beforeOutput]

/-- SelectInputs (R151). -/
theorem beforeOutput_holds :
    (beforeOutput v a o).freqHold = supplied (v.getLsbD 0) (readA a 0) o.freqHold ∧
    (beforeOutput v a o).phoffHold = supplied (v.getLsbD 1) (readA a 1) o.phoffHold ∧
    (beforeOutput v a o).pwHold =
      if o.shape.usesPulseWidth then supplied (v.getLsbD 2) (readA a 2) o.pwHold else o.pwHold := by
  simp [beforeOutput, takeInputs, supplied_and]

/-- The clamp takes the pulse width that SelectInputs stored (R154). -/
theorem beforeOutput_pulseWidth :
    (beforeOutput v a o).pulseWidth =
      if o.shape.usesPulseWidth then clamp (beforeOutput v a o).pwHold num0_01 num0_99 else o.pulseWidth := by
  simp [beforeOutput, clampPulse_pulseWidth]

/-- The increment is that of the frequency SelectInputs stored (R155). -/
theorem beforeOutput_dt :
    (beforeOutput v a o).dt = phaseIncrement (beforeOutput v a o).freqHold o.sr := by
  simp [beforeOutput, movePhase]

/-- The sync, or the modulation of the phase that the latch left (R153, R156, R157). -/
theorem beforeOutput_phase :
    (beforeOutput v a o).phase =
      if syncActive (syncInput v a) then wrap (syncInput v a)
      else wrap (add (if o.spPending then wrap o.spValue else o.phase)
        (phaseDelta (beforeOutput v a o).phoffHold o.lastPhaseOffset)) := by
  simp [beforeOutput, movePhase, consumeLatch_phase]

end

/-- R157 takes the fraction after it has zeroed a delta that is not finite; a zeroed one has none. -/
theorem phaseDelta_eq (phoff last : Num32) :
    phaseDelta phoff last =
      (let delta := if isFinite (sub phoff last) then sub phoff last else zero
       if le one (F32.abs delta) then fmodOne delta else delta) := by
  have hzero : le one (F32.abs zero) = false := by decide
  cases h : isFinite (sub phoff last) with
  | false => simp [phaseDelta, h, hzero]
  | true => simp [phaseDelta, h]

/-- The step's oscillator and output are those of the pseudocode: register by register, the lemmas above (R150). -/
theorem spec_oscStep_eq (v : BitVec 4) (a : Operands) (o : Osc) :
    Spec.oscStep v a o = (afterOutput (beforeOutput v a o), outputSample params (beforeOutput v a o)) := by
  simp only [Spec.oscStep, afterOutput, outputSample, beforeOutput_keeps, beforeOutput_shape, beforeOutput_pending,
    beforeOutput_phase, beforeOutput_dt, beforeOutput_pulseWidth, beforeOutput_holds, phaseDelta_eq,
    usesPulseWidth_iff_eq, phaseIncrement, syncActive, syncInput, operandF, supplied]

/-- OSC_STEP of a present engine is the pseudocode (R150). -/
theorem exec_oscStep_spec {s : State} (hp : s.osc.present = true) (v : BitVec 4) :
    exec (.oscStep v) s = .next { s with
      status := 0, osc := (Spec.oscStep v s.a s.osc).1, q0 := (Spec.oscStep v s.a s.osc).2 } := by
  rw [exec_oscStep_present hp, spec_oscStep_eq]

/-- Settles O27, by the pseudocode's equation and the presence check. -/
theorem oscStepFollowsPseudocode : Obligations.OscStepFollowsPseudocode := fun _ v =>
  ⟨fun hp => exec_oscStep_spec hp v, exec_of_absent (i := .oscStep v) rfl⟩

/-! ### The waveforms and their corrections (R160 to R171) -/

/-- The hardware's corrections are the reference polynomials (R161, R163). -/
theorem params_corrections (t dt : Num32) : params.blep t dt = Spec.blep t dt ∧ params.blamp t dt = Spec.blamp t dt :=
  ⟨rfl, rfl⟩

/-- Each shape's waveform is its rule's formula over these (R165 to R171). -/
theorem wave_eq_spec (shape : Shape) (p dt w : Num32) : wave params shape p dt w = Spec.wave shape p dt w := by
  cases shape <;> rfl

/-- Settles O28, by the two equations above and the rounding of each operation (R8, R9). -/
theorem waveformsFollowTheirRules : Obligations.WaveformsFollowTheirRules :=
  ⟨params_corrections, wave_eq_spec, fun _ _ hx hy =>
    ⟨add_rounded hx hy, sub_rounded hx hy, mul_rounded hx hy, div_rounded hx hy⟩⟩

/-- Settles O33: outside the window neither branch of the polynomials is taken. -/
theorem correctionsVanishOutsideWindow : Obligations.CorrectionsVanishOutsideWindow := by
  intro t dt hbefore hafter
  obtain ⟨hblep, hblamp⟩ := params_corrections t dt
  simp [hblep, hblamp, Spec.blep, Spec.blamp, lt_eq_false_of_le hbefore, lt_eq_false_of_le hafter]

/-- At the jump the correction is 1.0, for every increment above 0 (R161). -/
theorem blep_zero {dt : Num32} (h : lt zero dt = true) : Spec.blep zero dt = one := by
  have hsquare : mul (sub zero one) (sub zero one) = one := by decide
  rw [Spec.blep, if_pos h, zero_div_of_pos h, hsquare]

/-- Settles O34: the naive Saw at phase 0 is 1.0, and so is the correction taken from it. -/
theorem sawIsZeroAtItsJump : Obligations.SawIsZeroAtItsJump := by
  intro dt w _ hpos
  have hnaive : Spec.naiveWave .saw zero w = one := by simp only [Spec.naiveWave]; decide
  rw [wave_eq_spec, Spec.wave, hnaive, blep_zero hpos]
  decide

/-! ### The phase (R172) -/

/-- Settles O29: the step leaves a phase that `wrap` has given, and the conversions are the exact ones above. -/
theorem phaseStaysInUnitInterval : Obligations.PhaseStaysInUnitInterval := by
  refine ⟨fun s v hp => ?_, fun x => ?_, fun x hx => ?_⟩
  · obtain ⟨h0, h1⟩ := wrap_range (add (beforeOutput v s.a s.osc).phase (beforeOutput v s.a s.osc).dt)
    exact ⟨_, exec_oscStep_present hp v, h0, h1⟩
  · obtain ⟨h0, h1⟩ := wrap_range x
    exact ⟨h0, h1, wrap_of_isZero, fun hx => if_neg (by simp [hx])⟩
  · obtain ⟨hfin, hsign, -⟩ := fmodOne_of_finite hx
    exact ⟨⟨_, sign_round _ _ _, fraction_nearest (fix x), wrap_of_finite hx⟩, nearestAway_roundHalfAway hx,
      towardZero_trunc hx, hfin, hsign, fmodOne_eq_sub_trunc hx⟩

/-! ### Operands that make no difference (R174, R175, R156) -/

/-- The pseudocode reads the frequency through `abs` (R155, R175). -/
theorem spec_oscStep_neg_freq {v : BitVec 4} (hv : v.getLsbD 0 = true) (a : Operands) (o : Osc) :
    Spec.oscStep v (writeA a 0 (neg (readA a 0))) o =
      ({ (Spec.oscStep v a o).1 with freqHold := neg (readA a 0) }, (Spec.oscStep v a o).2) := by
  simp [Spec.oscStep, hv, readA_writeA, abs_neg]

/-- Settles O30: the pseudocode with the sign flipped differs in the hold register only. -/
theorem frequencySignIsIgnored : Obligations.FrequencySignIsIgnored := by
  intro s v hp hv
  rw [exec_oscStep_spec hp, exec_oscStep_spec (by exact hp), spec_oscStep_neg_freq hv, onNext_next]

/-- A sync at most 0, above 1 or a NaN fails the sync test (R156). -/
theorem syncActive_eq_false {x : Num32} (h : le x zero = true ∨ lt one x = true ∨ isNaN x = true) :
    syncActive x = false := by
  rw [syncActive, Bool.and_eq_false_iff]
  obtain hle | hlt | hnan := h
  · exact .inl (lt_eq_false_of_le hle)
  · exact .inr (Bool.eq_false_iff.2 fun hle => by simp [lt_eq_false_of_le hle] at hlt)
  · exact .inl (by simp [lt, hnan])

/-- A step reads its sync only where the sync test holds (R156). -/
theorem movePhase_of_inactive {x y : Num32} (hx : syncActive x = false) (hy : syncActive y = false) (o : Osc) :
    movePhase x o = movePhase y o := by
  simp [movePhase, hx, hy]

/-- Clearing VMASK's sync bit keeps the other streams and makes the sync 0.0 (R151, R152). -/
theorem takeInputs_clearSync (v : BitVec 4) (a : Operands) :
    takeInputs (v &&& 0x7#4) a = takeInputs v a ∧ syncInput (v &&& 0x7#4) a = zero := by
  constructor
  · funext o
    simp [takeInputs]
  · simp [syncInput, supplied]

/-- Settles O31: both sync inputs fail the test, and the other inputs are the same. -/
theorem syncOutsideRangeIsNoSync : Obligations.SyncOutsideRangeIsNoSync := by
  intro s v hv hsync
  obtain ⟨hinputs, hzero⟩ := takeInputs_clearSync v s.a
  have hset : syncInput v s.a = readA s.a 3 := if_pos hv
  have hbefore : beforeOutput (v &&& 0x7#4) s.a s.osc = beforeOutput v s.a s.osc := by
    rw [beforeOutput, hinputs, hzero, movePhase_of_inactive (by decide) (hset ▸ syncActive_eq_false hsync)]
    rfl
  simp only [exec, execOscStep, oscStepWith, hbefore]

/-- A zero of either sign over a rate other than 0 gives the increment +0.0 (R174). -/
theorem phaseIncrement_of_isZero {freq : Num32} {sr : Word} (hf : isZero freq = true) (hsr : sr ≠ 0) :
    phaseIncrement freq sr = zero := by
  have hone : 0 < sr.toNat := Nat.pos_of_ne_zero fun h => hsr (BitVec.eq_of_toNat_eq h)
  have hpos : lt zero (ofNat sr.toNat) = true := lt_of_lt_of_le_num (by decide) (one_le_ofNat hone)
  rw [phaseIncrement, abs_of_isZero hf, zero_div_of_pos hpos]
  rfl

/-- Settles O32: the increment of a zero, and at increment 0 every distance below 1 is outside the window. -/
theorem zeroFrequencyHasNoCorrection : Obligations.ZeroFrequencyHasNoCorrection := by
  constructor
  · intro s t v hp hsr hv hzero h
    obtain rfl := Host.Outcome.next.inj ((exec_oscStep_present hp v).symm.trans h)
    obtain ⟨hheld, -, -⟩ := beforeOutput_holds v s.a s.osc
    rw [hv] at hheld
    exact (beforeOutput_dt v s.a s.osc).trans (hheld ▸ phaseIncrement_of_isZero hzero hsr)
  · rintro x ⟨h0, h1⟩
    have hsub : sub one zero = one := by decide
    exact correctionsVanishOutsideWindow x zero h0 (hsub ▸ le_of_lt h1)

end Sys2Proof.Machine

/-! Proofs of the reverberator's construction and parameter statements (42_rev_params.md): the clamps, REV_INIT, the
setters, and what a legal room derives. -/

namespace Sys2Proof.Machine

open Sys2Proof F32

/-! ### The clamps (R12, R191) -/

/-- `clamp` is R12's clamp where the range is not empty. -/
theorem clamp_clamped {lo hi : Num32} (h : le lo hi = true) (x : Num32) : Spec.clamped x lo hi (clamp x lo hi) := by
  refine ⟨fun hnan => ?_, fun hbelow => ?_, fun habove => ?_, fun hlo hhi => ?_⟩
  · simp [clamp, hnan]
  · simp [clamp, hbelow]
  · obtain ⟨-, hnum, -⟩ := lt_iff.1 habove
    simp [clamp, hnum, lt_eq_false_of_le (le_trans_num h (le_of_lt habove)), habove]
  · obtain ⟨-, hnum, -⟩ := le_iff.1 hlo
    simp [clamp, hnum, lt_eq_false_of_le hlo, lt_eq_false_of_le hhi]

/-- The range of size is not empty, whatever the maxsize asked for (R191). -/
theorem num0_1_le_clampAll_maxsize (p : RevParams) : le num0_1 (clampAll p).maxsize = true :=
  (clamp_range num0_1_le_numInf).1

theorem clampAll_inv (p : RevParams) : ParamsInv (clampAll p) :=
  ⟨clamp_range num0_1_le_numInf, clampSize_range _ (num0_1_le_clampAll_maxsize p), clampUnit_range _,
   clampUnit_range _, clampDecay_range _, clampUnit_range _, clampUnit_range _, clampUnit_range _,
   clampUnit_range _, clampUnit_range _⟩

/-- Settles O39: each parameter is clamped to a range that is not empty. -/
theorem clampAllGivesLegalParameters : Obligations.ClampAllGivesLegalParameters := fun p =>
  have hunit (x : Num32) : Spec.clamped x zero one (clamp x zero one) := clamp_clamped zero_le_one x
  ⟨clampAll_inv p, clamp_clamped num0_1_le_numInf _, clamp_clamped (num0_1_le_clampAll_maxsize p) _,
   clamp_clamped num0_001_le_num3600 _, hunit _, hunit _, hunit _, hunit _, hunit _, hunit _, hunit _⟩

/-! ### The derivations are those of the rules (R193 to R197) -/

theorem deriveDiffusers_eq_spec (P : Params) (r : Rev) : deriveDiffusers P r = Spec.deriveDiffusersWith P.diffR r := rfl

theorem deriveAlpha_eq_spec (r : Rev) : deriveAlpha params r = Spec.deriveAlpha r := rfl

theorem deriveGains_eq_spec (r : Rev) : deriveGains params r = Spec.deriveGains r := rfl

theorem deriveSize_eq_spec (r : Rev) : deriveSize params r = Spec.deriveSize r := rfl

theorem capacityOk_iff {P : Params} {sr : Word} {maxsize : Num32} :
    capacityOk P sr maxsize = true ↔
      isFinite (largestDelayOf sr maxsize) = true ∧ roundHalfAway (largestDelayOf sr maxsize) ≤ (P.fdnCap : Int) := by
  rw [capacityOk, Bool.and_eq_true, decide_eq_true_iff]

theorem capacityOk_iff_spec {sr : Word} {maxsize : Num32} :
    capacityOk params sr maxsize = true ↔ Spec.capacityOk sr maxsize := capacityOk_iff

/-! ### REV_INIT and REV_SETSR (R190, R199, R209) -/

/-- DeriveSize reads the parameters and the rate, and keeps alpha, the dampers and the tap line; every other register
it writes (R195). -/
theorem deriveSize_congr {P : Params} {r r' : Rev} (hpresent : r.present = r'.present) (hpar : r.par = r'.par)
    (hsr : r.sr = r'.sr) (halpha : r.alpha = r'.alpha) (hin : r.inDamp = r'.inDamp) (hfdn : r.fdnDamp = r'.fdnDamp)
    (htap : r.tapLine = r'.tapLine) : deriveSize P r = deriveSize P r' := by
  cases r
  cases r'
  subst hpresent hpar hsr halpha hin hfdn htap
  rfl

/-- The construction state comes from any engine that has the registers R199 writes by name. -/
theorem revConstruct_eq_of_written {P : Params} {c : RevParams} {r : Rev} (hpresent : r.present = true)
    (hpar : r.par = c) (hin : r.inDamp = { c := sub one c.bw, s := zero })
    (hfdn : r.fdnDamp = .const { c := c.damp, s := zero }) (htap : r.tapLine = Spec.zeroLine tapSize) :
    revConstruct P c r.sr = deriveSize P (deriveAlpha P r) := by
  subst hpar
  exact deriveSize_congr hpresent.symm rfl rfl rfl hin.symm hfdn.symm htap.symm

section

variable {s : State}

/-- REV_INIT's checks, in their order (R273). -/
theorem exec_revInit (pmask : BitVec 10) (xmask : Nat) :
    exec (.revInit pmask xmask) s =
      if xmask ≠ 0 then .next { s with status := 4 }
      else if readA s.a 10 = 0 then .next { s with status := 5 }
      else if capacityOk params (readA s.a 10) (Spec.clampAll (Spec.rawParams pmask s.a)).maxsize then
        .next { s with
          status := 0
          rev := revConstruct params (Spec.clampAll (Spec.rawParams pmask s.a)) (readA s.a 10) }
      else .next { s with status := 6 } := rfl

/-- REV_SETSR's checks behind the presence check, in their order (R273). -/
theorem exec_revSetSr_present (hp : s.rev.present = true) :
    exec .revSetSr s =
      if readA s.a 0 = 0 then .next { s with status := 5 }
      else if capacityOk params (readA s.a 0) s.rev.par.maxsize then
        .next { s with status := 0, rev := Spec.deriveSize (Spec.deriveAlpha { s.rev with sr := readA s.a 0 }) }
      else .next { s with status := 6 } :=
  requireRev_present hp _

end

/-- Settles O40: no check fails, and the construction state comes from `r0`. -/
theorem revInitWritesConstructionState : Obligations.RevInitWritesConstructionState := by
  intro s pmask c r0 hc hsr hcap hpresent hr0sr hpar hin hfdn htap
  subst hc
  rw [exec_revInit, if_neg (not_not_intro rfl), if_neg hsr, if_pos (capacityOk_iff_spec.2 hcap), ← hr0sr,
    revConstruct_eq_of_written hpresent hpar hin hfdn htap, deriveSize_eq_spec, deriveAlpha_eq_spec]

/-- Settles O41, by the order of REV_INIT's checks. -/
theorem revInitRejections : Obligations.RevInitRejections := by
  intro s pmask xmask
  refine ⟨fun hx => ?_, fun hsr => ?_, fun hsr hcap => ?_⟩
  · rw [exec_revInit, if_pos hx]
  · rw [exec_revInit, if_neg (not_not_intro rfl), if_pos hsr]
  · rw [exec_revInit, if_neg (not_not_intro rfl), if_neg hsr, if_neg (mt capacityOk_iff_spec.1 hcap)]

/-- Settles O48, by the order of REV_SETSR's checks. -/
theorem revSetSrRecomputesEverything : Obligations.RevSetSrRecomputesEverything := by
  intro s
  refine ⟨fun hp hsr hcap => ?_, exec_of_absent (i := .revSetSr) rfl, fun hp hsr => ?_, fun hp hsr hcap => ?_⟩
  · rw [exec_revSetSr_present hp, if_neg hsr, if_pos (capacityOk_iff_spec.2 hcap)]
  · rw [exec_revSetSr_present hp, if_pos hsr]
  · rw [exec_revSetSr_present hp, if_neg hsr, if_neg (mt capacityOk_iff_spec.1 hcap)]

/-! ### The setters and REV_DESTROY (R200 to R208, R210) -/

section

variable {s : State} (hp : s.rev.present = true)
include hp

theorem exec_revSize_present :
    exec .revSize s = .next { s with
      status := 0
      rev := deriveSize params { s.rev with
        par := { s.rev.par with size := clamp (readA s.a 0) num0_1 s.rev.par.maxsize } } } :=
  requireRev_present hp _

theorem execWith_revSpread_present (P : Params) :
    execWith P .revSpread s = .next { s with
      status := 0
      rev := deriveDiffusers P { s.rev with par := { s.rev.par with spread := clamp (readA s.a 0) zero one } } } :=
  requireRev_present hp _

theorem exec_revDecay_present :
    exec .revDecay s = .next { s with
      status := 0
      rev := deriveGains params (deriveAlpha params { s.rev with
        par := { s.rev.par with decay := clamp (readA s.a 0) num0_001 num3600 } }) } :=
  requireRev_present hp _

end

/-- Settles O42: the room geometry is derived behind the presence check. -/
theorem revSizeDerivesGeometry : Obligations.RevSizeDerivesGeometry := by
  refine fun s => ⟨fun hp => ?_, exec_of_absent (i := .revSize) rfl⟩
  rw [exec_revSize_present hp, deriveSize_eq_spec]

/-- Settles O43: alpha and the gains are derived behind the presence check. -/
theorem revDecayDerivesGains : Obligations.RevDecayDerivesGains := by
  refine fun s => ⟨fun hp => ?_, exec_of_absent (i := .revDecay) rfl⟩
  rw [exec_revDecay_present hp, deriveGains_eq_spec, deriveAlpha_eq_spec]

/-- Settles O44: behind the presence check REV_DAMP writes its parameter and the branch coefficients. -/
theorem revDampSetsBranchCoefficients : Obligations.RevDampSetsBranchCoefficients := fun _ =>
  ⟨fun hp => requireRev_present hp _, exec_of_absent (i := .revDamp) rfl⟩

/-- Settles O45: behind the presence check REV_BW writes its parameter and the input coefficient. -/
theorem revBwSetsInputCoefficient : Obligations.RevBwSetsInputCoefficient := fun _ =>
  ⟨fun hp => requireRev_present hp _, exec_of_absent (i := .revBw) rfl⟩

/-- Settles O46: behind the presence check each of the four writes its parameter. -/
theorem revMixLevelSetters : Obligations.RevMixLevelSetters := fun _ =>
  ⟨fun hp => ⟨requireRev_present hp _, requireRev_present hp _, requireRev_present hp _, requireRev_present hp _⟩,
   fun hp => ⟨exec_of_absent (i := .revDry) rfl hp, exec_of_absent (i := .revWet) rfl hp,
    exec_of_absent (i := .revEarly) rfl hp, exec_of_absent (i := .revLate) rfl hp⟩⟩

/-- Settles O49, by what REV_DESTROY answers to a filled slot and to an empty one. -/
theorem revDestroyEmptiesSlot : Obligations.RevDestroyEmptiesSlot := fun _ =>
  ⟨fun hp => ⟨_, rfl, requireRev_present hp _⟩, exec_of_absent (i := .revDestroy) rfl⟩

/-! ### The diffusers (R197, R208) -/

theorem spec_parts_eq (spread r1 r2 : Num32) : Spec.parts spread r1 r2 = diffParts spread r1 r2 := rfl

/-- Settles O47: the diffusers are derived behind the presence check, for any parameters, and a spread offset is no
greater than its scale. -/
theorem revSpreadDerivesDiffusers : Obligations.RevSpreadDerivesDiffusers := by
  refine ⟨fun s => ⟨fun hp => ?_, exec_of_absent (i := .revSpread) rfl⟩, fun P s hp => ?_,
    fun spread r1 r2 hs h1 h2 => ?_⟩
  · rw [exec_eq_execWith, execWith_revSpread_present hp, deriveDiffusers_eq_spec]
    rfl
  · rw [execWith_revSpread_present hp, deriveDiffusers_eq_spec]
  · rw [spec_parts_eq]
    have hrange := diffParts_range hs h1 h2
    obtain ⟨-, -, hsum⟩ := hrange 0
    refine ⟨fun j => ?_, hsum⟩
    obtain ⟨hlo, hhi, -⟩ := hrange j
    exact ⟨hlo, hhi⟩

/-! ### Reallocated lines (R211) -/

theorem four_get_map {α β : Type} (f : α → β) (x : Four α) (j : Fin 4) : (x.map f).get j = f (x.get j) := by
  match j with
  | 0 | 1 | 2 | 3 => rfl

/-- Every offset of a line at rest reads 0.0. -/
theorem DelayLine.AtRest.read {L : DelayLine} (h : L.AtRest) (n : Nat) : dlRead L n = zero :=
  dlRead_of_empty h.2 n

theorem atRest_of_zeroLines {L : Four DelayLine} {size : Four Nat} (h : L = size.map Spec.zeroLine) (j : Fin 4) :
    (L.get j).AtRest := by
  rw [h, four_get_map]
  exact ⟨rfl, rfl⟩

theorem deriveDiffusers_atRest (P : Params) (r : Rev) (j : Fin 4) :
    ((deriveDiffusers P r).difL.get j).AtRest ∧ ((deriveDiffusers P r).difR.get j).AtRest := by
  obtain ⟨hl, hr⟩ := deriveDiffusers_lines P r
  exact ⟨atRest_of_zeroLines hl j, atRest_of_zeroLines hr j⟩

theorem deriveSize_atRest (P : Params) (r : Rev) (j : Fin 4) :
    ((deriveSize P r).fdnLine.get j).AtRest ∧ ((deriveSize P r).difL.get j).AtRest ∧
    ((deriveSize P r).difR.get j).AtRest := by
  obtain ⟨hf, hl, hr⟩ := deriveSize_lines P r
  exact ⟨atRest_of_zeroLines hf j, atRest_of_zeroLines hl j, atRest_of_zeroLines hr j⟩

/-- Settles O50: both derivations reallocate their lines, whatever the parameter they are given. -/
theorem resizeAlwaysZeroesItsLines : Obligations.ResizeAlwaysZeroesItsLines := by
  intro s hp
  constructor
  · obtain ⟨r, hexec⟩ : ∃ r, exec .revSize s = .next { s with status := 0, rev := deriveSize params r } :=
      ⟨_, exec_revSize_present hp⟩
    refine ⟨_, hexec, fun j n => ?_⟩
    obtain ⟨hf, hl, hr⟩ := deriveSize_atRest params r j
    exact ⟨hf.read n, hl.read n, hr.read n, hf.1, hl.1, hr.1⟩
  · obtain ⟨r, hexec⟩ : ∃ r, exec .revSpread s = .next { s with status := 0, rev := deriveDiffusers params r } :=
      ⟨_, execWith_revSpread_present hp params⟩
    refine ⟨_, hexec, fun j n => ?_⟩
    obtain ⟨hl, hr⟩ := deriveDiffusers_atRest params r j
    exact ⟨hl.read n, hr.read n, hl.1, hr.1⟩

/-! ### What a legal room derives (R193, R195) -/

/-- The largest delay of a legal reverberator is finite and no greater than the one its capacity was checked for. -/
theorem revInv_largestDelay {P : Params} {r : Rev} (h : RevInv P r) :
    isFinite r.largestDelay = true ∧ sign r.largestDelay = false ∧
    sign (largestDelayOf r.sr r.par.maxsize) = false ∧
    mag r.largestDelay ≤ mag (largestDelayOf r.sr r.par.maxsize) := by
  obtain ⟨-, hcap, ⟨-, ⟨hlo, hhi⟩, -⟩, ⟨hld, -⟩, -⟩ := h
  obtain ⟨hfin, -⟩ := capacityOk_iff.1 hcap
  exact hld ▸ largestDelayOf_le hlo hhi hfin

/-- Every branch's ratio is finite, positive and at most 1. -/
theorem lenRatio_unit (j : Fin 4) :
    isFinite (lenRatio.get j) = true ∧ sign (lenRatio.get j) = false ∧ mag (lenRatio.get j) ≤ oneUnits := by
  revert j
  decide

/-- A branch of a legal reverberator fits the capacity (R193). -/
theorem revInv_len_le {P : Params} {r : Rev} (hpos : 1 ≤ P.fdnCap) (h : RevInv P r) (j : Fin 4) :
    r.len.get j ≤ P.fdnCap := by
  obtain ⟨hfin, hsign, hsignMax, hmag⟩ := revInv_largestDelay h
  obtain ⟨-, hcap, -, ⟨-, -, hlen, -⟩, -⟩ := h
  obtain ⟨hfinMax, hmax⟩ := capacityOk_iff.1 hcap
  obtain ⟨hratio, hratioSign, hratioMag⟩ := lenRatio_unit j
  rw [hlen, four_get_map]
  exact lenOf_le hpos hfin hsign hfinMax hsignMax hmag hmax hratio hratioSign hratioMag

/-- Settles O51: a room that fits has branches that fit. -/
theorem branchesFitTheCapacity : Obligations.BranchesFitTheCapacity := fun _ h =>
  have hle := revInv_len_le (by decide) h
  ⟨hle 0, hle 1, hle 2, hle 3⟩

theorem roundHalfAway_of_isZero {x : Num32} (h : isZero x = true) : roundHalfAway x = 0 := by
  have hU := oneUnits_pos
  have hhalf : oneUnits / (2 * oneUnits) = 0 := Nat.div_eq_of_lt (by omega)
  simp [roundHalfAway, isFinite_of_isZero h, isZero_iff.1 h, hhalf]

/-- A finite largest delay times the ratio 0.0 is a zero (R195). -/
theorem tapOf_zero {ld : Num32} (h : isFinite ld = true) : tapOf ld zero = 5 := by
  rw [tapOf, roundHalfAway_of_isZero (isZero_mul_right h isZero_zero)]
  rfl

/-- Settles O52: the last tap's ratio is 0.0, and a legal room's largest delay is finite. -/
theorem shortestTapIsFive : Obligations.ShortestTapIsFive := by
  intro r h
  obtain ⟨hfin, -⟩ := revInv_largestDelay h
  obtain ⟨-, -, -, ⟨-, -, -, htap, -⟩, -⟩ := h
  calc r.tap.i3
    _ = tapOf r.largestDelay zero := congrArg Four.i3 htap
    _ = 5 := tapOf_zero hfin

end Sys2Proof.Machine

/-! Proofs of the signal path statements (43_rev_process.md): REV_PROCESS against its pseudocode, REV_CLEAR, and the
silence that stays silent. -/

namespace Sys2Proof.Machine

open Sys2Proof F32

/-! ### REV_PROCESS is its pseudocode (R240 to R251) -/

theorem damp_eq_spec (D : Damper) (x : Num32) :
    damp D x = ({ D with s := Spec.dampOut D x }, Spec.dampOut D x) := rfl

theorem diffuse_eq_spec (L : DelayLine) (c x : Num32) :
    diffuse L c x = (Spec.diffuseLine L c x, Spec.diffuseOut L c x) := rfl

theorem gateInput_eq (x : Num32) :
    gateInput x = if isFinite x = false ∨ lt num100000 (F32.abs x) = true then zero else x := by
  simp only [gateInput, Bool.or_eq_true, Bool.not_eq_true']

/-- The nine steps, each over its primitive, are the pseudocode read top to bottom. -/
theorem processSample_eq_spec (r : Rev) (x : Num32) : processSample r x = Spec.process r x := by
  simp only [processSample, Spec.process, gateInput_eq, cascade, branchOutputs, damp_eq_spec, diffuse_eq_spec]
  rfl

/-- Settles O53, by the pseudocode's equation and the presence check. -/
theorem revProcessFollowsPseudocode : Obligations.RevProcessFollowsPseudocode := fun _ =>
  ⟨fun hp => processSample_eq_spec _ _ ▸ exec_revProcess_present hp, exec_of_absent (i := .revProcess) rfl⟩

/-! ### The input gate (R243) -/

/-- The sample's operand enters the signal path through the gate alone. -/
theorem processSample_congr {x y : Num32} (h : gateInput x = gateInput y) (r : Rev) :
    processSample r x = processSample r y := by
  simp only [processSample, h]

theorem gateInput_of_extreme {x : Num32} (h : isFinite x = false ∨ lt num100000 (F32.abs x) = true) :
    gateInput x = zero := by
  rw [gateInput_eq, if_pos h]

/-- A zero comes out of the gate as a zero, whichever branch is taken. -/
theorem isZero_gateInput {x : Num32} (h : isZero x = true) : isZero (gateInput x) = true := by
  rw [gateInput]
  split
  · exact isZero_zero
  · exact h

/-- Settles O55: both operands come out of the gate as 0.0, and the presence check reads neither. -/
theorem extremeInputActsAsZero : Obligations.ExtremeInputActsAsZero := by
  intro s x hx
  have hzero : gateInput zero = zero := by decide
  have hsample :
      processSample s.rev (readA (writeA s.a 0 x) 0) = processSample s.rev (readA (writeA s.a 0 zero) 0) := by
    simp only [readA_writeA, if_true]
    exact processSample_congr ((gateInput_of_extreme hx).trans hzero.symm) s.rev
  refine requireRev_withA (s := { s with a := writeA s.a 0 zero }) ?_
  simp only [operandF, hsample, complete_eq, onNext_next]

/-! ### REV_CLEAR and REV_PRINT (R253, R254) -/

theorem exec_revClear_present {s : State} (hp : s.rev.present = true) :
    exec .revClear s = .next { s with status := 0, rev := clearSignal s.rev } :=
  updateRev_present hp clearSignal

/-- Settles O57: behind the presence check REV_CLEAR clears the signal, and a cleared line is one of zeros. -/
theorem revClearZeroesTheSignal : Obligations.RevClearZeroesTheSignal := fun _ =>
  ⟨exec_revClear_present, exec_of_absent (i := .revClear) rfl⟩

/-- Settles O60: behind the presence check REV_PRINT keeps the reverberator. -/
theorem revPrintOnlyWritesStatus : Obligations.RevPrintOnlyWritesStatus := fun _ =>
  ⟨fun hp => updateRev_present hp id, exec_of_absent (i := .revPrint) rfl⟩

/-- Where the derived registers are those of the parameters and the resizable lines hold zeros, deriving them again
changes nothing. -/
theorem deriveSize_of_derived {P : Params} {r : Rev} (h : DerivedInv P r) (hf : r.fdnLine = r.len.map Spec.zeroLine)
    (hl : r.difL = r.diffSizeL.map Spec.zeroLine) (hr : r.difR = r.diffSizeR.map Spec.zeroLine) :
    deriveSize P (deriveAlpha P r) = r := by
  obtain ⟨hld, halpha, hlen, htap, hfdnGain, htapGain, hsizeL, hsizeR, -, -⟩ := h
  cases r
  dsimp only at *
  subst hf hl hr hfdnGain htapGain hsizeL hsizeR hlen htap halpha hld
  rfl

/-- Four cleared lines are zeros at the lines' sizes. -/
theorem map_dlClear_of_linesInv {L : Four DelayLine} {size : Four Nat} (h : LinesInv L size) :
    L.map dlClear = size.map Spec.zeroLine := by
  obtain ⟨⟨h0, -⟩, ⟨h1, -⟩, ⟨h2, -⟩, ⟨h3, -⟩⟩ := h
  simp only [Four.map, dlClear, Spec.zeroLine, h0, h1, h2, h3]

/-- Four cleared dampers with one coefficient are four times the same damper. -/
theorem map_clearDamper_of_coeffs {D : Four Damper} {c : Num32} (h : D.map (fun D => D.c) = .const c) :
    D.map (fun D => { D with s := zero }) = .const { c := c, s := zero } := by
  obtain ⟨h0, h1, h2, h3⟩ := Four.mk.inj h
  simp only [Four.map, Four.const, h0, h1, h2, h3]

/-- Clearing a legal engine gives the construction state of its parameters and rate (R253). -/
theorem clearSignal_eq_revConstruct {P : Params} {r : Rev} (hp : r.present = true) (h : RevInv P r) :
    clearSignal r = revConstruct P r.par r.sr := by
  obtain ⟨-, -, -, hd, ⟨htap, -⟩, hfdn, hdifL, hdifR, -⟩ := h
  have hderived : DerivedInv P (clearSignal r) := hd
  obtain ⟨-, -, -, -, -, -, -, -, hin, hcoeffs⟩ := hd
  have hin' : (clearSignal r).inDamp = { c := sub one r.par.bw, s := zero } := congrArg (Damper.mk · zero) hin
  have hconstruct : revConstruct P r.par (clearSignal r).sr = deriveSize P (deriveAlpha P (clearSignal r)) :=
    revConstruct_eq_of_written hp rfl hin' (map_clearDamper_of_coeffs hcoeffs) (congrArg Spec.zeroLine htap)
  calc clearSignal r
    _ = deriveSize P (deriveAlpha P (clearSignal r)) :=
      (deriveSize_of_derived hderived (map_dlClear_of_linesInv hfdn) (map_dlClear_of_linesInv hdifL)
        (map_dlClear_of_linesInv hdifR)).symm
    _ = revConstruct P r.par r.sr := hconstruct.symm

/-- Settles O58: a cleared legal engine is a constructed one. -/
theorem clearRestoresConstruction : Obligations.ClearRestoresConstruction := fun _ hp h =>
  clearSignal_eq_revConstruct hp h ▸ exec_revClear_present hp

/-! ### Silence through one sample (R242, R255, R256) -/

theorem four_all_iff {α : Type} {p : α → Bool} {x : Four α} : x.all p = true ↔ ∀ j, p (x.get j) = true := by
  simp only [Four.all, Bool.and_eq_true, and_assoc]
  exact ⟨fun ⟨h0, h1, h2, h3⟩ j => match j with | 0 => h0 | 1 => h1 | 2 => h2 | 3 => h3,
    fun h => ⟨h 0, h 1, h 2, h 3⟩⟩

theorem four_get_zipWith {α β γ : Type} (f : α → β → γ) (x : Four α) (y : Four β) (j : Fin 4) :
    (x.zipWith f y).get j = f (x.get j) (y.get j) := by
  match j with
  | 0 | 1 | 2 | 3 => rfl

theorem isFinite_of_unit {x : Num32} (h : InRange x zero one) : isFinite x = true := (unit_fix h.1 h.2).1

/-- Every gain of a legal reverberator is finite (R255). -/
theorem revInv_gains_finite {r : Rev} (h : RevInv params r) (j : Fin 4) :
    isFinite (r.fdnGain.get j) = true ∧ isFinite (r.tapGain.get j) = true := by
  obtain ⟨hfdn, htap, -⟩ := revInv_gains h j
  exact ⟨isFinite_neg _ ▸ isFinite_of_unit hfdn, isFinite_of_unit htap⟩

/-- Every damper coefficient of a legal reverberator lies in [0,1] (R63). -/
theorem revInv_coeffs {P : Params} {r : Rev} (h : RevInv P r) :
    InRange r.inDamp.c zero one ∧ ∀ j, InRange (r.fdnDamp.get j).c zero one := by
  obtain ⟨-, -, ⟨-, -, -, hbw, -, hdamp, -⟩, ⟨-, -, -, -, -, -, -, -, hin, hcoeffs⟩, -⟩ := h
  refine ⟨hin ▸ (sub_one_range hbw.1 hbw.2).2, fun j => ?_⟩
  have hc : (r.fdnDamp.get j).c = r.par.damp := by
    rw [← four_get_map (fun D : Damper => D.c), hcoeffs]
    match j with
    | 0 | 1 | 2 | 3 => rfl
  exact hc ▸ hdamp

/-- The silent taps give zeros (R246). -/
theorem tapValues_silent {r : Rev} (h : RevInv params r) (hs : Silent r) (j : Fin 4) :
    isZero ((tapValues r).get j) = true := by
  obtain ⟨htap, -⟩ := hs
  obtain ⟨-, hgain⟩ := revInv_gains_finite h j
  rw [tapValues, four_get_zipWith, four_get_map]
  exact isZero_mul_right hgain (dlRead_silent htap _)

/-- The silent branches give zeros and leave them in their dampers (R247). -/
theorem branchOutputs_silent {r : Rev} (h : RevInv params r) (hs : Silent r) (j : Fin 4) :
    isZero ((branchOutputs r).get j).1.s = true ∧ isZero ((branchOutputs r).get j).2 = true := by
  obtain ⟨-, hfdn, -, -, -, hdamp⟩ := hs
  obtain ⟨hgain, -⟩ := revInv_gains_finite h j
  obtain ⟨-, hc⟩ := revInv_coeffs h
  rw [branchOutputs, four_get_zipWith, four_get_zipWith, fdnReads, four_get_zipWith]
  have hout := damp_silent (four_all_iff.1 hdamp j)
    (isZero_mul_right hgain (dlRead_silent (four_all_iff.1 hfdn j) (r.len.get j))) (hc j)
  exact ⟨hout, hout⟩

/-- Zeros mix to a zero, at finite levels (R248). -/
theorem mixSum_zeros {late early x : Num32} {d u : Four Num32} (hlate : isFinite late = true)
    (hearly : isFinite early = true) (hx : isZero x = true) (hd : ∀ j, isZero (d.get j) = true)
    (hu : ∀ j, isZero (u.get j) = true) : isZero (mixSum late early x d u) = true := by
  have ht (j : Fin 4) : isZero (add (mul late (d.get j)) (mul early (u.get j))) = true :=
    isZero_add (isZero_mul_right hlate (hd j)) (isZero_mul_right hearly (hu j))
  exact isZero_add (isZero_sub (isZero_add (isZero_sub (isZero_add isZero_zero (ht 0)) (ht 1)) (ht 2)) (ht 3))
    (isZero_mul_left hx hearly)

/-- Zeros feed zeros back (R249). -/
theorem feedback_zeros {d : Four Num32} (hd : ∀ j, isZero (d.get j) = true) (j : Fin 4) :
    isZero ((feedback d).get j) = true := by
  have h0 := hd 0
  have h1 := hd 1
  have h2 := hd 2
  have h3 := hd 3
  match j with
  | 0 => exact isZero_mul_right (by decide) (isZero_sub (isZero_sub (isZero_add h0 h1) h2) h3)
  | 1 => exact isZero_mul_right (by decide) (isZero_add (isZero_sub (isZero_sub h0 h1) h2) h3)
  | 2 => exact isZero_mul_right (by decide) (isZero_add (isZero_sub (isZero_add (isZero_neg h0) h1) h2) h3)
  | 3 => exact isZero_mul_right (by decide) (isZero_add (isZero_add (isZero_add h0 h1) h2) h3)

/-- A zero through a silent cascade is a zero, and the cascade stays silent (R250). -/
theorem cascade_silent {dif : Four DelayLine} {x : Num32} (h : dif.all DelayLine.silent = true) (hx : isZero x = true) :
    (cascade dif x).1.all DelayLine.silent = true ∧ isZero (cascade dif x).2 = true := by
  have hline := four_all_iff.1 h
  have hc (j : Fin 4) : isFinite (diffCoeff.get j) = true := by revert j; decide
  obtain ⟨h1, hx1⟩ := diffuse_silent (hline 1) (hc 1) hx
  obtain ⟨h2, hx2⟩ := diffuse_silent (hline 2) (hc 2) hx1
  obtain ⟨h3, hx3⟩ := diffuse_silent (hline 3) (hc 3) hx2
  refine ⟨four_all_iff.2 fun j => ?_, hx3⟩
  match j with
  | 0 => exact hline 0
  | 1 => exact h1
  | 2 => exact h2
  | 3 => exact h3

/-- Four silent lines stay silent when zeros are written to them. -/
theorem zipWith_dlWrite_silent {L : Four DelayLine} {v : Four Num32} (h : L.all DelayLine.silent = true)
    (hv : ∀ j, isZero (v.get j) = true) : (L.zipWith dlWrite v).all DelayLine.silent = true :=
  four_all_iff.2 fun j => four_get_zipWith dlWrite L v j ▸ dlWrite_silent (four_all_iff.1 h j) (hv j)

/-- A silent cascade stays silent when its stage 0, which runs by itself (R245), becomes another silent line. -/
theorem withStage0_silent {L : Four DelayLine} {M : DelayLine} (h : L.all DelayLine.silent = true)
    (hM : M.silent = true) : ({ L with i0 := M } : Four DelayLine).all DelayLine.silent = true := by
  refine four_all_iff.2 fun j => ?_
  match j with
  | 0 => exact hM
  | 1 => exact four_all_iff.1 h 1
  | 2 => exact four_all_iff.1 h 2
  | 3 => exact four_all_iff.1 h 3

/-- One sample of a legal, silent reverberator with input zero leaves it silent and outputs zeros (R256). -/
theorem processSample_silent {r : Rev} (h : RevInv params r) (hs : Silent r) {x : Num32} (hx : isZero x = true) :
    Silent (processSample r x).1 ∧ isZero (processSample r x).2.1 = true ∧ isZero (processSample r x).2.2 = true := by
  have hgate := isZero_gateInput hx
  have hu := tapValues_silent h hs
  have hbranch := branchOutputs_silent h hs
  have hd (j : Fin 4) : isZero (((branchOutputs r).map Prod.snd).get j) = true := by
    rw [four_get_map]; exact (hbranch j).2
  obtain ⟨htap, hfdn, hdifL, hdifR, hin, -⟩ := hs
  obtain ⟨hc, -⟩ := revInv_coeffs h
  obtain ⟨-, -, ⟨-, -, -, -, -, -, hdry, hearly, hlate, hwet⟩, -⟩ := h
  have hz := damp_silent hin hgate hc
  obtain ⟨hstage0, hv⟩ := diffuse_silent (four_all_iff.1 hdifL 0) (c := diffCoeff.i0) (by decide) hz
  have hsum := mixSum_zeros (isFinite_of_unit hlate) (isFinite_of_unit hearly) hgate hd hu
  have hfed (j : Fin 4) : isZero (((tapValues r).zipWith add
      (feedback ((branchOutputs r).map Prod.snd))).get j) = true := by
    rw [four_get_zipWith]; exact isZero_add (hu j) (feedback_zeros hd j)
  have hstate (j : Fin 4) : isZero (((branchOutputs r).map Prod.fst).get j).s = true := by
    rw [four_get_map]; exact (hbranch j).1
  obtain ⟨hleft, hq0⟩ := cascade_silent (withStage0_silent hdifL hstage0) hsum
  obtain ⟨hright, hq1⟩ := cascade_silent hdifR hsum
  have hout {y : Num32} (hy : isZero y = true) : isZero (add (mul (gateInput x) r.par.dry) (mul y r.par.wet)) = true :=
    isZero_add (isZero_mul_left hgate (isFinite_of_unit hdry)) (isZero_mul_left hy (isFinite_of_unit hwet))
  exact ⟨⟨dlWrite_silent htap hv, zipWith_dlWrite_silent hfdn hfed, hleft, hright, hz, four_all_iff.2 hstate⟩,
    hout hq0, hout hq1⟩

/-- One sample keeps the reverberator legal: the parameters and what they derive stay, and the lines keep their form. -/
theorem processSample_revInv {P : Params} {r : Rev} (h : RevInv P r) (x : Num32) : RevInv P (processSample r x).1 := by
  obtain ⟨hsr, hcap, hpar, hderived, hdelay⟩ := h
  exact ⟨hsr, hcap, hpar, hderived, processSample_delayInv hdelay x⟩

/-! ### Silence through a run (R256) -/

/-- The state before each sample of a silent run. -/
def SilentRun (s : State) : Prop :=
  s.rev.present = true ∧ RevInv params s.rev ∧ Silent s.rev ∧ isZero (readA s.a 0) = true

/-- REV_PROCESS in a silent run outputs zeros, and the run goes on. -/
theorem exec_revProcess_silentRun {s : State} (h : SilentRun s) :
    ∃ t, exec .revProcess s = .next t ∧ SilentRun t ∧ isZero t.q0 = true ∧ isZero t.q1 = true := by
  obtain ⟨hp, hinv, hs, hx⟩ := h
  obtain ⟨hs', hq0, hq1⟩ := processSample_silent hinv hs hx
  exact ⟨_, exec_revProcess_present hp, ⟨hp, processSample_revInv hinv _, hs', hx⟩, hq0, hq1⟩

theorem processTimes_succ {n : Nat} {s t : State} (h : Spec.processTimes n s = .next t) :
    Spec.processTimes (n + 1) s = exec .revProcess t := by
  rw [Spec.processTimes, h]

theorem processTimes_silentRun {s : State} (h : SilentRun s) (n : Nat) :
    ∃ t, Spec.processTimes n s = .next t ∧ SilentRun t := by
  induction n with
  | zero => exact ⟨s, rfl, h⟩
  | succ n ih =>
    obtain ⟨t, ht, hrun⟩ := ih
    obtain ⟨u, hu, hrun', -⟩ := exec_revProcess_silentRun hrun
    exact ⟨u, (processTimes_succ ht).trans hu, hrun'⟩

/-- No signal is left in the construction state (R199). -/
theorem revConstruct_silent (P : Params) (c : RevParams) (sr : Word) : Silent (revConstruct P c sr) :=
  ⟨rfl, rfl, rfl, rfl, isZero_zero, four_all_iff.2 fun j => match j with | 0 | 1 | 2 | 3 => isZero_zero⟩

/-- A REV_CLEAR of a legal reverberator and a REV_INIT, where they complete, leave a construction state. -/
theorem rev_of_clear_or_init {i : Instr} {s t : State}
    (hi : i = .revClear ∧ RevInv params s.rev ∨ ∃ pmask xmask, i = .revInit pmask xmask) (h : exec i s = .next t)
    (hok : t.status = 0) :
    ∃ c sr, t.rev = revConstruct params c sr ∧ sr ≠ 0 ∧ capacityOk params sr c.maxsize = true ∧ ParamsInv c := by
  obtain ⟨rfl, hinv⟩ | ⟨pmask, xmask, rfl⟩ := hi
  · cases hp : s.rev.present with
    | false =>
      obtain rfl := Host.Outcome.next.inj ((exec_of_absent (i := .revClear) rfl hp).symm.trans h)
      exact absurd hok (by decide : (2 : Word) ≠ 0)
    | true =>
      obtain rfl := Host.Outcome.next.inj ((exec_revClear_present hp).symm.trans h)
      have hrev := clearSignal_eq_revConstruct hp hinv
      obtain ⟨hsr, hcap, hpar, -⟩ := hinv
      exact ⟨s.rev.par, s.rev.sr, hrev, hsr, hcap, hpar⟩
  · rw [exec_revInit] at h
    split_ifs at h with hx hsr hcap <;> obtain rfl := Host.Outcome.next.inj h
    · exact absurd hok (by decide : (4 : Word) ≠ 0)
    · exact absurd hok (by decide : (5 : Word) ≠ 0)
    · exact ⟨_, _, rfl, hsr, hcap, clampAll_inv _⟩
    · exact absurd hok (by decide : (6 : Word) ≠ 0)

/-- Settles O59: the run starts from a construction state, which is legal and silent, and each sample keeps it so. -/
theorem silenceStaysSilent : Obligations.SilenceStaysSilent := by
  intro i s t a' n hi h hok hx
  obtain ⟨c, sr, hrev, hsr, hcap, hc⟩ := rev_of_clear_or_init hi h hok
  have hstart : SilentRun { t with a := a' } := by
    unfold SilentRun
    rw [hrev]
    exact ⟨rfl, revConstruct_inv hsr hcap hc, revConstruct_silent params c sr, hx⟩
  obtain ⟨u, hu, hrun⟩ := processTimes_silentRun hstart n
  obtain ⟨v, hv, -, hq⟩ := exec_revProcess_silentRun hrun
  exact ⟨v, (processTimes_succ hu).trans hv, hq⟩

end Sys2Proof.Machine

/-! Proofs of the exceptions statements (60_exceptions.md): how a command ends, and which check decides its status. -/

namespace Sys2Proof.Machine

open Sys2Proof F32 Laws.EncodeFields

/-! ### How a command ends (R271, R272, R277) -/

/-- A command is rejected with a code other than OK at the state it found, or it completes. -/
theorem exec_cases (i : Instr) (s : State) :
    (∃ c, c ≠ StatusCode.ok ∧ exec i s = raiseStatus c s) ∨ ∃ t, exec i s = complete t := by
  cases hi : isOscCommand i with
  | true =>
    obtain hc | ⟨o, x, h, -⟩ := exec_osc_cases hi s
    · exact .inl hc
    · exact .inr ⟨{ s with osc := o, q0 := x }, h⟩
  | false =>
    obtain hc | ⟨r, x, y, h, -⟩ := exec_rev_cases hi s
    · exact .inl hc
    · exact .inr ⟨{ s with rev := r, q0 := x, q1 := y }, h⟩

/-- Settles O11: a command that is rejected and one that completes both have a next state. -/
theorem everyCommandEnds : Obligations.EveryCommandEnds := by
  intro i s
  obtain ⟨_, -, h⟩ | ⟨_, h⟩ := exec_cases i s
  · exact ⟨_, h⟩
  · exact ⟨_, h⟩

/-- Settles O12: a rejected command writes STATUS alone, and one that completes leaves OK there. -/
theorem rejectedCommandChangesOnlyStatus : Obligations.RejectedCommandChangesOnlyStatus := by
  intro i s t h hstatus
  obtain ⟨c, -, hc⟩ | ⟨u, hu⟩ := exec_cases i s
  · obtain rfl := Host.Outcome.next.inj (hc.symm.trans h)
    rfl
  · obtain rfl := Host.Outcome.next.inj (hu.symm.trans h)
    exact absurd rfl hstatus

/-- Settles O7: with no access on the list the step takes none. -/
theorem noAccessHoldsState : Obligations.NoAccessHoldsState := fun _ => step_of_nil

/-! ### The code a command ends with (R270, R273) -/

/-- The code that checks 2 to 5 of R273 decide for a decoded command, and OK when none of them fails. -/
def commandStatus (i : Instr) (s : State) : Word :=
  match i with
  | .oscInit n => if 4 < n then 3 else if readA s.a 3 = 0 then 5 else 0
  | .oscSetSr => if s.osc.present = false then 2 else if readA s.a 0 = 0 then 5 else 0
  | .revInit pmask xmask =>
    if xmask ≠ 0 then 4
    else if readA s.a 10 = 0 then 5
    else if ¬capacityOk params (readA s.a 10) (Spec.clampAll (Spec.rawParams pmask s.a)).maxsize then 6
    else 0
  | .revSetSr =>
    if s.rev.present = false then 2
    else if readA s.a 0 = 0 then 5
    else if ¬capacityOk params (readA s.a 0) s.rev.par.maxsize then 6
    else 0
  | .oscStep _ | .oscSetPhase | .oscDestroy => if s.osc.present = false then 2 else 0
  | .revProcess | .revDestroy | .revSpread | .revSize | .revDecay | .revDamp | .revBw | .revDry | .revWet | .revEarly
  | .revLate | .revClear | .revPrint => if s.rev.present = false then 2 else 0

/-- The result is a next state with `w` in STATUS. -/
def EndsWith (r : Result) (w : Word) : Prop := ∃ t, r = .next t ∧ t.status = w

/-- The oscillator's presence check comes first, and the command behind it decides the rest. -/
theorem endsWith_requireOsc {s : State} {k : Result} {w : Word} (hk : EndsWith k w) :
    EndsWith (requireOsc s k) (if s.osc.present = false then 2 else w) := by
  cases hp : s.osc.present with
  | false => exact ⟨_, requireOsc_absent hp k, rfl⟩
  | true => rwa [requireOsc_present hp]

/-- The reverberator's presence check comes first, and the command behind it decides the rest. -/
theorem endsWith_requireRev {s : State} {k : Result} {w : Word} (hk : EndsWith k w) :
    EndsWith (requireRev s k) (if s.rev.present = false then 2 else w) := by
  cases hp : s.rev.present with
  | false => exact ⟨_, requireRev_absent hp k, rfl⟩
  | true => rwa [requireRev_present hp]

/-- The checks of a command's meaning are R273's, in the same order. -/
theorem exec_endsWith_commandStatus (i : Instr) (s : State) : EndsWith (exec i s) (commandStatus i s) := by
  cases i with
  | oscInit n =>
    cases hn : Shape.ofCode n with
    | none => exact ⟨_, exec_oscInit_of_ofCode_none hn, (if_pos (ofCode_eq_none_iff.1 hn)).symm⟩
    | some shape =>
      have hle : ¬4 < n := by simp [← ofCode_eq_none_iff, hn]
      rw [exec_oscInit_of_ofCode hn, commandStatus, if_neg hle]
      split <;> exact ⟨_, rfl, rfl⟩
  | oscSetSr =>
    refine endsWith_requireOsc ?_
    split <;> exact ⟨_, rfl, rfl⟩
  | revInit pmask xmask =>
    rw [exec_revInit, commandStatus]
    split_ifs <;> exact ⟨_, rfl, rfl⟩
  | revSetSr =>
    refine endsWith_requireRev ?_
    split_ifs <;> exact ⟨_, rfl, rfl⟩
  | oscStep _ | oscSetPhase | oscDestroy => exact endsWith_requireOsc ⟨_, rfl, rfl⟩
  | revProcess | revDestroy | revSpread | revSize | revDecay | revDamp | revBw | revDry | revWet | revEarly | revLate
  | revClear | revPrint => exact endsWith_requireRev ⟨_, rfl, rfl⟩

/-! ### The checks on the bits of a word (R101 to R106, R273) -/

section

variable {w : Word} {i : Instr}

theorem illegalEncoding_of_decode_ok (h : decode w = .ok i) : Spec.illegalEncoding w = false := by
  rw [← Bool.not_eq_true, ← decode_error_iff]
  rintro ⟨e, he⟩
  exact nomatch h.symm.trans he

/-- UNIT and OP of a legal word are its command's. -/
theorem unit_op_of_decode_ok (h : decode w = .ok i) :
    w.toNat / 2 ^ 28 = (unitOp i).1.toNat ∧ w.toNat % 2 ^ 8 = (unitOp i).2.toNat := by
  obtain ⟨-, hw⟩ := legalWordIsItsCommandsWord w i h
  obtain ⟨-, huo, -⟩ := encode_eq_iff.1 hw
  rw [huo, fieldUnit_toNat, fieldOp_toNat]
  exact ⟨rfl, rfl⟩

/-- CMD[11:8] of an OSC_INIT is its shape code. -/
theorem shape_of_decode_oscInit {n : Nat} (h : decode w = .ok (.oscInit n)) : w.toNat / 2 ^ 8 % 2 ^ 4 = n := by
  obtain ⟨hwf, hw⟩ := legalWordIsItsCommandsWord w _ h
  obtain ⟨-, -, hf⟩ := encode_eq_iff.1 hw
  obtain ⟨-, hn⟩ := parts_of_append_eq (hf.trans (fieldField_eq_zero_nibble w))
  rw [← fieldNibble_toNat, ← hn]
  exact Nat.mod_eq_of_lt (of_decide_eq_true hwf)

/-- CMD[17:8] and CMD[19:18] of a REV_INIT are its masks. -/
theorem masks_of_decode_revInit {pmask : BitVec 10} {xmask : Nat} (h : decode w = .ok (.revInit pmask xmask)) :
    BitVec.ofNat 10 (w.toNat / 2 ^ 8) = pmask ∧ w.toNat / 2 ^ 18 % 2 ^ 2 = xmask := by
  obtain ⟨hwf, hw⟩ := legalWordIsItsCommandsWord w _ h
  obtain ⟨-, -, hf⟩ := encode_eq_iff.1 hw
  obtain ⟨hx, hp⟩ := parts_of_append_eq (hf.trans (fieldField_eq_xmask_pmask w))
  constructor
  · rw [hp]
    exact BitVec.eq_of_toNat_eq (fieldPmask_toNat w).symm
  · rw [← fieldXmask_toNat, ← hx]
    exact Nat.mod_eq_of_lt (of_decide_eq_true hwf)

/-- On the bits of a legal word the checks decide what they decide for its command. -/
theorem statusOfChecks_of_decode_ok (h : decode w = .ok i) (s : State) :
    Spec.statusOfChecks w s = commandStatus i s := by
  obtain ⟨hunit, hop⟩ := unit_op_of_decode_ok h
  have hlegal := illegalEncoding_of_decode_ok h
  simp only [Spec.statusOfChecks, hlegal, hunit, hop]
  cases i with
  | oscInit n =>
    rw [shape_of_decode_oscInit h]
    simp [unitOp, commandStatus]
  | revInit pmask xmask =>
    obtain ⟨hp, hx⟩ := masks_of_decode_revInit h
    rw [hp, hx]
    simp [unitOp, commandStatus, capacityOk_iff_spec, Spec.capacityOk, Spec.clampAll, Spec.rawParams]
  | revSetSr => simp [unitOp, commandStatus, capacityOk_iff_spec, Spec.capacityOk]
  | _ => simp [unitOp, commandStatus]

theorem statusOfChecks_of_decode_error {e : Illegal} (h : decode w = .error e) (s : State) :
    Spec.statusOfChecks w s = 1 :=
  if_pos ((decode_error_iff w).1 ⟨e, h⟩)

end

/-- Settles O13: check 1 is the decoder's, and the others are the command's, which do not see the host's list. -/
theorem statusFollowsCheckOrder : Obligations.StatusFollowsCheckOrder := by
  intro s w rest hs
  cases h : decode w with
  | error e =>
    exact ⟨_, (step_of_cons hs).trans (access_illegal h _), (statusOfChecks_of_decode_error h s).symm⟩
  | ok i =>
    rw [step_command hs h, statusOfChecks_of_decode_ok h]
    exact exec_endsWith_commandStatus i { s with host := rest }

end Sys2Proof.Machine

/-! Proofs of the reset statements (70_reset_and_hazards.md): what power-on leaves, and that it is legal. -/

namespace Sys2Proof.Machine

open Sys2Proof

/-! ### The reset values (R300) -/

/-- The values R300's table gives; every other register is left unspecified there. -/
abbrev HasResetValues (s : State) : Prop :=
  (∀ k, readA s.a k = 0) ∧ s.q0 = 0 ∧ s.q1 = 0 ∧ s.status = 0 ∧ s.osc.present = false ∧ s.rev.present = false

theorem readA_zero : ∀ k, readA .zero k = 0 := by decide

/-- Power-on gives R300's values whatever the machine held before. -/
theorem powerOn_hasResetValues (s : State) : HasResetValues (powerOn s) := by
  obtain ⟨ha, hq0, hq1, hstatus, hosc, hrev, -⟩ := powerOn_resets s
  rw [HasResetValues, ha, hosc, hrev]
  exact ⟨readA_zero, hq0, hq1, hstatus, rfl, rfl⟩

/-- The state a run starts from is the one power-on leaves. -/
theorem powerOn_reset : powerOn State.reset = State.reset := rfl

theorem reset_hasResetValues : HasResetValues State.reset :=
  powerOn_reset ▸ powerOn_hasResetValues State.reset

/-- Settles O8: the access and the state a run starts from have the values power-on gives, and the host has no access
on the list there. -/
theorem powerOnResetState : Obligations.PowerOnResetState := by
  obtain ⟨ha, hq0, hq1, hstatus, hosc, hrev⟩ := reset_hasResetValues
  refine ⟨ha, hq0, hq1, hstatus, hosc, hrev, step_of_nil rfl, fun s rest hs => ?_⟩
  exact ⟨powerOn { s with host := rest }, step_of_cons hs, powerOn_hasResetValues _⟩

/-! ### The invariant (R51, R69, R270) -/

/-- Status 0 is OK's code, and of an absent engine nothing is asked. -/
theorem HasResetValues.inv {s : State} (h : HasResetValues s) : Inv s := by
  obtain ⟨-, -, -, hstatus, hosc, hrev⟩ := h
  refine ⟨?_, fun hpresent => ?_, fun hpresent => ?_⟩
  · rw [hstatus]
    decide
  · exact absurd hpresent (by rw [hosc]; decide)
  · exact absurd hpresent (by rw [hrev]; decide)

/-- Settles O9, by the values at reset. -/
theorem resetMeetsInvariant : Obligations.ResetMeetsInvariant := reset_hasResetValues.inv

end Sys2Proof.Machine

/-! Proofs of the remaining statements: the decoder's known words (95_test_vectors.md section 4), and the invariant as
a step lemma (10_state.md sections 4 and 5). -/

namespace Sys2Proof.Machine

open Sys2Proof F32

/-! ### The decoder's known words -/

/-- Settles O4, by running the decoder on the twelve words. -/
theorem knownWordsDecode : Obligations.KnownWordsDecode := by
  unfold Obligations.KnownWordsDecode
  decide

/-! ### The oscillator after a command (R43 to R49) -/

section

variable {i : Instr} {s t : State}

/-- Behind the presence check the oscillator is a legal one, and an empty slot stays as it is. -/
theorem oscInv_of_requireOsc {k : Result} (hs : s.osc.present = true → OscInv s.osc) (h : requireOsc s k = .next t)
    (hk : OscInv s.osc → k = .next t → OscInv t.osc) : t.osc.present = true → OscInv t.osc := by
  cases hp : s.osc.present with
  | false =>
    obtain rfl := Host.Outcome.next.inj ((requireOsc_absent hp k).symm.trans h)
    exact hs
  | true => exact fun _ => hk (hs hp) ((requireOsc_present hp k).symm.trans h)

/-- A command keeps a present oscillator legal, and OSC_INIT constructs a legal one. -/
theorem exec_keeps_oscInv (hs : s.osc.present = true → OscInv s.osc) (h : exec i s = .next t) :
    t.osc.present = true → OscInv t.osc := by
  cases i with
  | oscInit n =>
    cases hn : Shape.ofCode n with
    | none =>
      obtain rfl := Host.Outcome.next.inj ((exec_oscInit_of_ofCode_none hn).symm.trans h)
      exact hs
    | some shape =>
      rw [exec_oscInit_of_ofCode hn] at h
      split_ifs at h with hsr <;> obtain rfl := Host.Outcome.next.inj h
      · exact hs
      · exact fun _ => oscConstruct_inv hsr
  | oscStep v =>
    refine oscInv_of_requireOsc hs h fun hinv hk => ?_
    obtain rfl := Host.Outcome.next.inj hk
    exact oscStep_inv hinv v s.a
  | oscSetSr =>
    refine oscInv_of_requireOsc hs h fun hinv hk => ?_
    split_ifs at hk with hsr <;> obtain rfl := Host.Outcome.next.inj hk
    · exact hinv
    · exact ⟨hsr, hinv.2⟩
  | oscSetPhase | oscDestroy =>
    -- the latch and the present bit are no part of `OscInv`
    refine oscInv_of_requireOsc hs h fun hinv hk => ?_
    obtain rfl := Host.Outcome.next.inj hk
    exact hinv
  | _ =>
    obtain ⟨-, hosc, -⟩ := exec_rev_frame rfl h
    exact hosc ▸ hs

end

/-! ### The delay lines after a derivation and a clear (R197, R253) -/

section

variable {P : Params} {r : Rev}

/-- Deriving the diffusers makes lines of the derived sizes and leaves the other lines. -/
theorem deriveDiffusers_delayInv (htap : LineInv r.tapLine tapSize) (hfdn : LinesInv r.fdnLine r.len) :
    DelayInv (deriveDiffusers P r) := by
  obtain ⟨hl, hr⟩ := deriveDiffusers_lines P r
  refine ⟨?_, ?_, ?_, ?_, ?_⟩
  · simpa only [deriveDiffusers_keeps]
  · simpa only [deriveDiffusers_keeps]
  · rw [hl]; exact linesInv_zeros (diffSizes_pos _ _ _ _)
  · rw [hr]; exact linesInv_zeros (diffSizes_pos _ _ _ _)
  · rw [hr]; rfl

theorem clearSignal_delayInv (h : DelayInv r) : DelayInv (clearSignal r) := by
  obtain ⟨htap, ⟨hf0, hf1, hf2, hf3⟩, ⟨hl0, hl1, hl2, hl3⟩, ⟨hr0, hr1, hr2, hr3⟩, hzero⟩ := h
  refine ⟨lineInv_dlClear htap, ?_, ?_, ?_, congrArg dlClear hzero⟩
  · exact ⟨lineInv_dlClear hf0, lineInv_dlClear hf1, lineInv_dlClear hf2, lineInv_dlClear hf3⟩
  · exact ⟨lineInv_dlClear hl0, lineInv_dlClear hl1, lineInv_dlClear hl2, lineInv_dlClear hl3⟩
  · exact ⟨lineInv_dlClear hr0, lineInv_dlClear hr1, lineInv_dlClear hr2, lineInv_dlClear hr3⟩

end

/-! ### The reverberator after a command (R57 to R67) -/

section

variable {i : Instr} {s t : State}

/-- A setter writes a clamped value, REV_INIT ten of them, and no other command writes a parameter (R191, R212). -/
theorem revAfter_paramsInv (h : ParamsInv s.rev.par) : ParamsInv (revAfter i s).par := by
  have ⟨hmaxsize, hsize, hspread, hbw, hdecay, hdamp, hdry, hearly, hlate, hwet⟩ := h
  have hunit (x : Num32) : InRange (clampUnit x) zero one := clampUnit_range x
  cases i with
  | revInit _ _ => exact clampAll_inv _
  | revSize =>
    exact ⟨hmaxsize, clampSize_range _ hmaxsize.1, hspread, hbw, hdecay, hdamp, hdry, hearly, hlate, hwet⟩
  | revSpread => exact ⟨hmaxsize, hsize, hunit _, hbw, hdecay, hdamp, hdry, hearly, hlate, hwet⟩
  | revBw => exact ⟨hmaxsize, hsize, hspread, hunit _, hdecay, hdamp, hdry, hearly, hlate, hwet⟩
  | revDecay => exact ⟨hmaxsize, hsize, hspread, hbw, clampDecay_range _, hdamp, hdry, hearly, hlate, hwet⟩
  | revDamp => exact ⟨hmaxsize, hsize, hspread, hbw, hdecay, hunit _, hdry, hearly, hlate, hwet⟩
  | revDry => exact ⟨hmaxsize, hsize, hspread, hbw, hdecay, hdamp, hunit _, hearly, hlate, hwet⟩
  | revEarly => exact ⟨hmaxsize, hsize, hspread, hbw, hdecay, hdamp, hdry, hunit _, hlate, hwet⟩
  | revLate => exact ⟨hmaxsize, hsize, hspread, hbw, hdecay, hdamp, hdry, hearly, hunit _, hwet⟩
  | revWet => exact ⟨hmaxsize, hsize, hspread, hbw, hdecay, hdamp, hdry, hearly, hlate, hunit _⟩
  | _ => exact h

/-- What a command's new rate or parameter determines is derived again (R194 to R198). -/
theorem revAfter_derivedInv (h : DerivedInv params s.rev) : DerivedInv params (revAfter i s) := by
  have ⟨hld, halpha, hlen, htap, hfdnGain, htapGain, hsizeL, hsizeR, hin, hfdn⟩ := h
  cases i with
  | revInit _ _ => exact deriveSize_derivedInv rfl rfl rfl
  | revSetSr => exact deriveSize_derivedInv rfl hin hfdn
  | revSize => exact deriveSize_derivedInv halpha hin hfdn
  | revSpread => exact ⟨hld, halpha, hlen, htap, hfdnGain, htapGain, rfl, rfl, hin, hfdn⟩
  | revDecay => exact ⟨hld, rfl, hlen, htap, rfl, rfl, hsizeL, hsizeR, hin, hfdn⟩
  | revDamp => exact ⟨hld, halpha, hlen, htap, hfdnGain, htapGain, hsizeL, hsizeR, hin, rfl⟩
  | revBw => exact ⟨hld, halpha, hlen, htap, hfdnGain, htapGain, hsizeL, hsizeR, rfl, hfdn⟩
  | _ => exact h

/-- A command reallocates the lines whose sizes it derives, clears them, writes one word to each, or leaves them. -/
theorem revAfter_delayInv (h : DelayInv s.rev) : DelayInv (revAfter i s) := by
  cases i with
  | revInit _ _ => exact deriveSize_delayInv tapLine_zeros
  | revSetSr | revSize =>
    obtain ⟨htap, -⟩ := h
    exact deriveSize_delayInv htap
  | revSpread =>
    obtain ⟨htap, hfdn, -⟩ := h
    exact deriveDiffusers_delayInv htap hfdn
  | revProcess => exact processSample_delayInv h _
  | revClear => exact clearSignal_delayInv h
  | _ => exact h

/-- A completed command whose rate passes the checks makes a legal reverberator of a legal one. -/
theorem revAfter_revInv (h : RevInv params s.rev) (hsr : (revAfter i s).sr ≠ 0)
    (hcap : capacityOk params (revAfter i s).sr (revAfter i s).par.maxsize = true) :
    RevInv params (revAfter i s) := by
  obtain ⟨-, -, hpar, hderived, hdelay⟩ := h
  exact ⟨hsr, hcap, revAfter_paramsInv hpar, revAfter_derivedInv hderived, revAfter_delayInv hdelay⟩

/-- A command keeps a present reverberator legal: REV_INIT and REV_SETSR check the rate they bring (R193, R273), and
the other commands leave rate and maxsize. -/
theorem exec_keeps_revInv (hs : s.rev.present = true → RevInv params s.rev) (h : exec i s = .next t) :
    t.rev.present = true → RevInv params t.rev := by
  cases i with
  | revInit pmask xmask =>
    rw [exec_revInit] at h
    split_ifs at h with hx hsr hcap <;> obtain rfl := Host.Outcome.next.inj h
    · exact hs
    · exact hs
    · exact fun _ => revConstruct_inv hsr hcap (clampAll_inv _)
    · exact hs
  | revSetSr =>
    obtain rfl | hk := requireRev_next h
    · exact hs
    · split_ifs at hk with hsr hcap <;> obtain rfl := Host.Outcome.next.inj hk
      · exact hs
      · exact fun hp => revAfter_revInv (i := .revSetSr) (hs hp) hsr hcap
      · exact hs
  | revDestroy =>
    obtain rfl | hk := requireRev_next h
    · exact hs
    · obtain rfl := Host.Outcome.next.inj hk
      exact fun hp => absurd hp Bool.false_ne_true
  | _ =>
    obtain hrev | hrev := rev_of_exec h
    · exact hrev ▸ hs
    · rw [hrev]
      intro hp
      obtain ⟨hsr, hcap, -⟩ := hs hp
      exact revAfter_revInv (hs hp) hsr hcap

/-! ### The step -/

/-- Every command leaves one of the codes 0 to 6 in STATUS (R270). -/
theorem exec_status_le (h : exec i s = .next t) : t.status.toNat ≤ 6 := by
  obtain ⟨c, -, hc⟩ | ⟨u, hu⟩ := exec_cases i s
  · obtain rfl := Host.Outcome.next.inj (hc.symm.trans h)
    exact statusWord_le c
  · obtain rfl := Host.Outcome.next.inj (hu.symm.trans h)
    exact statusWord_le .ok

theorem exec_keeps_inv (hs : Inv s) (h : exec i s = .next t) : Inv t := by
  obtain ⟨-, hosc, hrev⟩ := hs
  exact ⟨exec_status_le h, exec_keeps_oscInv hosc h, exec_keeps_revInv hrev h⟩

/-- A write of CMD runs a command or ends with ILLEGAL, power-on resets, and the other accesses touch neither STATUS
nor an engine (R31 to R35, R300). -/
theorem access_keeps_inv {a : HostAccess} (hs : Inv s) (h : access exec a s = .next t) : Inv t := by
  cases a with
  | writeCmd w =>
    cases hw : decode w with
    | ok i => exact exec_keeps_inv hs ((access_command hw s).symm.trans h)
    | error e =>
      obtain rfl := Host.Outcome.next.inj ((access_illegal hw s).symm.trans h)
      obtain ⟨-, hosc, hrev⟩ := hs
      exact ⟨statusWord_le .illegal, hosc, hrev⟩
  | powerOn =>
    obtain rfl := Host.Outcome.next.inj h
    exact (powerOn_hasResetValues s).inv
  | writeA _ _ | readA _ | readQ _ | readStatus | readCmd =>
    obtain rfl := Host.Outcome.next.inj h
    exact hs

end

/-- Settles O10: a step is one access of the host or none, and the access a command, whose three parts of the
invariant are kept by the lemmas above. -/
theorem stepKeepsInvariant : Obligations.StepKeepsInvariant := by
  intro s t hs h
  cases hhost : s.host with
  | nil =>
    obtain rfl := Host.Outcome.next.inj ((step_of_nil hhost).symm.trans h)
    exact hs
  | cons a rest =>
    have hs' : Inv { s with host := rest } := hs
    exact access_keeps_inv hs' ((step_of_cons hhost).symm.trans h)

end Sys2Proof.Machine
